-- ==== Sys2Proof/Word.lean ====
section
/-! DEFINITION. The word types of the block (00_scope.md R11, R12): plain bit vectors. -/

namespace Sys2Proof

/-- A byte: a PSG register value, an event byte, a control-block byte. -/
abbrev Byte := BitVec 8

/-- A host command word (30_encoding.md R90): `CMD` in bits 23:20, the payload in bits 19:0. -/
abbrev CmdWord := BitVec 24

/-- A 5-bit sample, 0 to 31, centred at 16 (10_state.md R26). -/
abbrev Sample := BitVec 5

/-- A two's-complement 16-bit integer, the spec's s16 (00_scope.md R11). -/
abbrev S16 := BitVec 16

end Sys2Proof
end

