-- ==== Sys2Proof/Machine/Records.lean ====
section
/-! DEFINITION. The records State is made of: frames, PSG channels, the PSG core, sequencer slots. -/

namespace Sys2Proof.Machine

/-- A stereo frame, left first (00_scope.md R14). -/
structure Frame where
  l : S16
  r : S16
  deriving DecidableEq, Repr, Inhabited

/-- One PSG channel register set (10_state.md R22 to R30). -/
structure Channel where
  /-- frequency register, u12 (R23) -/
  freq : BitVec 12
  /-- control register: EN 7, DDA 6, bit 5 without function, AL 4:0 (R24) -/
  ctrl : Byte
  /-- channel balance: LAL 7:4, RAL 3:0 (R25) -/
  bal : Byte
  /-- waveform memory, 32 entries of 5 bits (R26) -/
  wave : Vector Sample 32
  /-- the entry the next waveform write fills (R27) -/
  index : BitVec 5
  /-- DDA sample, always 0 to 31 (R28) -/
  dda : Sample
  /-- phase accumulator, u17 (R29) -/
  counter : BitVec 17
  deriving DecidableEq, Repr, Inhabited

/-- The PSG core (10_state.md R20 to R22). -/
structure Psg where
  /-- the selected channel, u3 (R20) -/
  sel : BitVec 3
  /-- global balance: LMAL 7:4, RMAL 3:0 (R21) -/
  gbal : Byte
  /-- the 8 channel register sets (R22) -/
  ch : Vector Channel 8
  deriving DecidableEq, Repr, Inhabited

/-- One sequencer slot (10_state.md R35 to R42). -/
structure Slot where
  /-- the slot is playing (R36) -/
  active : Bool
  /-- ticks left before the next fetch, s16 (R37) -/
  countdown : S16
  /-- duration base, u8 (R38) -/
  durBase : Byte
  /-- transpose, s8 (R38) -/
  transpose : Byte
  /-- note index, u4 (R38) -/
  basePitch : BitVec 4
  /-- accumulated pitch deltas, an unbounded integer (R38) -/
  pitchBend : Int
  /-- volume level, u5 (R38) -/
  volume : BitVec 5
  /-- index into `CTRL_BLOCK`, or NULL (R39) -/
  envPos : Option Nat
  /-- applications left in the current segment, u8 (R39) -/
  envHold : Byte
  /-- the current segment's volume delta, s8 (R39) -/
  envDv : Byte
  /-- the current segment's pitch delta, s8 (R39) -/
  envDp : Byte
  /-- the flag that freezes the envelope (R39) -/
  envHoldFlag : Bool
  /-- the index into `CTRL_SEQ_OFFSET` a note restart uses (R39) -/
  envSel : Nat
  /-- stream cursor: an index into `EVENT_DATA`, or NULL (R40) -/
  cursor : Option Nat
  /-- the selected bank of `WAVE_BANK` (R41) -/
  waveBank : Nat
  /-- the next push uploads the bank (R41) -/
  uploadPending : Bool
  /-- the balance the push writes, u8 (R42) -/
  bal : Byte
  /-- the frequency the pitch step computed, u12 (R42) -/
  freq : BitVec 12
  deriving DecidableEq, Repr, Inhabited

/-- The six audio slots are numbered 0 to 5 (10_state.md R35); slot `k` drives PSG channel `k`. -/
abbrev AudioSlot := Fin 6

end Sys2Proof.Machine
end

