-- ==== Sys2Proof/Config.lean ====
section
/-! DEFINITION. The configuration of the block: the parameters of 00_scope.md R9, as plain data, and
the OPEN ones as opaque constants. A statement about every state holds for every configuration,
because State carries it (log 2); the opaque constants are what the machine has after reset (log 3). -/

namespace Sys2Proof

/-- The kinds of control event (30_encoding.md R103). -/
inductive ControlKind where
  | terminate
  | setTranspose
  | setDurationBase
  | selectWaveformBank
  | envHoldOn
  | envHoldOff
  | unrecognized
  | undescribed
  deriving DecidableEq, Repr, Inhabited

/-- `PHASE_ORDER` (00_scope.md R9, 41_psg_render.md R152). -/
inductive PhaseOrder where
  | advanceThenRead
  | readThenAdvance
  deriving DecidableEq, Repr, Inhabited

/-- `PCM_BYTE_ORDER` (00_scope.md R9, R14). -/
inductive ByteOrder where
  | little
  | big
  deriving DecidableEq, Repr, Inhabited

/-- `WAVE_STEP`: the default formula of 41_psg_render.md R146, or a table of 4096 values. -/
inductive WaveStepTab where
  | formula
  | table (t : List (BitVec 32))
  deriving DecidableEq, Repr, Inhabited

/-- `DUR_FN`: the default product of 42_sequencer.md R177, or its 16 x 256 values, the value for
`(m, base)` at index `256 * m + base`. -/
inductive DurFn where
  | product
  | table (t : List S16)
  deriving DecidableEq, Repr, Inhabited

/-- `VIBRATO` (42_sequencer.md R199): a constant, as a test configuration sets it, or the uninterpreted
function `Config.openVibrato` of the slot's fields (log 6). -/
inductive Vibrato where
  | const (v : Int)
  | uninterpreted
  deriving DecidableEq, Repr, Inhabited

/-- What `ENV_DECODE` gives at an index of `CTRL_BLOCK` that does not hold the sentinel
(30_encoding.md R106): a segment, or a read at `i`, at or past the end of the block (log 5). -/
inductive EnvItem where
  | seg (dv dp hold : Byte) (len : Nat)
  | outside (i : Nat)
  deriving DecidableEq, Repr, Inhabited

/-- A configuration: the parameters of 00_scope.md R9. Numbers that R10 bounds are plain naturals, so
that an ill-formed configuration can be written down and refused. -/
structure Config where
  /-- `PSG_CLOCK`, Hz -/
  psgClock : Nat
  /-- `RATE`, Hz -/
  rate : Nat
  /-- `UPDATE_FREQ`, Hz -/
  updateFreq : Nat
  /-- `PHASE_ORDER` -/
  phaseOrder : PhaseOrder
  /-- `SCALE_TAB` -/
  scaleTab : Vector Nat 16
  /-- `VOL_TABLE` -/
  volTable : Vector S16 32
  /-- `WAVE_STEP` -/
  waveStepTab : WaveStepTab
  /-- `WAVE_BANK`; `N_WAVES` is its length -/
  waveBank : List (Vector Nat 32)
  /-- `NOTE_THRESHOLD` -/
  noteThreshold : Nat
  /-- `CONTROL_OPS`: the bytes listed -/
  controlOps : List (Byte × ControlKind)
  /-- `CONTROL_OPS`: the kind of every byte not listed -/
  controlRest : ControlKind
  /-- `EVENT_DATA` -/
  eventData : List Byte
  /-- `SOUND_OFFSETS`: cue id to six entries, each an index or NULL -/
  soundOffsets : List (BitVec 16 × Vector (Option Nat) 6)
  /-- `CTRL_BLOCK` -/
  ctrlBlock : List Byte
  /-- `ENV_DECODE`: the sentinel byte -/
  envSentinel : Byte
  /-- `ENV_DECODE`: what it gives at each index of `CTRL_BLOCK` that does not hold the sentinel -/
  envItems : List EnvItem
  /-- `CTRL_SEQ_OFFSET` -/
  ctrlSeqOffset : List Nat
  /-- `PITCH_LUT` -/
  pitchLut : List Nat
  /-- `VIBRATO` -/
  vibrato : Vibrato
  /-- `DUR_FN` -/
  durFn : DurFn
  /-- `VOL_INIT` -/
  volInit : BitVec 5
  /-- `DUR_BASE_INIT` -/
  durBaseInit : Byte
  /-- `GLOBAL_BAL_PUSH` -/
  globalBalPush : Byte
  /-- `SEQ_BAL_INIT` -/
  seqBalInit : Byte
  /-- `PCM_BYTE_ORDER` -/
  pcmByteOrder : ByteOrder
  deriving DecidableEq, Repr

/-- DESIGN CHOICE (log 3): the OPEN `RATE` of the machine after reset, before it is brought to at
least `UPDATE_FREQ`. -/
opaque Config.openRate : Nat
/-- DESIGN CHOICE (log 3): the OPEN `NOTE_THRESHOLD`, before it is brought into 1 to 255. -/
opaque Config.openThreshold : Nat
/-- DESIGN CHOICE (log 3): the OPEN part of `CONTROL_OPS`. -/
opaque Config.openControlOps : List (Byte × ControlKind)
/-- DESIGN CHOICE (log 3): the OPEN kind of the bytes `Config.openControlOps` does not list. -/
opaque Config.openControlRest : ControlKind
/-- DESIGN CHOICE (log 3): the OPEN `EVENT_DATA`. -/
opaque Config.openEventData : List Byte
/-- DESIGN CHOICE (log 3): the OPEN `SOUND_OFFSETS`, before its entries are brought into `EVENT_DATA`. -/
opaque Config.openSoundOffsets : List (BitVec 16 × Vector (Option Nat) 6)
/-- DESIGN CHOICE (log 3): the OPEN `CTRL_BLOCK`. -/
opaque Config.openCtrlBlock : List Byte
/-- DESIGN CHOICE (log 3): the OPEN sentinel byte of `ENV_DECODE`. -/
opaque Config.openSentinel : Byte
/-- DESIGN CHOICE (log 3): the OPEN `ENV_DECODE` at each index. -/
opaque Config.openEnvDecode : Nat → EnvItem
/-- DESIGN CHOICE (log 3): the OPEN `CTRL_SEQ_OFFSET`, before entries outside `CTRL_BLOCK` are dropped. -/
opaque Config.openCtrlSeqOffset : List Nat
/-- DESIGN CHOICE (log 3): the OPEN `PITCH_LUT`. -/
opaque Config.openPitchLut : List (BitVec 12)
/-- DESIGN CHOICE (log 3): bank 0 of the OPEN `WAVE_BANK`. -/
opaque Config.openWaveBank0 : Vector Sample 32
/-- DESIGN CHOICE (log 3): the further banks of the OPEN `WAVE_BANK`. -/
opaque Config.openWaveBanks : List (Vector Sample 32)
/-- DESIGN CHOICE (log 3): the OPEN `PCM_BYTE_ORDER`. -/
opaque Config.openPcmByteOrder : ByteOrder
/-- DESIGN CHOICE (log 6): the uninterpreted `VIBRATO` of 42_sequencer.md R199, a function of the slot's
fields; no statement may rest on its value. -/
opaque Config.openVibrato : Machine.Slot → Int

end Sys2Proof
end

