-- ==== Sys2Proof/Machine/Tables.lean ====
section
/-! DEFINITION. What the parameters of a configuration give: the default tables, `SPP`, the step, duration
and vibrato functions, the kind of a control byte, the well-formedness of 00_scope.md R10, and the
configuration of the machine after reset. -/

namespace Sys2Proof

/-- The default `SCALE_TAB` (41_psg_render.md R142). -/
def scaleTabDefault : Vector Nat 16 :=
  #v[0x00, 0x03, 0x05, 0x07, 0x09, 0x0B, 0x0D, 0x0F, 0x10, 0x13, 0x15, 0x17, 0x19, 0x1B, 0x1D, 0x1F]

/-- The default `VOL_TABLE` (41_psg_render.md R144). -/
def volTableDefault : Vector S16 32 :=
  #v[341, 287, 241, 203, 171, 143, 121, 101, 85, 72, 60, 51, 42, 36, 30, 25,
     21, 18, 15, 12, 10, 9, 7, 6, 5, 4, 3, 3, 2, 2, 1, 0]

namespace Config

/-- `SPP`, frames per render period (43_stream_adapter.md R231). -/
def spp (c : Config) : Nat := c.rate / c.updateFreq

/-- `N_WAVES`: `WAVE_BANK` holds that many banks (00_scope.md R9). -/
def nWaves (c : Config) : Nat := c.waveBank.length

/-- `WAVE_STEP[f]` (41_psg_render.md R146): by default the floor of
`PSG_CLOCK * 4096 / (RATE * g)`, with `g = f`, or 4096 when `f` is 0. -/
def waveStep (c : Config) (f : BitVec 12) : BitVec 32 :=
  match c.waveStepTab with
  | .formula =>
    let g := if f = 0 then 4096 else f.toNat
    BitVec.ofNat 32 (c.psgClock * 4096 / (c.rate * g))
  | .table t => t.getD f.toNat 0

/-- `DUR_FN(m, base)`, already taken to s16 (42_sequencer.md R176, R177). -/
def duration (c : Config) (m : BitVec 4) (base : Byte) : S16 :=
  match c.durFn with
  | .product => BitVec.ofNat 16 (m.toNat * base.toNat)
  | .table t => t.getD (256 * m.toNat + base.toNat) 0

/-- `VIBRATO(S)` (42_sequencer.md R199). -/
def vibratoOf (c : Config) (S : Machine.Slot) : Int :=
  match c.vibrato with
  | .const v => v
  | .uninterpreted => Config.openVibrato S

/-- `CONTROL_OPS(b)` (30_encoding.md R103). -/
def controlKind (c : Config) (b : Byte) : ControlKind := (c.controlOps.lookup b).getD c.controlRest

/-- `SOUND_OFFSETS[id]`, `none` where the cue has no entry (42_sequencer.md R210). -/
def cueOffsets (c : Config) (id : BitVec 16) : Option (Vector (Option Nat) 6) := c.soundOffsets.lookup id

end Config

/-- The conditions a configuration must meet: first those of 00_scope.md R10 in its order, then
those of R9's types (log 20). -/
inductive ConfigCond where
  /-- `SPP >= 1` -/
  | spp
  /-- `1 <= NOTE_THRESHOLD <= 255` -/
  | noteThreshold
  /-- `CONTROL_OPS(0xFF) = TERMINATE` -/
  | controlOps
  /-- every `WAVE_BANK` entry in 0..31 -/
  | waveBank
  /-- every `PITCH_LUT` entry in 0..4095 -/
  | pitchLut
  /-- every `SCALE_TAB` entry in 0..31 -/
  | scaleTab
  /-- every entry of `SOUND_OFFSETS` that is not NULL an index into `EVENT_DATA` or its length -/
  | soundOffsets
  /-- every `CTRL_SEQ_OFFSET` entry an index into `CTRL_BLOCK` -/
  | ctrlSeqOffset
  /-- every segment of `ENV_DECODE` of length at least 1 -/
  | envLength
  /-- `PSG_CLOCK` positive (R9) -/
  | psgClock
  /-- `N_WAVES` positive (R9) -/
  | nWaves
  /-- a `WAVE_STEP` table has 4096 values (R9) -/
  | waveStep
  /-- a `DUR_FN` table has 16 x 256 values (R9) -/
  | durFn
  /-- `ENV_DECODE` covers `CTRL_BLOCK` and reads outside it only past its end (42_sequencer.md R195) -/
  | envItems
  deriving DecidableEq, Repr

namespace Config

/-- Every non-NULL entry is at most `len`. -/
def offsetsOk (len : Nat) (offs : Vector (Option Nat) 6) : Bool :=
  offs.toList.all fun o => match o with
    | none => true
    | some i => i ≤ len

/-- A segment has length at least 1 (00_scope.md R10). -/
def itemLengthOk : EnvItem → Bool
  | .seg _ _ _ len => 1 ≤ len
  | .outside _ => true

/-- A read outside `CTRL_BLOCK` is at or past its end (42_sequencer.md R195). -/
def itemOutsideOk (len : Nat) : EnvItem → Bool
  | .seg _ _ _ _ => true
  | .outside i => len ≤ i

/-- Each condition with whether `c` meets it, in the order they are tried. -/
def checks (c : Config) : List (ConfigCond × Bool) :=
  [(.spp, 1 ≤ c.spp),
   (.noteThreshold, 1 ≤ c.noteThreshold && c.noteThreshold ≤ 255),
   (.controlOps, c.controlKind 0xFF == .terminate),
   (.waveBank, c.waveBank.all fun b => b.toList.all fun x => x ≤ 31),
   (.pitchLut, c.pitchLut.all fun x => x ≤ 4095),
   (.scaleTab, c.scaleTab.toList.all fun x => x ≤ 31),
   (.soundOffsets, c.soundOffsets.all fun e => offsetsOk c.eventData.length e.2),
   (.ctrlSeqOffset, c.ctrlSeqOffset.all fun i => i < c.ctrlBlock.length),
   (.envLength, c.envItems.all itemLengthOk),
   (.psgClock, 1 ≤ c.psgClock),
   (.nWaves, 1 ≤ c.nWaves),
   (.waveStep, match c.waveStepTab with | .formula => true | .table t => t.length == 4096),
   (.durFn, match c.durFn with | .product => true | .table t => t.length == 4096),
   (.envItems, c.envItems.length == c.ctrlBlock.length && c.envItems.all (itemOutsideOk c.ctrlBlock.length))]

/-- The configuration is well formed (00_scope.md R10). -/
def wf (c : Config) : Bool := c.checks.all fun p => p.2

/-- The first condition `c` breaks, which `REFUSE_CONFIG` records (60_exceptions.md section 3). -/
def firstBad (c : Config) : Option ConfigCond := (c.checks.find? fun p => !p.2).map (·.1)

/-- Brings an OPEN item of `ENV_DECODE` into the shape R10 and R195 demand. -/
def fitItem (len : Nat) : EnvItem → EnvItem
  | .seg dv dp hold n => .seg dv dp hold (max 1 n)
  | .outside i => .outside (max len i)

/-- Brings the OPEN offsets of a cue into `EVENT_DATA`. -/
def fitOffsets (len : Nat) (offs : Vector (Option Nat) 6) : Vector (Option Nat) 6 :=
  offs.map fun o => o.map fun i => min i len

/-- The configuration of the machine after reset: the spec's defaults, and the OPEN parameters as
opaque constants brought into the shape of 00_scope.md R10 (log 3, log 4). -/
def installed : Config where
  psgClock := 3579545
  rate := max 60 openRate
  updateFreq := 60
  phaseOrder := .advanceThenRead
  scaleTab := scaleTabDefault
  volTable := volTableDefault
  waveStepTab := .formula
  waveBank := (openWaveBank0 :: openWaveBanks).map fun b => b.map (·.toNat)
  noteThreshold := 1 + openThreshold % 255
  controlOps := (0xFF, .terminate) :: openControlOps
  controlRest := openControlRest
  eventData := openEventData
  soundOffsets := openSoundOffsets.map fun e => (e.1, fitOffsets openEventData.length e.2)
  ctrlBlock := openCtrlBlock
  envSentinel := openSentinel
  envItems := (List.range openCtrlBlock.length).map fun p => fitItem openCtrlBlock.length (openEnvDecode p)
  ctrlSeqOffset := openCtrlSeqOffset.filter fun i => i < openCtrlBlock.length
  pitchLut := openPitchLut.map (·.toNat)
  vibrato := .uninterpreted
  durFn := .product
  volInit := 31
  durBaseInit := 1
  globalBalPush := 0xFF
  seqBalInit := 0xFF
  pcmByteOrder := openPcmByteOrder

end Config

end Sys2Proof
end

