-- ==== Sys2Proof/Syntax.lean ====
section
/-! DEFINITION. The instructions: one constructor of `Instr` for each row of spec/opcode_table.json.
Three streams carry them: the host's command words (30_encoding.md R90), the byte-code events of a
sequencer slot (R100) and the segments of an envelope program (R106). -/

namespace Sys2Proof

/-- An event of the byte code (30_encoding.md R101 to R103). A control event keeps its opcode byte `op`:
`CONTROL_OPS` is a parameter and may map several bytes to one kind, and `REFUSE_OPCODE` records the byte. -/
inductive Event where
  | note (n m : BitVec 4)
  | terminate (op : Byte)
  | setTranspose (op t : Byte)
  | setDurationBase (op d : Byte)
  | selectWaveformBank (op w : Byte)
  | envHoldOn (op : Byte)
  | envHoldOff (op : Byte)
  | unrecognized (op : Byte)
  | undescribed (op : Byte)
  deriving DecidableEq, Repr

/-- The instructions of the block. -/
inductive Instr where
  /-- `WR 0, v` (40_psg_write.md R121). -/
  | wrSel (v : Byte)
  /-- `WR 1, v` (R122). -/
  | wrGbal (v : Byte)
  /-- `WR 2, v` (R123). -/
  | wrFreqLo (v : Byte)
  /-- `WR 3, v` (R124). -/
  | wrFreqHi (v : Byte)
  /-- `WR 4, v` (R125). -/
  | wrCtrl (v : Byte)
  /-- `WR 5, v` (R126). -/
  | wrCbal (v : Byte)
  /-- `WR 6, v` (R128). -/
  | wrWdata (v : Byte)
  /-- `WR 7, v` (R127). -/
  | wrNoise (v : Byte)
  /-- `WR 8, v` (R130). -/
  | wrLfoFreq (v : Byte)
  /-- `WR 9, v` (R131). -/
  | wrLfoCtrl (v : Byte)
  /-- `WR off, v` with `off` 10 or 11 (R129). -/
  | wrRefusedAB (off : BitVec 4) (v : Byte)
  /-- `WR off, v` with `off` 12 to 15 (R129). -/
  | wrRefusedCF (off : BitVec 4) (v : Byte)
  /-- `RESET` (R120). -/
  | reset
  /-- `UPDATE n` (41_psg_render.md R150). -/
  | update (n : BitVec 20)
  /-- `TICK` (42_sequencer.md R170). -/
  | tick
  /-- `START id` (R210). -/
  | start (id : BitVec 16)
  /-- `STOP id` (R212). -/
  | stop (id : BitVec 16)
  /-- `STATUS id` (R214). -/
  | status (id : BitVec 16)
  /-- `FILL n` (43_stream_adapter.md R232). -/
  | fill (n : BitVec 20)
  /-- A command word whose `CMD` is 8 to 15 (30_encoding.md R99). -/
  | reservedCmd (w : CmdWord)
  /-- `.note n, m` (42_sequencer.md R176). -/
  | note (n m : BitVec 4)
  /-- `.op TERMINATE` (R184). -/
  | terminate (op : Byte)
  /-- `.op SET_TRANSPOSE, t` (R185). -/
  | setTranspose (op t : Byte)
  /-- `.op SET_DURATION_BASE, d` (R186). -/
  | setDurationBase (op d : Byte)
  /-- `.op SELECT_WAVEFORM_BANK, w` (R187). -/
  | selectWaveformBank (op w : Byte)
  /-- `.op ENV_HOLD_ON` (R188). -/
  | envHoldOn (op : Byte)
  /-- `.op ENV_HOLD_OFF` (R189). -/
  | envHoldOff (op : Byte)
  /-- A skipped opcode byte (R190). -/
  | unrecognized (op : Byte)
  /-- A refused opcode byte (R191). -/
  | undescribed (op : Byte)
  /-- An envelope segment `SEG(dv, dp, hold, len)` (R195). -/
  | envSeg (dv dp hold : Byte) (len : Nat)
  /-- The sentinel of an envelope program, `END` (R195). -/
  | envEnd
  deriving DecidableEq, Repr

/-- The instruction an event of the byte code is. -/
def Event.toInstr : Event → Instr
  | .note n m => .note n m
  | .terminate op => .terminate op
  | .setTranspose op t => .setTranspose op t
  | .setDurationBase op d => .setDurationBase op d
  | .selectWaveformBank op w => .selectWaveformBank op w
  | .envHoldOn op => .envHoldOn op
  | .envHoldOff op => .envHoldOff op
  | .unrecognized op => .unrecognized op
  | .undescribed op => .undescribed op

end Sys2Proof
end

