-- ==== Sys2Proof/WellFormed.lean ====
section
/-! DEFINITION. Well-formed instructions: the conditions on operands that their types do not carry. -/

namespace Sys2Proof

/-- The opcode byte `op` is a control byte of kind `k` under `c` (30_encoding.md R102, R103). The byte
0xFF is never a note (00_scope.md R10). -/
def Config.isControl (c : Config) (op : Byte) (k : ControlKind) : Bool :=
  (op == 0xFF || c.noteThreshold ≤ op.toNat) && c.controlKind op == k

/-- The byte of a note event (30_encoding.md R101). -/
def noteByte (n m : BitVec 4) : Byte := n ++ m

/-- The byte `{n, m}` is a note under `c` (30_encoding.md R101, R107). -/
def Config.isNote (c : Config) (n m : BitVec 4) : Bool :=
  noteByte n m != 0xFF && (noteByte n m).toNat < c.noteThreshold

/-- An event that some bytes of a stream encode under `c`. -/
def Event.wf (c : Config) : Event → Bool
  | .note n m => c.isNote n m
  | .terminate op => c.isControl op .terminate
  | .setTranspose op _ => c.isControl op .setTranspose
  | .setDurationBase op _ => c.isControl op .setDurationBase
  | .selectWaveformBank op _ => c.isControl op .selectWaveformBank
  | .envHoldOn op => c.isControl op .envHoldOn
  | .envHoldOff op => c.isControl op .envHoldOff
  | .unrecognized op => c.isControl op .unrecognized
  | .undescribed op => c.isControl op .undescribed

/-- An instruction that its stream can hold under the configuration `c`. -/
def Instr.wf (c : Config) : Instr → Bool
  | .wrSel _ => true
  | .wrGbal _ => true
  | .wrFreqLo _ => true
  | .wrFreqHi _ => true
  | .wrCtrl _ => true
  | .wrCbal _ => true
  | .wrWdata _ => true
  | .wrNoise _ => true
  | .wrLfoFreq _ => true
  | .wrLfoCtrl _ => true
  | .wrRefusedAB off _ => off == 10 || off == 11
  | .wrRefusedCF off _ => off == 12 || off == 13 || off == 14 || off == 15
  | .reset => true
  | .update _ => true
  | .tick => true
  | .start _ => true
  | .stop _ => true
  | .status _ => true
  | .fill _ => true
  | .reservedCmd w => w.msb
  | .note n m => c.isNote n m
  | .terminate op => c.isControl op .terminate
  | .setTranspose op _ => c.isControl op .setTranspose
  | .setDurationBase op _ => c.isControl op .setDurationBase
  | .selectWaveformBank op _ => c.isControl op .selectWaveformBank
  | .envHoldOn op => c.isControl op .envHoldOn
  | .envHoldOff op => c.isControl op .envHoldOff
  | .unrecognized op => c.isControl op .unrecognized
  | .undescribed op => c.isControl op .undescribed
  | .envSeg _ _ _ len => 1 ≤ len
  | .envEnd => true

end Sys2Proof
end

