-- ==== Sys2Proof/Decode.lean ====
section
/-! DEFINITION. Decoding of the three streams, total on any input and rejecting by name, and the
encoder, both written from 30_encoding.md and spec/opcode_table.json. -/

namespace Sys2Proof

/-- What a decoder answers: an instruction of its stream, or why there is none. -/
inductive Decoded (α : Type) where
  | ok (i : α)
  /-- reserved payload bits of a command word are not zero (30_encoding.md R99): `REFUSE_CMD` -/
  | reservedPayload (w : CmdWord)
  /-- the byte `off` bytes after the first is past the end of the stream (42_sequencer.md R174) -/
  | missingByte (off : Nat)
  deriving DecidableEq, Repr

/-- A `PSG_WRITE` by its offset (30_encoding.md R93, R129). -/
def decodePsgWrite (off : BitVec 4) (v : Byte) : Instr :=
  if off = 0 then .wrSel v
  else if off = 1 then .wrGbal v
  else if off = 2 then .wrFreqLo v
  else if off = 3 then .wrFreqHi v
  else if off = 4 then .wrCtrl v
  else if off = 5 then .wrCbal v
  else if off = 6 then .wrWdata v
  else if off = 7 then .wrNoise v
  else if off = 8 then .wrLfoFreq v
  else if off = 9 then .wrLfoCtrl v
  else if off = 10 ∨ off = 11 then .wrRefusedAB off v
  else .wrRefusedCF off v

/-- `CMD`, bits 23:20 of a command word (30_encoding.md R90). -/
def cmdField (w : CmdWord) : BitVec 4 := w.extractLsb' 20 4
/-- The payload, bits 19:0 (R90). -/
def payloadField (w : CmdWord) : BitVec 20 := w.extractLsb' 0 20
/-- `ID`, bits 15:0 (R90). -/
def idField (w : CmdWord) : BitVec 16 := w.extractLsb' 0 16
/-- `OFF`, bits 11:8 (R92). -/
def offField (w : CmdWord) : BitVec 4 := w.extractLsb' 8 4
/-- `VAL`, bits 7:0 (R92). -/
def valField (w : CmdWord) : Byte := w.extractLsb' 0 8

/-- Keeps an instruction only when the reserved payload bits are zero (30_encoding.md R99). -/
def reservedZero (w : CmdWord) (zero : Bool) (i : Instr) : Decoded Instr :=
  if zero then .ok i else .reservedPayload w

/-- A host command word (30_encoding.md R90, R91, R99). -/
def decodeCommand (w : CmdWord) : Decoded Instr :=
  let cmd := cmdField w
  if cmd = 0 then reservedZero w (w.extractLsb' 12 8 == 0) (decodePsgWrite (offField w) (valField w))
  else if cmd = 1 then reservedZero w (payloadField w == 0) .reset
  else if cmd = 2 then .ok (.update (payloadField w))
  else if cmd = 3 then reservedZero w (payloadField w == 0) .tick
  else if cmd = 4 then reservedZero w (w.extractLsb' 16 4 == 0) (.start (idField w))
  else if cmd = 5 then reservedZero w (w.extractLsb' 16 4 == 0) (.stop (idField w))
  else if cmd = 6 then reservedZero w (w.extractLsb' 16 4 == 0) (.status (idField w))
  else if cmd = 7 then .ok (.fill (payloadField w))
  else .ok (.reservedCmd w)

/-- The operand byte of a control event (42_sequencer.md R174). -/
def withOperand (rest : List Byte) (f : Byte → Event) : Decoded Event :=
  match rest with
  | [] => .missingByte 1
  | t :: _ => .ok (f t)

/-- The event at the front of a byte stream (30_encoding.md R100 to R103, 42_sequencer.md R173). The kind
decides before an operand is read (60_exceptions.md R262). The byte 0xFF is taken as a control byte
without comparing it with `NOTE_THRESHOLD`, which is at most 255 (log 15). -/
def decodeEvent (c : Config) : List Byte → Decoded Event
  | [] => .missingByte 0
  | b :: rest =>
    if b ≠ 0xFF ∧ b.toNat < c.noteThreshold then .ok (.note (b.extractLsb' 4 4) (b.extractLsb' 0 4))
    else match c.controlKind b with
      | .terminate => .ok (.terminate b)
      | .setTranspose => withOperand rest (.setTranspose b)
      | .setDurationBase => withOperand rest (.setDurationBase b)
      | .selectWaveformBank => withOperand rest (.selectWaveformBank b)
      | .envHoldOn => .ok (.envHoldOn b)
      | .envHoldOff => .ok (.envHoldOff b)
      | .unrecognized => .ok (.unrecognized b)
      | .undescribed => .ok (.undescribed b)

/-- What `ENV_DECODE(CTRL_BLOCK, p)` answers (42_sequencer.md R195). -/
inductive EnvDecoded where
  /-- `END`: the sentinel stands at `p` -/
  | stop
  /-- `SEG(dv, dp, hold, len)` -/
  | seg (dv dp hold : Byte) (len : Nat)
  /-- a read of `CTRL_BLOCK` at `i`, past its end -/
  | oob (i : Nat)
  deriving DecidableEq, Repr

/-- `ENV_DECODE(CTRL_BLOCK, p)` under `c` (30_encoding.md R106, 42_sequencer.md R195): the byte at `p` is
read first, and `END` is answered exactly when it is the sentinel. -/
def decodeEnv (c : Config) (p : Nat) : EnvDecoded :=
  match c.ctrlBlock[p]? with
  | none => .oob p
  | some b =>
    if b = c.envSentinel then .stop
    else match c.envItems[p]? with
      | some (.seg dv dp hold len) => .seg dv dp hold len
      | some (.outside i) => .oob i
      | none => .oob p

/-- The encoded form of an instruction: a command word, or the bytes of an event. -/
inductive Encoded where
  | word (w : CmdWord)
  | bytes (bs : List Byte)
  deriving DecidableEq, Repr

/-- A `PSG_WRITE` word (30_encoding.md R92): `CMD` 0, reserved 0, `OFF`, `VAL`. -/
def psgWord (off : BitVec 4) (v : Byte) : CmdWord := (0 : BitVec 12) ++ off ++ v

/-- A command word with a 20-bit payload (30_encoding.md R90). -/
def payloadWord (cmd : BitVec 4) (p : BitVec 20) : CmdWord := cmd ++ p

/-- A command word with a cue id (30_encoding.md R90): reserved bits 19:16 are 0. -/
def idWord (cmd : BitVec 4) (id : BitVec 16) : CmdWord := cmd ++ (0 : BitVec 4) ++ id

/-- The bytes of an event (30_encoding.md R101 to R105). -/
def encodeEvent : Event → List Byte
  | .note n m => [noteByte n m]
  | .terminate op => [op]
  | .setTranspose op t => [op, t]
  | .setDurationBase op d => [op, d]
  | .selectWaveformBank op w => [op, w]
  | .envHoldOn op => [op]
  | .envHoldOff op => [op]
  | .unrecognized op => [op]
  | .undescribed op => [op]

/-- The encoding of an instruction. A segment has none: the byte layout of `CTRL_BLOCK` is the OPEN
parameter `ENV_DECODE` (30_encoding.md R106, log 16). -/
def encode : Instr → Option Encoded
  | .wrSel v => some (.word (psgWord 0 v))
  | .wrGbal v => some (.word (psgWord 1 v))
  | .wrFreqLo v => some (.word (psgWord 2 v))
  | .wrFreqHi v => some (.word (psgWord 3 v))
  | .wrCtrl v => some (.word (psgWord 4 v))
  | .wrCbal v => some (.word (psgWord 5 v))
  | .wrWdata v => some (.word (psgWord 6 v))
  | .wrNoise v => some (.word (psgWord 7 v))
  | .wrLfoFreq v => some (.word (psgWord 8 v))
  | .wrLfoCtrl v => some (.word (psgWord 9 v))
  | .wrRefusedAB off v => some (.word (psgWord off v))
  | .wrRefusedCF off v => some (.word (psgWord off v))
  | .reset => some (.word (payloadWord 1 0))
  | .update n => some (.word (payloadWord 2 n))
  | .tick => some (.word (payloadWord 3 0))
  | .start id => some (.word (idWord 4 id))
  | .stop id => some (.word (idWord 5 id))
  | .status id => some (.word (idWord 6 id))
  | .fill n => some (.word (payloadWord 7 n))
  | .reservedCmd w => some (.word w)
  | .note n m => some (.bytes (encodeEvent (.note n m)))
  | .terminate op => some (.bytes (encodeEvent (.terminate op)))
  | .setTranspose op t => some (.bytes (encodeEvent (.setTranspose op t)))
  | .setDurationBase op d => some (.bytes (encodeEvent (.setDurationBase op d)))
  | .selectWaveformBank op w => some (.bytes (encodeEvent (.selectWaveformBank op w)))
  | .envHoldOn op => some (.bytes (encodeEvent (.envHoldOn op)))
  | .envHoldOff op => some (.bytes (encodeEvent (.envHoldOff op)))
  | .unrecognized op => some (.bytes (encodeEvent (.unrecognized op)))
  | .undescribed op => some (.bytes (encodeEvent (.undescribed op)))
  | .envSeg _ _ _ _ => none
  | .envEnd => none

/-- The instruction an encoded form stands for under `c`. -/
def decode (c : Config) : Encoded → Option Instr
  | .word w =>
    match decodeCommand w with
    | .ok i => some i
    | .reservedPayload _ => none
    | .missingByte _ => none
  | .bytes bs =>
    match decodeEvent c bs with
    | .ok e => some e.toInstr
    | .reservedPayload _ => none
    | .missingByte _ => none

/-- The two stream bytes of a table word: byte 0 in bits 7:0, byte 1 in bits 15:8. -/
def tableBytes (w : Nat) : List Byte := [BitVec.ofNat 8 w, BitVec.ofNat 8 (w / 256)]

/-- The instruction the decoder reads from a word numbered as spec/opcode_table.json numbers it. A row of 24
bits is a command word. A row of 8 or 16 bits is an event of a stream, read under the
configuration the machine has after reset. -/
def decodeTableWord (nbits w : Nat) : Option Instr :=
  if nbits = 24 then decode Config.installed (.word (BitVec.ofNat 24 w))
  else if nbits = 8 ∨ nbits = 16 then decode Config.installed (.bytes (tableBytes w))
  else none

end Sys2Proof
end

