-- ==== Sys2Proof/Machine/PowerOn.lean ====
section
/-! DEFINITION. The power-on values of the records (10_state.md R20 to R42, R50; 40_psg_write.md R120). -/

namespace Sys2Proof.Machine

/-- A PSG channel after `PsgReset` (40_psg_write.md R120): every field zero. -/
def Channel.powerOn : Channel where
  freq := 0
  ctrl := 0
  bal := 0
  wave := Vector.replicate 32 0
  index := 0
  dda := 0
  counter := 0

/-- The PSG core after `PsgReset` (40_psg_write.md R120). -/
def Psg.powerOn : Psg where
  sel := 0
  gbal := 0
  ch := Vector.replicate 8 Channel.powerOn

/-- The power-on slot record (10_state.md R36 to R42). -/
def Slot.powerOn : Slot where
  active := false
  countdown := 0
  durBase := 0
  transpose := 0
  basePitch := 0
  pitchBend := 0
  volume := 0
  envPos := none
  envHold := 0
  envDv := 0
  envDp := 0
  envHoldFlag := false
  envSel := 0
  cursor := none
  waveBank := 0
  uploadPending := false
  bal := 0
  freq := 0

end Sys2Proof.Machine
end

