-- ==== Sys2Proof/Machine/State.lean ====
section
/-! DEFINITION. The state of the block (10_state.md), its outcome marks, the reasons a step stops, and the
machine right after reset. -/

namespace Sys2Proof.Machine

/-- A fault record: the fault and its recorded info (60_exceptions.md section 2). -/
inductive FaultRecord where
  /-- `FAULT_STREAM_OOB`, code 0x01: slot, index (R253) -/
  | streamOob (slot : AudioSlot) (i : Nat)
  /-- `FAULT_ENV_OOB`, code 0x02: slot, index (R254) -/
  | envOob (slot : AudioSlot) (i : Nat)
  /-- `FAULT_PITCH_RANGE`, code 0x03: slot, sum (R255) -/
  | pitchRange (slot : AudioSlot) (p : Int)
  /-- `FAULT_WAVE_BANK`, code 0x04: slot, bank (R256) -/
  | waveBank (slot : AudioSlot) (w : Byte)
  /-- `FAULT_CUE_ID`, code 0x05: id (R257) -/
  | cueId (id : BitVec 16)
  deriving DecidableEq, Repr

/-- A refusal record: the refusal and its recorded info (60_exceptions.md section 3). -/
inductive RefusalRecord where
  /-- `REFUSE_CONFIG`, code 0x10: the first condition that fails (R258) -/
  | config (cond : ConfigCond)
  /-- `REFUSE_CMD`, code 0x11: the command word (R259) -/
  | cmd (w : CmdWord)
  /-- `REFUSE_OFFSET`, code 0x12: `OFF`, `VAL` (R260) -/
  | offset (off : BitVec 4) (v : Byte)
  /-- `REFUSE_OPCODE`, code 0x13: slot, the byte (R261) -/
  | opcode (slot : AudioSlot) (b : Byte)
  deriving DecidableEq, Repr

/-- Why a step has no next state. -/
inductive Fault where
  /-- The block is faulted: an earlier command raised `r` and every later one finds the block stuck
  (60_exceptions.md R251). Raised by every command and step on a state with the fault mark. Safe. -/
  | raised (r : FaultRecord)
  /-- A command found the lock held. Commands release it, so only a state no run reaches has it held
  (20_memory.md R75, R76; 93_implementation_defined.md A16 treats the access as stuck). Safe (log 9). -/
  | lockHeld
  deriving DecidableEq, Repr

/-- Why a step gives no meaning. -/
inductive Refusal where
  /-- An instruction whose meaning is not written yet; only exec's arms answer it. Safe. -/
  | notModelled (mnemonic : String)
  /-- The block is refused: an earlier command or the construction was refused with `r` and the block is
  stuck (60_exceptions.md R252). Raised by every command and step on a state with that mark. Safe. -/
  | raised (r : RefusalRecord)
  deriving DecidableEq, Repr

/-- `lock` (10_state.md R47). -/
inductive Lock where
  | free
  | held
  deriving DecidableEq, Repr

/-- Which stream the next step reads: the MODEL's own field (log 10). -/
inductive Proc where
  /-- the host's command words -/
  | commands
  /-- the FetchLoop of slot `cur` (42_sequencer.md R173) -/
  | events
  /-- the segment loop of slot `cur` (42_sequencer.md R195) -/
  | envelope
  deriving DecidableEq, Repr

/-- What a command returned (30_encoding.md R90, column "returns"): the MODEL's own field (log 11). -/
inductive CmdResult where
  | nothing
  /-- the bit of `STATUS` -/
  | bit (b : Bool)
  /-- the frames of `UPDATE` or `FILL` -/
  | frames (fs : List Frame)
  deriving DecidableEq, Repr

/-- The state of the block. -/
structure State where
  /-- the configuration: read-only, no instruction writes it (20_memory.md R61, R77; log 2) -/
  cfg : Config
  /-- the PSG core (10_state.md R20 to R30) -/
  psg : Psg
  /-- the sequencer slots: 0 to 5 audio, 6 to 11 shadow (R35, R43) -/
  slot : Vector Slot 12
  /-- the id of the last `startSound`, or NONE (R44) -/
  lastCue : Option (BitVec 16)
  /-- the staging buffer, oldest frame first (R46) -/
  stg : List Frame
  /-- the lock (R47) -/
  lock : Lock
  /-- the fault mark (R48) -/
  fault : Option FaultRecord
  /-- the refused mark with the recorded refusal; the flag of R48 is set when there is one -/
  refused : Option RefusalRecord
  /-- command words waiting at the host interface: the MODEL's own field (log 1) -/
  cmds : List CmdWord
  /-- which stream the next step reads: the MODEL's own field (log 10) -/
  proc : Proc
  /-- the slot `S` being processed (42_sequencer.md): the MODEL's own field (log 10) -/
  cur : AudioSlot
  /-- what the last command returned: the MODEL's own field (log 11) -/
  result : CmdResult
  deriving DecidableEq, Repr

/-- Every state element at its power-on value, under the configuration `c` (70_reset_and_hazards.md R280,
10_state.md R50), with no mark set. -/
def State.blank (c : Config) : State where
  cfg := c
  psg := Psg.powerOn
  slot := Vector.replicate 12 Slot.powerOn
  lastCue := none
  stg := []
  lock := .free
  fault := none
  refused := none
  cmds := []
  proc := .commands
  cur := 0
  result := .nothing

/-- The machine right after reset: power-on under the installed configuration, which is well formed, so
that construction does not refuse it (70_reset_and_hazards.md R280; log 3). -/
def State.reset : State := State.blank Config.installed

end Sys2Proof.Machine
end

