-- ==== Sys2Proof/Machine/Operands.lean ====
section
/-! DEFINITION. Operand forms and the arithmetic of 00_scope.md R11, R12: nibbles, sample bits, sign
extension, wrap16, clamp, the frequency bytes, and the numeric codes of marks. -/

namespace Sys2Proof.Machine

/-- `wrap16(v)`: the s16 congruent to `v` modulo 2^16 (00_scope.md R12). -/
def wrap16 (v : Int) : S16 := BitVec.ofInt 16 v

/-- `sext_8(v)` (00_scope.md R12). -/
def sext8 (v : Byte) : Int := v.toInt

/-- `clamp(v, lo, hi)` (00_scope.md R11). -/
def clamp (v lo hi : Int) : Int := min hi (max lo v)

/-- The left nibble of a balance byte, bits 7:4 (30_encoding.md R95). -/
def leftNibble (v : Byte) : BitVec 4 := v.extractLsb' 4 4

/-- The right nibble of a balance byte, bits 3:0 (30_encoding.md R95). -/
def rightNibble (v : Byte) : BitVec 4 := v.extractLsb' 0 4

/-- The sample bits of an offset-6 value, `VAL[4:0]` (30_encoding.md R96). -/
def sampleBits (v : Byte) : Sample := v.extractLsb' 0 5

/-- The channel number of an offset-0 value, `v[2:0]` (40_psg_write.md R121). -/
def selBits (v : Byte) : BitVec 3 := v.extractLsb' 0 3

/-- `{freq[11:8], v}` (40_psg_write.md R123). -/
def setFreqLo (freq : BitVec 12) (v : Byte) : BitVec 12 := freq.extractLsb' 8 4 ++ v

/-- `{v[3:0], freq[7:0]}` (40_psg_write.md R124). -/
def setFreqHi (freq : BitVec 12) (v : Byte) : BitVec 12 := v.extractLsb' 0 4 ++ freq.extractLsb' 0 8

/-- `freq[7:0]`, the byte the push writes to offset 2 (42_sequencer.md R200). -/
def freqLoByte (freq : BitVec 12) : Byte := freq.extractLsb' 0 8

/-- `freq[11:8]`, the byte the push writes to offset 3 (42_sequencer.md R200). -/
def freqHiByte (freq : BitVec 12) : Byte := (freq.extractLsb' 8 4).setWidth 8

/-- `0x80 | volume`, the control byte of a playing slot (42_sequencer.md R200). -/
def playCtrl (volume : BitVec 5) : Byte := 0x80 ||| volume.setWidth 8

/-- The waveform read offset, `counter[16:12]` (10_state.md R29, 41_psg_render.md R152). -/
def readOffset (counter : BitVec 17) : BitVec 5 := counter.extractLsb' 12 5

/-- The numeric code of a fault (60_exceptions.md section 2). -/
def FaultRecord.code : FaultRecord → Nat
  | .streamOob _ _ => 0x01
  | .envOob _ _ => 0x02
  | .pitchRange _ _ => 0x03
  | .waveBank _ _ => 0x04
  | .cueId _ => 0x05

/-- The numeric code of a refusal (60_exceptions.md section 3). -/
def RefusalRecord.code : RefusalRecord → Nat
  | .config _ => 0x10
  | .cmd _ => 0x11
  | .offset _ _ => 0x12
  | .opcode _ _ => 0x13

/-- A 16-bit word as two bytes in the order `PCM_BYTE_ORDER` (00_scope.md R14). -/
def wordBytes (o : ByteOrder) (w : S16) : List Byte :=
  match o with
  | .little => [w.extractLsb' 0 8, w.extractLsb' 8 8]
  | .big => [w.extractLsb' 8 8, w.extractLsb' 0 8]

/-- Frames as interleaved 16-bit words, left first: frame `i` is words `2i` and `2i+1` (00_scope.md R14). -/
def pcmWords (fs : List Frame) : List S16 := fs.flatMap fun f => [f.l, f.r]

/-- Frames as bytes. No rule of the spec serialises a frame; this is for a reader who does (20_memory.md R67). -/
def pcmBytes (o : ByteOrder) (fs : List Frame) : List Byte := (pcmWords fs).flatMap (wordBytes o)

end Sys2Proof.Machine
end

