-- ==== Sys2Proof/Machine/Flags.lean ====
section
/-! DEFINITION. The flag bits of the block (10_state.md R24, R30, R49): `EN`, `DDA`, the level `AL`, the mode
of a channel, and the transition of `DDA` that clears the write index. The block has no condition codes. -/

namespace Sys2Proof.Machine

/-- `EN`, bit 7 of a control byte (10_state.md R24). -/
def ctrlEn (ctrl : Byte) : Bool := ctrl.getLsbD 7

/-- `DDA`, bit 6 of a control byte (10_state.md R24). -/
def ctrlDda (ctrl : Byte) : Bool := ctrl.getLsbD 6

/-- `AL`, bits 4:0 of a control byte (10_state.md R24). -/
def ctrlAl (ctrl : Byte) : BitVec 5 := ctrl.extractLsb' 0 5

/-- The mode of a channel, `ctrl[7:6]` written `EN DDA` (10_state.md R30). -/
inductive Mode where
  /-- `00` -/
  | disabled
  /-- `01` -/
  | held
  /-- `10` -/
  | waveform
  /-- `11` -/
  | dda
  deriving DecidableEq, Repr

/-- The mode a control byte gives (10_state.md R30). -/
def ctrlMode (ctrl : Byte) : Mode :=
  match ctrlEn ctrl, ctrlDda ctrl with
  | false, false => .disabled
  | false, true => .held
  | true, false => .waveform
  | true, true => .dda

/-- A write of `v` over `old` takes `DDA` from 1 to 0 (40_psg_write.md R125). -/
def ddaFalls (old v : Byte) : Bool := ctrlDda old && !ctrlDda v

end Sys2Proof.Machine
end

