-- ==== Sys2Proof/Machine/Ops.lean ====
section
/-! DEFINITION. The shared operations: raising a fault and refusing (60_exceptions.md R251, R252), the frame
every command runs in (20_memory.md R72), access to the slot being processed, the PSG register
writes (40_psg_write.md), and fetching from the three streams. -/

namespace Sys2Proof.Machine

/-- The outcome of one instruction. -/
abbrev Outcome := Host.Outcome State Fault Refusal

/-- The block is stuck: a mark is set (60_exceptions.md R251, R252). -/
def State.stopped (s : State) : Bool := s.fault.isSome || s.refused.isSome

/-- What a stuck block answers to every command and step (60_exceptions.md R251, R252); none when it runs. -/
def State.stuckOutcome (s : State) : Option Outcome :=
  match s.fault with
  | some f => some (.fault (.raised f))
  | none =>
    match s.refused with
    | some r => some (.refused (.raised r))
    | none => none

/-- `raise F(info)`: the fault mark is set and every earlier effect stays (60_exceptions.md R251). The
command's remaining steps are skipped by `State.andThen`. -/
def raise (f : FaultRecord) (s : State) : State := { s with fault := some f }

/-- `refuse R(info)`: the refused mark is set and recorded (60_exceptions.md R252). -/
def refuse (r : RefusalRecord) (s : State) : State := { s with refused := some r }

/-- The next step of a command, not run when an earlier one raised or refused (60_exceptions.md R251). -/
def State.andThen (s : State) (f : State → State) : State := if s.stopped then s else f s

/-- The state the block is constructed in (70_reset_and_hazards.md R280): power-on under `c`, refused with
`REFUSE_CONFIG` when `c` is not well formed (60_exceptions.md R258). -/
def State.powerOn (c : Config) : State :=
  { State.blank c with refused := c.firstBad.map RefusalRecord.config }

/-- A command starts: it takes the lock (20_memory.md R72) and has returned nothing yet. -/
def beginCommand (s : State) : State := { s with lock := .held, result := .nothing }

/-- A command ends: it releases the lock (20_memory.md R72), is in no stream loop, and returns no result
when it raised or refused (60_exceptions.md R251). -/
def endCommand (s : State) : State :=
  { s with lock := .free, proc := .commands, result := if s.stopped then .nothing else s.result }

/-- One host command, one atomic step under the lock (20_memory.md R72). On a stuck block it has no effect
(60_exceptions.md R251); where the lock is held it does not run (log 9). -/
def command (body : State → State) (s : State) : Outcome :=
  match s.stuckOutcome with
  | some o => o
  | none =>
    match s.lock with
    | .held => .fault .lockHeld
    | .free => .next (endCommand (body (beginCommand s)))

/-- One instruction of a slot's streams: an event or a segment (42_sequencer.md R173, R195). It runs inside
a command that holds the lock, so it takes none (log 10). -/
def streamInstr (body : State → State) (s : State) : Outcome :=
  match s.stuckOutcome with
  | some o => o
  | none => .next (body s)

/-- The index of an audio slot among the 12 slot records (10_state.md R35). -/
def slotIndex (k : AudioSlot) : Fin 12 := ⟨k.val, by omega⟩

/-- The slot `S` being processed (42_sequencer.md). -/
def State.slotNow (s : State) : Slot := s.slot[slotIndex s.cur]

/-- Changes the slot being processed. -/
def State.modSlot (f : Slot → Slot) (s : State) : State :=
  { s with slot := s.slot.set (slotIndex s.cur) (f s.slotNow) }

/-- The loop of the slot being processed returns (42_sequencer.md R173, R195). -/
def leaveLoop (s : State) : State := { s with proc := .commands }

/-- The audio slots in the ascending order of 42_sequencer.md R170. -/
def audioSlots : List AudioSlot := [0, 1, 2, 3, 4, 5]

/-- The channel that channel-register writes address, `ch[sel]` (40_psg_write.md R132). -/
def Psg.selected (p : Psg) : Channel := p.ch[p.sel.toNat]

/-- Changes the selected channel. -/
def Psg.modSelected (f : Channel → Channel) (p : Psg) : Psg :=
  { p with ch := p.ch.set p.sel.toNat (f p.selected) }

/-- Offset 0, `SEL` (40_psg_write.md R121). -/
def Psg.writeSel (v : Byte) (p : Psg) : Psg := { p with sel := selBits v }

/-- Offset 1, `GBAL` (R122). -/
def Psg.writeGbal (v : Byte) (p : Psg) : Psg := { p with gbal := v }

/-- Offset 2, `FREQ_LO` (R123). -/
def Psg.writeFreqLo (v : Byte) (p : Psg) : Psg := p.modSelected fun C => { C with freq := setFreqLo C.freq v }

/-- Offset 3, `FREQ_HI` (R124). -/
def Psg.writeFreqHi (v : Byte) (p : Psg) : Psg := p.modSelected fun C => { C with freq := setFreqHi C.freq v }

/-- A control write on a channel: the 1-to-0 change of `DDA` clears `index` (R125). -/
def Channel.writeCtrl (v : Byte) (C : Channel) : Channel :=
  { C with index := if ddaFalls C.ctrl v then 0 else C.index, ctrl := v }

/-- Offset 4, `CTRL` (R125). -/
def Psg.writeCtrl (v : Byte) (p : Psg) : Psg := p.modSelected (Channel.writeCtrl v)

/-- Offset 5, `CBAL` (R126). -/
def Psg.writeCbal (v : Byte) (p : Psg) : Psg := p.modSelected fun C => { C with bal := v }

/-- A waveform or DDA write on a channel, by its mode (R128). -/
def Channel.writeData (v : Byte) (C : Channel) : Channel :=
  match ctrlMode C.ctrl with
  | .disabled | .waveform => { C with wave := C.wave.set C.index.toNat (sampleBits v), index := C.index + 1 }
  | .dda => { C with dda := sampleBits v }
  | .held => C

/-- Offset 6, `WDATA` (R128). -/
def Psg.writeWdata (v : Byte) (p : Psg) : Psg := p.modSelected (Channel.writeData v)

/-- Offsets 7, 8 and 9 are accepted with no effect (R127, R130, R131). -/
def Psg.writeIgnored (_v : Byte) (p : Psg) : Psg := p

/-- `PsgWrite(off, val)` (00_scope.md R13, 30_encoding.md R93). Offsets 10 to 15 change no PSG state (R129). -/
def Psg.write (off : BitVec 4) (v : Byte) (p : Psg) : Psg :=
  if off = 0 then p.writeSel v
  else if off = 1 then p.writeGbal v
  else if off = 2 then p.writeFreqLo v
  else if off = 3 then p.writeFreqHi v
  else if off = 4 then p.writeCtrl v
  else if off = 5 then p.writeCbal v
  else if off = 6 then p.writeWdata v
  else p.writeIgnored v

/-- A sequence of `PsgWrite`s, in order. -/
def Psg.writes (ws : List (BitVec 4 × Byte)) (p : Psg) : Psg := ws.foldl (fun p w => p.write w.1 w.2) p

/-- Changes the PSG core. -/
def State.modPsg (f : Psg → Psg) (s : State) : State := { s with psg := f s.psg }

/-- What a slot's stream gives: an event, or the fault its fetch raises. -/
inductive Fetched where
  | event (e : Event)
  | raises (f : FaultRecord)
  deriving DecidableEq, Repr

/-- `Fetch(S)` and `Operand(S)` (42_sequencer.md R174): the event at the cursor. A NULL cursor reads as the
byte 0xFF; a byte past the end of `EVENT_DATA` faults with its index (60_exceptions.md R253). -/
def State.fetchEvent (s : State) : Fetched :=
  let base := s.slotNow.cursor.getD 0
  let bytes := match s.slotNow.cursor with
    | none => [0xFF]
    | some c => s.cfg.eventData.drop c
  match decodeEvent s.cfg bytes with
  | .ok e => .event e
  | .missingByte off => .raises (.streamOob s.cur (base + off))
  | .reservedPayload _ => .raises (.streamOob s.cur base)

/-- Writes bytes over a list from index `c` on; a gap below `c` is filled with zero bytes. -/
def overwrite (l : List Byte) (c : Nat) (bs : List Byte) : List Byte :=
  match c with
  | 0 => bs ++ l.drop bs.length
  | c + 1 => l.headD 0 :: overwrite l.tail c bs

/-- Puts a command word where the next step fetches a command: at the head of the queue. -/
def State.placeCommand (w : CmdWord) (s : State) : State :=
  { s with cmds := w :: s.cmds.drop 1, proc := .commands }

/-- Puts bytes where the next step fetches an event: in `EVENT_DATA` at the cursor of the slot being
processed (at 0 when it is NULL), with that slot in its FetchLoop (log 19). -/
def State.placeEvent (bs : List Byte) (s : State) : State :=
  let c := s.slotNow.cursor.getD 0
  let s := s.modSlot fun S => { S with cursor := some c }
  { s with cfg := { s.cfg with eventData := overwrite s.cfg.eventData c bs }, proc := .events }

end Sys2Proof.Machine
end

