-- ==== Sys2Proof/Machine/Render.lean ====
section
/-! DEFINITION. Rendering and mixing (41_psg_render.md): the attenuation pipeline, the two channel modes, the
16-bit mix, and `UPDATE`. -/

namespace Sys2Proof.Machine

/-- `ATT_N(x) = 31 - SCALE_TAB[x]` (41_psg_render.md R141). -/
def attNibble (c : Config) (x : BitVec 4) : Nat := 31 - c.scaleTab[x.toNat]

/-- The attenuation of one side: channel nibble, level and global nibble, summed and clamped to 31 (R141). -/
def attenuation (c : Config) (chNib : BitVec 4) (al : BitVec 5) (gNib : BitVec 4) : Nat :=
  min 31 (attNibble c chNib + (31 - al.toNat) + attNibble c gNib)

/-- `VOL_TABLE[att]` of a side, an s16 used as an integer multiplier (R143). -/
def gain (c : Config) (chNib : BitVec 4) (al : BitVec 5) (gNib : BitVec 4) : Int :=
  (c.volTable[attenuation c chNib al gNib]'(by simp only [attenuation]; omega)).toInt

/-- The left gain of a channel (R141, R143). -/
def gainL (c : Config) (gbal : Byte) (C : Channel) : Int :=
  gain c (leftNibble C.bal) (ctrlAl C.ctrl) (leftNibble gbal)

/-- The right gain of a channel (R141, R143). -/
def gainR (c : Config) (gbal : Byte) (C : Channel) : Int :=
  gain c (rightNibble C.bal) (ctrlAl C.ctrl) (rightNibble gbal)

/-- A channel's contribution to one side: `wrap16(g * (s - 16))` (R148). -/
def contribution (g : Int) (s : Sample) : S16 := wrap16 (g * ((s.toNat : Int) - 16))

/-- `wrap16(out + contrib)` on one side (R149). -/
def mixSide (out contrib : S16) : S16 := wrap16 (out.toInt + contrib.toInt)

/-- Adds the sample `s` at gains `gL`, `gR` to a frame (R148, R149). -/
def Frame.mix (gL gR : Int) (s : Sample) (f : Frame) : Frame :=
  { l := mixSide f.l (contribution gL s), r := mixSide f.r (contribution gR s) }

/-- The frame `(0, 0)`. -/
def Frame.silent : Frame := { l := 0, r := 0 }

/-- `RenderDDA`: the constant DDA sample is added to every frame (R151). -/
def renderDda (gL gR : Int) (C : Channel) (out : List Frame) : List Frame := out.map (Frame.mix gL gR C.dda)

/-- `(counter + step) mod 2^17` (R152). -/
def advanceCounter (counter : BitVec 17) (step : BitVec 32) : BitVec 17 :=
  BitVec.ofNat 17 (counter.toNat + step.toNat)

/-- The counter whose top bits select the sample of a frame: the advanced one or the one before, by
`PHASE_ORDER` (R152). -/
def readCounter (o : PhaseOrder) (before after : BitVec 17) : BitVec 17 :=
  match o with
  | .advanceThenRead => after
  | .readThenAdvance => before

/-- `RenderWave`: per frame, one step of the phase accumulator and the entry it selects (R152). -/
def renderWave (o : PhaseOrder) (step : BitVec 32) (gL gR : Int) (C : Channel) : List Frame → Channel × List Frame
  | [] => (C, [])
  | f :: fs =>
    let after := advanceCounter C.counter step
    let off := readOffset (readCounter o C.counter after)
    let rest := renderWave o step gL gR { C with counter := after } fs
    (rest.1, f.mix gL gR C.wave[off.toNat] :: rest.2)

/-- One channel's part of a render: nothing when disabled, else by its mode; the gains, the mode and the step
are read once (R150, R152). -/
def renderChannel (c : Config) (gbal : Byte) (C : Channel) (out : List Frame) : Channel × List Frame :=
  if ctrlEn C.ctrl then
    if ctrlDda C.ctrl then (C, renderDda (gainL c gbal C) (gainR c gbal C) C out)
    else renderWave c.phaseOrder (c.waveStep C.freq) (gainL c gbal C) (gainR c gbal C) C out
  else (C, out)

/-- The rendered channels, 0 to 5 (R150). -/
def renderedChannels : List (Fin 8) := [0, 1, 2, 3, 4, 5]

/-- Adds channel `k` to the frames rendered so far, keeping the counter it ends with. -/
def renderInto (c : Config) (acc : Psg × List Frame) (k : Fin 8) : Psg × List Frame :=
  let r := renderChannel c acc.1.gbal acc.1.ch[k] acc.2
  ({ acc.1 with ch := acc.1.ch.set k r.1 }, r.2)

/-- `PsgUpdate(n)`: `n` frames, zeroed once, with each rendered channel mixed in once (R150). -/
def Psg.update (c : Config) (n : Nat) (p : Psg) : Psg × List Frame :=
  renderedChannels.foldl (renderInto c) (p, List.replicate n Frame.silent)

/-- The effect of `UPDATE n` (R150). -/
def updateBody (n : Nat) (s : State) : State :=
  let r := s.psg.update s.cfg n
  { s with psg := r.1, result := .frames r.2 }

/-- `UPDATE n` (41_psg_render.md R150). -/
def execUpdate (n : BitVec 20) (s : State) : Outcome := command (updateBody n.toNat) s

end Sys2Proof.Machine
end

