-- ==== Sys2Proof/Machine/Envelope.lean ====
section
/-! DEFINITION. The envelope step and its segments (42_sequencer.md R195), on the slot `S` being processed. -/

namespace Sys2Proof.Machine

/-- One application of the current segment: volume clamped to 0..31, the pitch delta accumulated, one hold
used up (42_sequencer.md R195). -/
def Slot.applySegment (S : Slot) : Slot :=
  { S with
    volume := BitVec.ofInt 5 (clamp ((S.volume.toNat : Int) + sext8 S.envDv) 0 31)
    pitchBend := S.pitchBend + sext8 S.envDp
    envHold := S.envHold - 1 }

/-- A segment is loaded: its deltas and hold count, and the position moves past it (R195). -/
def Slot.loadSegment (dv dp hold : Byte) (len : Nat) (S : Slot) : Slot :=
  { S with envDv := dv, envDp := dp, envHold := hold, envPos := S.envPos.map (· + len) }

/-- `SEG(dv, dp, hold, len)`: an empty segment is passed over, another is applied once and the loop
returns (R195). -/
def envSegBody (dv dp hold : Byte) (len : Nat) (s : State) : State :=
  let s := s.modSlot (Slot.loadSegment dv dp hold len)
  if hold = 0 then s else leaveLoop (s.modSlot Slot.applySegment)

/-- `END`: the envelope has ended, volume and pitch bend stay (R195). -/
def envEndBody (s : State) : State := leaveLoop (s.modSlot fun S => { S with envPos := none })

/-- One turn of the segment loop: the segment at `envPos` is decoded and run; a read past `CTRL_BLOCK` faults
(R195, 60_exceptions.md R254). -/
def envTurn (s : State) : State :=
  match s.slotNow.envPos with
  | none => leaveLoop s
  | some p =>
    match decodeEnv s.cfg p with
    | .stop => envEndBody s
    | .seg dv dp hold len => envSegBody dv dp hold len s
    | .oob i => raise (.envOob s.cur i) s

/-- The segment loop of `EnvStep` (R195), at most `fuel` turns. -/
def envLoop : Nat → State → State
  | 0, s => s
  | fuel + 1, s =>
    let s' := envTurn s
    if s'.stopped || s'.proc != .envelope then s' else envLoop fuel s'

/-- `EnvStep(S)` (R195): nothing when the envelope has ended or is frozen; a new segment when the hold count
has run out; else one application. The loop ends within `|CTRL_BLOCK| + 1` turns (log 12). -/
def envStep (s : State) : State :=
  if s.slotNow.envPos = none ∨ s.slotNow.envHoldFlag = true then s
  else if s.slotNow.envHold = 0 then envLoop (s.cfg.ctrlBlock.length + 1) { s with proc := .envelope }
  else s.modSlot Slot.applySegment

/-- An envelope segment (R195). -/
def execEnvSeg (dv dp hold : Byte) (len : Nat) (s : State) : Outcome := streamInstr (envSegBody dv dp hold len) s

/-- The sentinel of an envelope program (R195). -/
def execEnvEnd (s : State) : Outcome := streamInstr envEndBody s

end Sys2Proof.Machine
end

