-- ==== Sys2Proof/Machine/Events.lean ====
section
/-! DEFINITION. The events of the byte code (42_sequencer.md R176 to R191), each on the slot `S` being
processed, and the instructions they are. -/

namespace Sys2Proof.Machine

/-- `S.cursor <- S.cursor + n`; NULL has no successor and stays NULL (42_sequencer.md R178). -/
def Slot.advance (n : Nat) (S : Slot) : Slot := { S with cursor := S.cursor.map (· + n) }

/-- `NoteEvent` (R176). The countdown and the pitch are written before `CTRL_SEQ_OFFSET` is read, so they stay
when that read faults (60_exceptions.md R251, R254; log 22). A note ends the FetchLoop (R173). -/
def noteBody (n m : BitVec 4) (s : State) : State :=
  let s := s.modSlot fun S => { S with countdown := s.cfg.duration m S.durBase, basePitch := n }
  match s.cfg.ctrlSeqOffset[s.slotNow.envSel]? with
  | none => raise (.envOob s.cur s.slotNow.envSel) s
  | some pos =>
    leaveLoop (s.modSlot fun S =>
      Slot.advance 1 { S with envPos := some pos, envHold := 0, volume := s.cfg.volInit, pitchBend := 0 })

/-- `TERMINATE`: the slot ends, its cursor stays, and the FetchLoop returns (R184, R173). -/
def terminateBody (s : State) : State := leaveLoop (s.modSlot fun S => { S with active := false })

/-- `SET_TRANSPOSE` (R185). The field holds the byte; it is read as `sext_8` where it is summed (R198). -/
def setTransposeBody (t : Byte) (s : State) : State :=
  s.modSlot fun S => Slot.advance 2 { S with transpose := t }

/-- `SET_DURATION_BASE` (R186). -/
def setDurationBaseBody (d : Byte) (s : State) : State :=
  s.modSlot fun S => Slot.advance 2 { S with durBase := d }

/-- `SELECT_WAVEFORM_BANK` (R187): a bank at or above `N_WAVES` faults before anything changes. -/
def selectWaveformBankBody (w : Byte) (s : State) : State :=
  if s.cfg.nWaves ≤ w.toNat then raise (.waveBank s.cur w) s
  else s.modSlot fun S => Slot.advance 2 { S with waveBank := w.toNat, uploadPending := true }

/-- `ENV_HOLD_ON` (R188). -/
def envHoldOnBody (s : State) : State := s.modSlot fun S => Slot.advance 1 { S with envHoldFlag := true }

/-- `ENV_HOLD_OFF` (R189). -/
def envHoldOffBody (s : State) : State := s.modSlot fun S => Slot.advance 1 { S with envHoldFlag := false }

/-- `UNRECOGNIZED`: one byte is skipped (R190). -/
def unrecognizedBody (s : State) : State := s.modSlot (Slot.advance 1)

/-- `UNDESCRIBED`: the mark `REFUSE_OPCODE` with the slot and the byte (R191, 60_exceptions.md R261). -/
def undescribedBody (op : Byte) (s : State) : State := refuse (.opcode s.cur op) s

/-- The effect of an event on the slot being processed (R173). -/
def runEvent : Event → State → State
  | .note n m => noteBody n m
  | .terminate _ => terminateBody
  | .setTranspose _ t => setTransposeBody t
  | .setDurationBase _ d => setDurationBaseBody d
  | .selectWaveformBank _ w => selectWaveformBankBody w
  | .envHoldOn _ => envHoldOnBody
  | .envHoldOff _ => envHoldOffBody
  | .unrecognized _ => unrecognizedBody
  | .undescribed op => undescribedBody op

/-- `.note n, m` (R176). -/
def execNote (n m : BitVec 4) (s : State) : Outcome := streamInstr (noteBody n m) s

/-- `.op TERMINATE` (R184). -/
def execTerminate (s : State) : Outcome := streamInstr terminateBody s

/-- `.op SET_TRANSPOSE, t` (R185). -/
def execSetTranspose (t : Byte) (s : State) : Outcome := streamInstr (setTransposeBody t) s

/-- `.op SET_DURATION_BASE, d` (R186). -/
def execSetDurationBase (d : Byte) (s : State) : Outcome := streamInstr (setDurationBaseBody d) s

/-- `.op SELECT_WAVEFORM_BANK, w` (R187). -/
def execSelectWaveformBank (w : Byte) (s : State) : Outcome := streamInstr (selectWaveformBankBody w) s

/-- `.op ENV_HOLD_ON` (R188). -/
def execEnvHoldOn (s : State) : Outcome := streamInstr envHoldOnBody s

/-- `.op ENV_HOLD_OFF` (R189). -/
def execEnvHoldOff (s : State) : Outcome := streamInstr envHoldOffBody s

/-- A skipped opcode byte (R190). -/
def execUnrecognized (s : State) : Outcome := streamInstr unrecognizedBody s

/-- A refused opcode byte (R191). -/
def execUndescribed (op : Byte) (s : State) : Outcome := streamInstr (undescribedBody op) s

end Sys2Proof.Machine
end

