-- ==== Sys2Proof/Machine/Sequencer.lean ====
section
/-! DEFINITION. The tick (42_sequencer.md R170 to R203): the note, envelope and pitch steps of every audio
slot, then the push. -/

namespace Sys2Proof.Machine

/-- One turn of the FetchLoop: the event at the cursor is fetched and run (42_sequencer.md R173, R174). -/
def eventTurn (s : State) : State :=
  match s.fetchEvent with
  | .raises f => raise f s
  | .event e => runEvent e s

/-- `FetchLoop(S)` (R173): turns until a note is read, the slot terminates, or a turn faults or refuses; at
most `fuel` turns. -/
def fetchLoop : Nat → State → State
  | 0, s => s
  | fuel + 1, s =>
    let s' := eventTurn s
    if s'.stopped || s'.proc != .events then s' else fetchLoop fuel s'

/-- `NoteStep(S)` (R172): the countdown is decremented; events are fetched when it is then at most 0. The
loop ends within `|EVENT_DATA| + 1` turns (R175, log 12). -/
def noteStep (s : State) : State :=
  let s := s.modSlot fun S => { S with countdown := wrap16 (S.countdown.toInt - 1) }
  if 0 < s.slotNow.countdown.toInt then s
  else fetchLoop (s.cfg.eventData.length + 1) { s with proc := .events }

/-- The pitch sum `p` of a slot (R198). -/
def pitchSum (c : Config) (S : Slot) : Int :=
  (S.basePitch.toNat : Int) + sext8 S.transpose + c.vibratoOf S + S.pitchBend

/-- `PITCH_LUT[p]`, none outside the table (R198). -/
def pitchLookup (c : Config) (p : Int) : Option Nat := if p < 0 then none else c.pitchLut[p.toNat]?

/-- `PitchStep(S)` (R198): a sum outside `PITCH_LUT` faults (60_exceptions.md R255). -/
def pitchStep (s : State) : State :=
  let p := pitchSum s.cfg s.slotNow
  match pitchLookup s.cfg p with
  | none => raise (.pitchRange s.cur p) s
  | some f => s.modSlot fun S => { S with freq := BitVec.ofNat 12 f }

/-- Phase A for one slot (R170): an inactive slot does nothing (R171); a slot that terminates in its note step
skips the other two. -/
def slotStep (k : AudioSlot) (s : State) : State :=
  let s := { s with cur := k }
  if s.slotNow.active then
    (noteStep s).andThen fun s => if s.slotNow.active then (envStep s).andThen pitchStep else s
  else s

/-- Phase A: the audio slots in ascending order; a fault or refusal ends it (R170, 60_exceptions.md R262). -/
def phaseA (s : State) : State := audioSlots.foldl (fun s k => s.andThen (slotStep k)) s

/-- The samples of bank `w` as the bytes the upload writes. A slot never names a bank that does not exist
(60_exceptions.md R256); for one that did, there are no samples (log 13). -/
def bankBytes (c : Config) (w : Nat) : List Byte :=
  match c.waveBank[w]? with
  | some b => b.toList.map (BitVec.ofNat 8)
  | none => []

/-- The writes of `Upload(S, k)` (R202). -/
def uploadWrites (c : Config) (S : Slot) : List (BitVec 4 × Byte) :=
  [(4, 0x40), (4, 0x00)] ++ (bankBytes c S.waveBank).map fun v => (6, v)

/-- The writes of `Push` for slot `k` (R200). -/
def slotWrites (c : Config) (k : AudioSlot) (S : Slot) : List (BitVec 4 × Byte) :=
  (0, BitVec.ofNat 8 k.val) ::
    if S.active then
      (if S.uploadPending then uploadWrites c S else []) ++
        [(2, freqLoByte S.freq), (3, freqHiByte S.freq), (5, S.bal), (4, playCtrl S.volume)]
    else [(4, 0x00)]

/-- Every write of `Push`, in order (R200). -/
def pushWrites (c : Config) (slots : Vector Slot 12) : List (BitVec 4 × Byte) :=
  (1, c.globalBalPush) :: audioSlots.flatMap fun k => slotWrites c k slots[slotIndex k]

/-- An active slot's pending upload is done (R202). -/
def Slot.uploaded (S : Slot) : Slot := if S.active then { S with uploadPending := false } else S

/-- The audio slots after a push (R202). -/
def uploadedSlots (slots : Vector Slot 12) : Vector Slot 12 :=
  audioSlots.foldl (fun v k => v.set (slotIndex k) (Slot.uploaded v[slotIndex k])) slots

/-- `Push()` (R200): the sequencer reaches the PSG only through register writes (20_memory.md R79). -/
def push (s : State) : State :=
  { s with psg := s.psg.writes (pushWrites s.cfg s.slot), slot := uploadedSlots s.slot }

/-- The effect of a tick: every slot's phase A, then the push (R170, 20_memory.md R74). -/
def tickBody (s : State) : State := (phaseA s).andThen push

/-- `TICK` (R170). -/
def execTick (s : State) : Outcome := command tickBody s

end Sys2Proof.Machine
end

