-- ==== Sys2Proof/Machine/Adapter.lean ====
section
/-! DEFINITION. The stream adapter (43_stream_adapter.md): `FILL`. -/

namespace Sys2Proof.Machine

/-- One render period after a tick: the staging buffer is refilled with `SPP` frames (43_stream_adapter.md R232). -/
def refill (s : State) : State :=
  let r := s.psg.update s.cfg s.cfg.spp
  { s with psg := r.1, stg := r.2 }

/-- One period: the tick, then the render unless the tick faulted or was refused (R232, 60_exceptions.md R251). -/
def period (s : State) : State := (tickBody s).andThen refill

/-- The loop of `FILL` (R232): `need` frames are still asked for and `out` holds those handed over. Every turn
but the first hands over a frame, because `SPP >= 1`, so `need + 1` turns suffice; with `SPP = 0` the
loop would not end and the configuration is refused (70_reset_and_hazards.md R292; log 12). -/
def fillLoop : Nat → Nat → List Frame → State → State
  | 0, _, _, s => refuse (.config .spp) s
  | fuel + 1, need, out, s =>
    let k := min need s.stg.length
    let out := out ++ s.stg.take k
    let s := { s with stg := s.stg.drop k }
    if need - k = 0 then { s with result := .frames out }
    else (period s).andThen (fillLoop fuel (need - k) out)

/-- The effect of `FILL n` (R232). -/
def fillBody (n : Nat) (s : State) : State := fillLoop (n + 1) n [] s

/-- `FILL n` (R232). -/
def execFill (n : BitVec 20) (s : State) : Outcome := command (fillBody n.toNat) s

end Sys2Proof.Machine
end

