-- ==== Sys2Proof/Machine/Cue.lean ====
section
/-! DEFINITION. Cue control (42_sequencer.md R210 to R214): `START`, `STOP`, `STATUS`. -/

namespace Sys2Proof.Machine

/-- The record `START` gives an audio slot whose stream begins at `off` (42_sequencer.md R210). -/
def startSlot (c : Config) (off : Option Nat) : Slot :=
  { Slot.powerOn with
    active := true
    cursor := off
    durBase := c.durBaseInit
    volume := c.volInit
    waveBank := 0
    uploadPending := true
    bal := c.seqBalInit }

/-- The slot records after `START`: the audio slots anew, the shadow slots as they were (R210, R43). -/
def startedSlots (c : Config) (offs : Vector (Option Nat) 6) (slots : Vector Slot 12) : Vector Slot 12 :=
  audioSlots.foldl (fun v k => v.set (slotIndex k) (startSlot c offs[k])) slots

/-- The effect of `START id` (R210); a cue without an entry faults before anything changes (60_exceptions.md R257). -/
def startBody (id : BitVec 16) (s : State) : State :=
  match s.cfg.cueOffsets id with
  | none => raise (.cueId id) s
  | some offs => { s with slot := startedSlots s.cfg offs s.slot, lastCue := some id }

/-- Some audio slot is active (R214). -/
def anyActive (slots : Vector Slot 12) : Bool := audioSlots.any fun k => slots[slotIndex k].active

/-- What `STATUS id` returns (R214). -/
def cuePlaying (id : BitVec 16) (s : State) : Bool := s.lastCue == some id && anyActive s.slot

/-- `START id` (R210). -/
def execStart (id : BitVec 16) (s : State) : Outcome := command (startBody id) s

/-- `STOP id`: takes the lock and does nothing else (R212). -/
def execStop (_id : BitVec 16) (s : State) : Outcome := command (fun s => s) s

/-- `STATUS id` (R214). -/
def execStatus (id : BitVec 16) (s : State) : Outcome :=
  command (fun s => { s with result := .bit (cuePlaying id s) }) s

end Sys2Proof.Machine
end

