-- ==== Sys2Proof/Machine/PsgWrite.lean ====
section
/-! DEFINITION. The PSG register-write commands and `RESET` (40_psg_write.md), and the refused command words. -/

namespace Sys2Proof.Machine

/-- `WR 0, v` (40_psg_write.md R121). -/
def execWrSel (v : Byte) (s : State) : Outcome := command (State.modPsg (Psg.writeSel v)) s

/-- `WR 1, v` (R122). -/
def execWrGbal (v : Byte) (s : State) : Outcome := command (State.modPsg (Psg.writeGbal v)) s

/-- `WR 2, v` (R123). -/
def execWrFreqLo (v : Byte) (s : State) : Outcome := command (State.modPsg (Psg.writeFreqLo v)) s

/-- `WR 3, v` (R124). -/
def execWrFreqHi (v : Byte) (s : State) : Outcome := command (State.modPsg (Psg.writeFreqHi v)) s

/-- `WR 4, v` (R125). -/
def execWrCtrl (v : Byte) (s : State) : Outcome := command (State.modPsg (Psg.writeCtrl v)) s

/-- `WR 5, v` (R126). -/
def execWrCbal (v : Byte) (s : State) : Outcome := command (State.modPsg (Psg.writeCbal v)) s

/-- `WR 6, v` (R128). -/
def execWrWdata (v : Byte) (s : State) : Outcome := command (State.modPsg (Psg.writeWdata v)) s

/-- `WR 7, v`: accepted, no effect (R127). -/
def execWrNoise (v : Byte) (s : State) : Outcome := command (State.modPsg (Psg.writeIgnored v)) s

/-- `WR 8, v`: accepted, no effect (R130). -/
def execWrLfoFreq (v : Byte) (s : State) : Outcome := command (State.modPsg (Psg.writeIgnored v)) s

/-- `WR 9, v`: accepted, no effect (R131). -/
def execWrLfoCtrl (v : Byte) (s : State) : Outcome := command (State.modPsg (Psg.writeIgnored v)) s

/-- `WR off, v` with `off` 10 or 11: the mark `REFUSE_OFFSET` and no other effect (R129, 60_exceptions.md R260). -/
def execWrRefusedAB (off : BitVec 4) (v : Byte) (s : State) : Outcome := command (refuse (.offset off v)) s

/-- `WR off, v` with `off` 12 to 15: the mark `REFUSE_OFFSET` and no other effect (R129, 60_exceptions.md R260). -/
def execWrRefusedCF (off : BitVec 4) (v : Byte) (s : State) : Outcome := command (refuse (.offset off v)) s

/-- `RESET`: the PSG core is zeroed, nothing else is touched (R120). -/
def execReset (s : State) : Outcome := command (State.modPsg fun _ => Psg.powerOn) s

/-- A command word that decode refuses: the mark `REFUSE_CMD` and no other effect (30_encoding.md R99,
60_exceptions.md R259). -/
def refuseWord (w : CmdWord) (s : State) : Outcome := command (refuse (.cmd w)) s

/-- A command word whose `CMD` is 8 to 15 (30_encoding.md R99, 60_exceptions.md R259). -/
def execReservedCmd (w : CmdWord) (s : State) : Outcome := refuseWord w s

end Sys2Proof.Machine
end

