-- ==== Sys2Proof/Machine/Dispatch.lean ====
section
/-! DEFINITION. The meaning of each instruction: one arm a constructor, each one call. -/

namespace Sys2Proof.Machine

def exec (i : Instr) (s : State) : Host.Outcome State Fault Refusal :=
  match i with
  | .wrSel v => Sys2Proof.Machine.execWrSel v s
  | .wrGbal v => Sys2Proof.Machine.execWrGbal v s
  | .wrFreqLo v => Sys2Proof.Machine.execWrFreqLo v s
  | .wrFreqHi v => Sys2Proof.Machine.execWrFreqHi v s
  | .wrCtrl v => Sys2Proof.Machine.execWrCtrl v s
  | .wrCbal v => Sys2Proof.Machine.execWrCbal v s
  | .wrWdata v => Sys2Proof.Machine.execWrWdata v s
  | .wrNoise v => Sys2Proof.Machine.execWrNoise v s
  | .wrLfoFreq v => Sys2Proof.Machine.execWrLfoFreq v s
  | .wrLfoCtrl v => Sys2Proof.Machine.execWrLfoCtrl v s
  | .wrRefusedAB off v => Sys2Proof.Machine.execWrRefusedAB off v s
  | .wrRefusedCF off v => Sys2Proof.Machine.execWrRefusedCF off v s
  | .reset => Sys2Proof.Machine.execReset s
  | .update n => Sys2Proof.Machine.execUpdate n s
  | .tick => Sys2Proof.Machine.execTick s
  | .start id => Sys2Proof.Machine.execStart id s
  | .stop id => Sys2Proof.Machine.execStop id s
  | .status id => Sys2Proof.Machine.execStatus id s
  | .fill n => Sys2Proof.Machine.execFill n s
  | .reservedCmd w => Sys2Proof.Machine.execReservedCmd w s
  | .note n m => Sys2Proof.Machine.execNote n m s
  | .terminate _ => Sys2Proof.Machine.execTerminate s
  | .setTranspose _ t => Sys2Proof.Machine.execSetTranspose t s
  | .setDurationBase _ d => Sys2Proof.Machine.execSetDurationBase d s
  | .selectWaveformBank _ w => Sys2Proof.Machine.execSelectWaveformBank w s
  | .envHoldOn _ => Sys2Proof.Machine.execEnvHoldOn s
  | .envHoldOff _ => Sys2Proof.Machine.execEnvHoldOff s
  | .unrecognized _ => Sys2Proof.Machine.execUnrecognized s
  | .undescribed op => Sys2Proof.Machine.execUndescribed op s
  | .envSeg dv dp hold len => Sys2Proof.Machine.execEnvSeg dv dp hold len s
  | .envEnd => Sys2Proof.Machine.execEnvEnd s

end Sys2Proof.Machine
end

