-- ==== Sys2Proof/Machine/Fetch.lean ====
section
/-! DEFINITION. Fetching and running one instruction of each of the three streams, and placing an instruction
where the next step fetches it. -/

namespace Sys2Proof.Machine

/-- A step at a block waiting for commands: the next command word is taken and run; a word that is no command
is refused (30_encoding.md R99); with none waiting the state stays (60_exceptions.md R273). -/
def commandStep (s : State) : Host.Outcome State Fault Refusal :=
  match s.cmds with
  | [] => .next s
  | w :: rest =>
    match decodeCommand w with
    | .ok i => exec i { s with cmds := rest }
    | .reservedPayload _ => refuseWord w { s with cmds := rest }
    | .missingByte _ => refuseWord w { s with cmds := rest }

/-- A step inside the FetchLoop of the slot being processed: one event (42_sequencer.md R173). -/
def eventStep (s : State) : Host.Outcome State Fault Refusal :=
  match s.fetchEvent with
  | .raises f => .next (raise f s)
  | .event e => exec e.toInstr s

/-- A step inside the segment loop of the slot being processed: one segment (42_sequencer.md R195). -/
def envelopeStep (s : State) : Host.Outcome State Fault Refusal :=
  match s.slotNow.envPos with
  | none => .next (leaveLoop s)
  | some p =>
    match decodeEnv s.cfg p with
    | .stop => exec .envEnd s
    | .seg dv dp hold len => exec (.envSeg dv dp hold len) s
    | .oob i => .next (raise (.envOob s.cur i) s)

/-- The state with an instruction of spec/opcode_table.json where the next step fetches it: a 24-bit row at
the head of the command queue, a row of 8 or 16 bits in the stream of the slot being processed (log 19). -/
def placeTableWord (nbits w : Nat) (s : State) : State :=
  if nbits = 24 then s.placeCommand (BitVec.ofNat 24 w)
  else if nbits = 8 ∨ nbits = 16 then s.placeEvent (tableBytes w)
  else s

end Sys2Proof.Machine
end

