-- ==== Sys2Proof/Machine/Step.lean ====
section
/-! DEFINITION. One step of the block: it takes the next instruction of the stream `proc` names and runs it. -/

namespace Sys2Proof.Machine

/-- One step. A block with a mark is stuck (60_exceptions.md R251, R252). -/
def step (s : State) : Host.Outcome State Fault Refusal :=
  match s.stuckOutcome with
  | some o => o
  | none =>
    match s.proc with
    | .commands => commandStep s
    | .events => eventStep s
    | .envelope => envelopeStep s

/-- The state with an instruction of spec/opcode_table.json where the next step fetches it. -/
def State.withFetchWord (s : State) (nbits w : Nat) : State := placeTableWord nbits w s

end Sys2Proof.Machine
end

