-- ==== Sys2Proof/Safety.lean ====
section
/-! DEFINITION. What counts as a safe run, the invariant every step keeps, and the closed forms in whose
terms the claims are stated. Nothing here is called by the machine. -/

namespace Sys2Proof.Machine

/-- No mark is set: the run is not stuck, and a claim may be made about it (60_exceptions.md R251, R252). -/
abbrev Running (s : State) : Prop := s.fault = none ∧ s.refused = none

/-- The block waits for a command: no mark, the lock free, in no stream loop (10_state.md R47, R48). -/
abbrev Ready (s : State) : Prop := Running s ∧ s.lock = .free ∧ s.proc = .commands

/-- Instructions run one after the other, stopping at the first that has no next state. -/
def execAll : List Instr → State → Outcome
  | [], s => .next s
  | i :: is, s =>
    match exec i s with
    | .next t => execAll is t
    | .fault f => .fault f
    | .refused r => .refused r

/-- What every reachable audio slot keeps: its bank exists (10_state.md R41, 60_exceptions.md R256), its cursor
is at most at the end of `EVENT_DATA` (R40), and `envSel` is its power-on value, since no rule writes
it (R39). -/
abbrev SlotOk (c : Config) (S : Slot) : Prop :=
  S.waveBank < c.nWaves ∧ S.cursor.getD 0 ≤ c.eventData.length ∧ S.envSel = 0

/-- The invariant of the block. -/
structure BlockInv (s : State) : Prop where
  /-- the configuration is well formed (00_scope.md R10) -/
  cfg : s.cfg.wf = true
  /-- the staging buffer holds at most one period (10_state.md R46) -/
  stg : s.stg.length ≤ s.cfg.spp
  /-- the audio slots -/
  audio : ∀ k : AudioSlot, SlotOk s.cfg s.slot[slotIndex k]
  /-- the shadow slots hold their power-on values (10_state.md R43) -/
  shadow : ∀ k : Fin 12, 6 ≤ k.val → s.slot[k] = Slot.powerOn
  /-- a stopped block has one mark (60_exceptions.md R262) -/
  marks : s.fault = none ∨ s.refused = none

/-- The conditions of a well-formed configuration in the order they are tried: those of 00_scope.md R10 in its
order, then those of R9's types and of 42_sequencer.md R195 (log 20). -/
def conditionOrder : List ConfigCond :=
  [.spp, .noteThreshold, .controlOps, .waveBank, .pitchLut, .scaleTab, .soundOffsets, .ctrlSeqOffset, .envLength,
   .psgClock, .nWaves, .waveStep, .durFn, .envItems]

/-- What each condition asks of `c`, in the words of 00_scope.md R10 (from `psgClock` on, in those of R9's
types and of 42_sequencer.md R195, log 20). -/
def Meets (c : Config) : ConfigCond → Prop
  | .spp => 1 ≤ c.rate / c.updateFreq
  | .noteThreshold => 1 ≤ c.noteThreshold ∧ c.noteThreshold ≤ 255
  | .controlOps => c.controlKind 0xFF = .terminate
  | .waveBank => ∀ b ∈ c.waveBank, ∀ i : Fin 32, b[i] ≤ 31
  | .pitchLut => ∀ x ∈ c.pitchLut, x ≤ 4095
  | .scaleTab => ∀ i : Fin 16, c.scaleTab[i] ≤ 31
  | .soundOffsets =>
    ∀ e ∈ c.soundOffsets, ∀ (k : Fin 6) (i : Nat), e.2[k] = some i → i < c.eventData.length ∨ i = c.eventData.length
  | .ctrlSeqOffset => ∀ i ∈ c.ctrlSeqOffset, i < c.ctrlBlock.length
  | .envLength => ∀ dv dp hold len, EnvItem.seg dv dp hold len ∈ c.envItems → 1 ≤ len
  | .psgClock => 1 ≤ c.psgClock
  | .nWaves => 1 ≤ c.waveBank.length
  | .waveStep => ∀ t, c.waveStepTab = .table t → t.length = 4096
  | .durFn => ∀ t, c.durFn = .table t → t.length = 16 * 256
  | .envItems =>
    c.envItems.length = c.ctrlBlock.length ∧ ∀ i, EnvItem.outside i ∈ c.envItems → c.ctrlBlock.length ≤ i

/-- The state with the channels 6 and 7 replaced, which no output depends on (10_state.md R22). -/
def State.withSpare (C6 C7 : Channel) (s : State) : State :=
  { s with psg := { s.psg with ch := (s.psg.ch.set 6 C6).set 7 C7 } }

/-- The PSG channel that slot `k` drives (10_state.md R35). -/
def slotChannel (k : AudioSlot) : Fin 8 := ⟨k.val, by omega⟩

/-- The phase steps taken when the sample of frame `i` is read (41_psg_render.md R152). -/
def phaseTurns (o : PhaseOrder) (i : Nat) : Nat :=
  match o with
  | .advanceThenRead => i + 1
  | .readThenAdvance => i

/-- The counter that selects the sample of frame `i` of a render that starts at `counter` (41_psg_render.md R152). -/
def frameCounter (o : PhaseOrder) (counter : BitVec 17) (step : BitVec 32) (i : Nat) : BitVec 17 :=
  BitVec.ofNat 17 (counter.toNat + phaseTurns o i * step.toNat)

/-- The sample channel `C` plays in frame `i` of a render that starts at its counter (41_psg_render.md R151, R152). -/
def sampleAt (c : Config) (C : Channel) (i : Nat) : Sample :=
  if ctrlDda C.ctrl then C.dda
  else C.wave[(readOffset (frameCounter c.phaseOrder C.counter (c.waveStep C.freq) i)).toNat]

/-- What channel `k` adds to one side of frame `i`, at the gains `g`, before any wrapping (41_psg_render.md R148). -/
def sideTerm (c : Config) (p : Psg) (g : Channel → Int) (i : Nat) (k : Fin 8) : Int :=
  if ctrlEn p.ch[k].ctrl then g p.ch[k] * (((sampleAt c p.ch[k] i).toNat : Int) - 16) else 0

/-- The mathematical sum of what the rendered channels add to one side of frame `i` (41_psg_render.md R148 to
R150). -/
def sideSum (c : Config) (p : Psg) (g : Channel → Int) (i : Nat) : Int :=
  (renderedChannels.map (sideTerm c p g i)).sum

/-- The channel after a render of `n` frames: only the counter of an enabled waveform channel has moved
(41_psg_render.md R150, R152). -/
def renderedChannel (c : Config) (n : Nat) (C : Channel) : Channel :=
  if ctrlEn C.ctrl && !ctrlDda C.ctrl then
    { C with counter := BitVec.ofNat 17 (C.counter.toNat + n * (c.waveStep C.freq).toNat) }
  else C

/-- The waveform of bank `w` (42_sequencer.md R202). -/
def bankWave (c : Config) (w : Nat) : Vector Sample 32 :=
  match c.waveBank[w]? with
  | some b => b.map (BitVec.ofNat 5)
  | none => Vector.replicate 32 0

/-- A slot's channel after the push (42_sequencer.md R200, R202). -/
def pushedChannel (c : Config) (S : Slot) (C : Channel) : Channel :=
  if S.active then
    { C with
      freq := S.freq
      bal := S.bal
      ctrl := playCtrl S.volume
      wave := if S.uploadPending then bankWave c S.waveBank else C.wave
      index := if S.uploadPending || ctrlDda C.ctrl then 0 else C.index }
  else { C with ctrl := 0, index := if ctrlDda C.ctrl then 0 else C.index }

/-- A slot whose envelope takes one more application of its segment, unless it has ended or is frozen
(42_sequencer.md R195). -/
def envelopedSlot (S : Slot) : Slot :=
  if S.envPos = none ∨ S.envHoldFlag = true then S else S.applySegment

/-- An active slot at the end of phase A of a tick in which no event and no segment is read: the countdown
one less, one envelope application, the pitch resolved (42_sequencer.md R170 to R198). -/
def heldSlot (c : Config) (S : Slot) : Slot :=
  let S := envelopedSlot { S with countdown := wrap16 (S.countdown.toInt - 1) }
  { S with freq := BitVec.ofNat 12 ((pitchLookup c (pitchSum c S)).getD 0) }

/-- A slot a tick can advance without reading an event or a segment and without a fault: inactive, or with
the countdown positive after its decrement, the envelope ended, frozen or inside a segment, and the
pitch inside the table (42_sequencer.md R172, R195, R198). -/
abbrev Holds (c : Config) (S : Slot) : Prop :=
  S.active = true →
    0 < (wrap16 (S.countdown.toInt - 1)).toInt ∧
    (S.envPos = none ∨ S.envHoldFlag = true ∨ S.envHold ≠ 0) ∧
    (pitchLookup c (pitchSum c (envelopedSlot { S with countdown := wrap16 (S.countdown.toInt - 1) }))).isSome = true ∧
    (S.uploadPending = true → S.waveBank < c.nWaves)

/-- `j` envelope steps of the slot being processed (42_sequencer.md R195). -/
def envSteps : Nat → State → State
  | 0, s => s
  | j + 1, s => envSteps j (envStep s)

/-- The state after `t` render periods, each begun with the staging buffer drained (43_stream_adapter.md R235). -/
def afterPeriods : Nat → State → State
  | 0, s => s
  | t + 1, s => afterPeriods t (period { s with stg := [] })

/-- The stream `stg0 ++ P1 ++ ... ++ Pt` of 43_stream_adapter.md R235. -/
def frameStream : Nat → State → List Frame
  | 0, s => s.stg
  | t + 1, s => s.stg ++ frameStream t (period { s with stg := [] })

/-- The ticks `FILL n` runs when `staged` frames are staged (43_stream_adapter.md R234). -/
def fillTicks (spp staged n : Nat) : Nat := if n ≤ staged then 0 else (n - staged + spp - 1) / spp

end Sys2Proof.Machine
end

