-- ==== Sys2Proof/Certificates/Slice0/Obligations.lean ====
section
/-! DEFINITION. The statements about the model, for the provers. Each docstring names the rule of spec/ it
formalises, or says that it rests on a choice of the model. -/

open Sys2Proof Sys2Proof.Machine

/-! ### The streams and the step -/

/-- A few words of 30_encoding.md R90 and 95_test_vectors.md decode to the instructions they stand for. -/
def Obligations.SpecWordsDecode : Prop :=
  decodeCommand 0x0000FD = .ok (.wrSel 0xFD) ∧ decodeCommand 0x00049F = .ok (.wrCtrl 0x9F) ∧
  decodeCommand 0x000A00 = .ok (.wrRefusedAB 10 0) ∧ decodeCommand 0x100000 = .ok .reset ∧
  decodeCommand 0x200040 = .ok (.update 64) ∧ decodeCommand 0x400000 = .ok (.start 0) ∧
  decodeCommand 0x700006 = .ok (.fill 6) ∧ decodeCommand 0x800000 = .ok (.reservedCmd 0x800000) ∧
  decodeCommand 0x0F0000 = .reservedPayload 0x0F0000

/-- Decoding the word of a well-formed command gives the command back (30_encoding.md R90, R92, R93). -/
def Obligations.CommandWordsRoundTrip : Prop :=
  ∀ (c : Config) (i : Instr) (w : CmdWord), i.wf c = true → encode i = some (.word w) → decodeCommand w = .ok i

/-- Decoding the bytes of a well-formed event gives the event back, whatever bytes follow; the event is a
well-formed instruction, and these bytes are its encoding (30_encoding.md R100 to R105). -/
def Obligations.EventBytesRoundTrip : Prop :=
  ∀ (c : Config) (e : Event) (rest : List Byte), e.wf c = true →
    decodeEvent c (encodeEvent e ++ rest) = .ok e ∧ e.toInstr.wf c = true ∧
      encode e.toInstr = some (.bytes (encodeEvent e))

/-- Decoding is total and exact: every 24-bit word is the word of one well-formed command, or has reserved
payload bits that are not zero and is refused (30_encoding.md R91, R99). -/
def Obligations.EveryWordDecodesOrIsRefused : Prop :=
  ∀ (c : Config) (w : CmdWord),
    (∃ i, decodeCommand w = .ok i ∧ i.wf c = true ∧ encode i = some (.word w)) ∨
    (decodeCommand w = .reservedPayload w ∧
      ((w.extractLsb' 20 4 = 0 ∧ w.extractLsb' 12 8 ≠ 0) ∨
       ((w.extractLsb' 20 4 = 1 ∨ w.extractLsb' 20 4 = 3) ∧ w.extractLsb' 0 20 ≠ 0) ∨
       ((w.extractLsb' 20 4 = 4 ∨ w.extractLsb' 20 4 = 5 ∨ w.extractLsb' 20 4 = 6) ∧ w.extractLsb' 16 4 ≠ 0)))

/-- An event read from a stream is well formed and its encoding stands at the front of the stream: one byte,
or two for a control kind with an operand (42_sequencer.md R180). -/
def Obligations.DecodedEventStandsInStream : Prop :=
  ∀ (c : Config) (bs : List Byte) (e : Event), decodeEvent c bs = .ok e →
    e.wf c = true ∧ (∃ rest, bs = encodeEvent e ++ rest) ∧
      ((encodeEvent e).length = 2 ↔
        (∃ op t, e = .setTranspose op t) ∨ (∃ op d, e = .setDurationBase op d) ∨
        (∃ op w, e = .selectWaveformBank op w)) ∧
      ((encodeEvent e).length = 1 ∨ (encodeEvent e).length = 2)

/-- A step at a block waiting for commands takes the first waiting word and runs the command it decodes to
(20_memory.md R72; the queue is the model's, log 1). -/
def Obligations.StepRunsTheCommand : Prop :=
  ∀ (s : State) (w : CmdWord) (rest : List CmdWord) (i : Instr),
    Running s → s.proc = .commands → s.cmds = w :: rest → decodeCommand w = .ok i →
    step s = exec i { s with cmds := rest }

/-- A word with reserved payload bits sets the mark `REFUSE_CMD` with the word and changes nothing else but
the queue and the result (30_encoding.md R99, 60_exceptions.md R259). -/
def Obligations.StepRefusesReservedPayload : Prop :=
  ∀ (s : State) (w : CmdWord) (rest : List CmdWord),
    Ready s → s.cmds = w :: rest → decodeCommand w = .reservedPayload w →
    step s = .next { s with cmds := rest, refused := some (.cmd w), result := .nothing }

/-- Inside a FetchLoop a step runs the event at the cursor; a NULL cursor reads as the byte 0xFF; a byte past the
end of `EVENT_DATA` raises `FAULT_STREAM_OOB` with the slot and the index (42_sequencer.md R174). Inside
the segment loop a step runs the segment or the sentinel at `envPos` (R195). -/
def Obligations.StepRunsTheStreamInstruction : Prop :=
  ∀ s : State, Running s →
    (s.proc = .events →
      (∀ e, s.slotNow.cursor = none → decodeEvent s.cfg [0xFF] = .ok e → step s = exec e.toInstr s) ∧
      (∀ c e, s.slotNow.cursor = some c → decodeEvent s.cfg (s.cfg.eventData.drop c) = .ok e →
        step s = exec e.toInstr s) ∧
      (∀ c off, s.slotNow.cursor = some c → decodeEvent s.cfg (s.cfg.eventData.drop c) = .missingByte off →
        step s = .next { s with fault := some (.streamOob s.cur (c + off)) })) ∧
    (s.proc = .envelope → ∀ p, s.slotNow.envPos = some p →
      (∀ dv dp hold len, decodeEnv s.cfg p = .seg dv dp hold len → step s = exec (.envSeg dv dp hold len) s) ∧
      (decodeEnv s.cfg p = .stop → step s = exec .envEnd s) ∧
      (∀ i, decodeEnv s.cfg p = .oob i → step s = .next { s with fault := some (.envOob s.cur i) }))

/-- With no command waiting no state element changes (60_exceptions.md R273). -/
def Obligations.StepWithoutCommandChangesNothing : Prop :=
  ∀ s : State, Running s → s.proc = .commands → s.cmds = [] → step s = .next s

/-- A faulted or refused block gives no instruction and no step an effect or a result, so no mark is ever
cleared (60_exceptions.md R251, R252; that a stuck block answers with its mark is the model's form,
log 8). -/
def Obligations.MarkedBlockIsStuck : Prop :=
  (∀ (s : State) (f : FaultRecord), s.fault = some f →
    step s = .fault (.raised f) ∧ ∀ i, exec i s = .fault (.raised f)) ∧
  (∀ (s : State) (r : RefusalRecord), s.fault = none → s.refused = some r →
    step s = .refused (.raised r) ∧ ∀ i, exec i s = .refused (.raised r))

/-! ### PSG register writes -/

/-- 40_psg_write.md R121: offset 0 selects the channel, bits 7:3 are discarded. -/
def Obligations.WrSelSelectsChannel : Prop :=
  ∀ (s : State) (v : Byte), Ready s →
    decodeCommand (psgWord 0 v) = .ok (.wrSel v) ∧
    exec (.wrSel v) s = .next { s with psg := { s.psg with sel := v.extractLsb' 0 3 }, result := .nothing }

/-- 40_psg_write.md R122: offset 1 stores all 8 bits of the global balance. -/
def Obligations.WrGbalSetsGlobalBalance : Prop :=
  ∀ (s : State) (v : Byte), Ready s →
    decodeCommand (psgWord 1 v) = .ok (.wrGbal v) ∧
    exec (.wrGbal v) s = .next { s with psg := { s.psg with gbal := v }, result := .nothing }

/-- 40_psg_write.md R123, R124: offset 2 replaces bits 7:0 of the selected channel's frequency, offset 3 its bits
11:8 by `v[3:0]`, with `v[7:4]` discarded. -/
def Obligations.WrFreqSetsItsByte : Prop :=
  ∀ (s : State) (v : Byte), Ready s →
    let C := s.psg.ch[s.psg.sel.toNat]
    let Clo := { C with freq := C.freq.extractLsb' 8 4 ++ v }
    let Chi := { C with freq := v.extractLsb' 0 4 ++ C.freq.extractLsb' 0 8 }
    decodeCommand (psgWord 2 v) = .ok (.wrFreqLo v) ∧ decodeCommand (psgWord 3 v) = .ok (.wrFreqHi v) ∧
    exec (.wrFreqLo v) s = .next { s with
      psg := { s.psg with ch := s.psg.ch.set s.psg.sel.toNat Clo }, result := .nothing } ∧
    exec (.wrFreqHi v) s = .next { s with
      psg := { s.psg with ch := s.psg.ch.set s.psg.sel.toNat Chi }, result := .nothing }

/-- 20_memory.md R65: both orders of a pair of frequency writes leave the same `freq`, the one the two bytes
spell, and the same state. -/
def Obligations.FrequencyWritesCommute : Prop :=
  ∀ (s : State) (lo hi : Byte), Ready s →
    execAll [.wrFreqLo lo, .wrFreqHi hi] s = execAll [.wrFreqHi hi, .wrFreqLo lo] s ∧
    ∃ t, execAll [.wrFreqLo lo, .wrFreqHi hi] s = .next t ∧
      (t.psg.ch[s.psg.sel.toNat]).freq = hi.extractLsb' 0 4 ++ lo

/-- 40_psg_write.md R125: offset 4 stores the byte; only a 1-to-0 change of bit 6 clears the write index. -/
def Obligations.WrCtrlClearsIndexOnlyOnDdaFall : Prop :=
  ∀ (s : State) (v : Byte), Ready s →
    let C := s.psg.ch[s.psg.sel.toNat]
    let C' := { C with
      ctrl := v, index := if C.ctrl.getLsbD 6 = true ∧ v.getLsbD 6 = false then 0 else C.index }
    decodeCommand (psgWord 4 v) = .ok (.wrCtrl v) ∧
    exec (.wrCtrl v) s = .next { s with
      psg := { s.psg with ch := s.psg.ch.set s.psg.sel.toNat C' }, result := .nothing }

/-- 40_psg_write.md R126: offset 5 stores the channel balance. -/
def Obligations.WrCbalSetsChannelBalance : Prop :=
  ∀ (s : State) (v : Byte), Ready s →
    let C := s.psg.ch[s.psg.sel.toNat]
    decodeCommand (psgWord 5 v) = .ok (.wrCbal v) ∧
    exec (.wrCbal v) s = .next { s with
      psg := { s.psg with ch := s.psg.ch.set s.psg.sel.toNat { C with bal := v } }, result := .nothing }

/-- 40_psg_write.md R128: offset 6 by the mode `ctrl[7:6]`. With bit 6 clear (00, 10) it writes the entry at
`index` and advances `index` modulo 32; in 11 it sets `dda`; in 01 nothing changes. -/
def Obligations.WrWdataFollowsMode : Prop :=
  ∀ (s : State) (v : Byte), Ready s →
    let C := s.psg.ch[s.psg.sel.toNat]
    let C' := if C.ctrl.getLsbD 6 = false then
        { C with
          wave := C.wave.set C.index.toNat (v.extractLsb' 0 5)
          index := BitVec.ofNat 5 ((C.index.toNat + 1) % 32) }
      else if C.ctrl.getLsbD 7 = true then { C with dda := v.extractLsb' 0 5 } else C
    decodeCommand (psgWord 6 v) = .ok (.wrWdata v) ∧
    exec (.wrWdata v) s = .next { s with
      psg := { s.psg with ch := s.psg.ch.set s.psg.sel.toNat C' }, result := .nothing }

/-- After 32 waveform writes in mode 00 or 10 the index is back and every entry is replaced in write order
(40_psg_write.md R128, its quoted wrap invariant), for any number of writes the index moves by that
number modulo 32. -/
def Obligations.WaveformWritesWrapIndex : Prop :=
  ∀ (s : State) (vs : List Byte), Ready s → (s.psg.ch[s.psg.sel.toNat]).ctrl.getLsbD 6 = false →
    ∃ t, execAll (vs.map .wrWdata) s = .next t ∧
      (t.psg.ch[s.psg.sel.toNat]).index =
        BitVec.ofNat 5 (((s.psg.ch[s.psg.sel.toNat]).index.toNat + vs.length) % 32) ∧
      (vs.length = 32 → ∀ (j : Nat) (h : j < vs.length) (m : Fin 32),
        m.val = ((s.psg.ch[s.psg.sel.toNat]).index.toNat + j) % 32 →
        (t.psg.ch[s.psg.sel.toNat]).wave[m] = (vs[j]).extractLsb' 0 5)

/-- 40_psg_write.md R127, R130, R131: offsets 7, 8 and 9 are accepted and change no state of the block. -/
def Obligations.NoiseAndLfoWritesDoNothing : Prop :=
  ∀ (s : State) (v : Byte), Ready s →
    decodeCommand (psgWord 7 v) = .ok (.wrNoise v) ∧ decodeCommand (psgWord 8 v) = .ok (.wrLfoFreq v) ∧
    decodeCommand (psgWord 9 v) = .ok (.wrLfoCtrl v) ∧
    exec (.wrNoise v) s = .next { s with result := .nothing } ∧
    exec (.wrLfoFreq v) s = .next { s with result := .nothing } ∧
    exec (.wrLfoCtrl v) s = .next { s with result := .nothing }

/-- Offsets 10 to 15 set the mark `REFUSE_OFFSET` with offset and value (40_psg_write.md R129, 60_exceptions.md
R260), `CMD` 8 to 15 the mark `REFUSE_CMD` with the word (30_encoding.md R99, 60_exceptions.md R259);
nothing else changes. (That the value is recorded beside the offset is section 3's table, log 17.) -/
def Obligations.ReservedFormsAreRefused : Prop :=
  ∀ (s : State) (off : BitVec 4) (v : Byte) (w : CmdWord), Ready s →
    (off = 10 ∨ off = 11 → decodeCommand (psgWord off v) = .ok (.wrRefusedAB off v)) ∧
    (12 ≤ off.toNat → decodeCommand (psgWord off v) = .ok (.wrRefusedCF off v)) ∧
    (8 ≤ (w.extractLsb' 20 4).toNat → decodeCommand w = .ok (.reservedCmd w)) ∧
    exec (.wrRefusedAB off v) s = .next { s with refused := some (.offset off v), result := .nothing } ∧
    exec (.wrRefusedCF off v) s = .next { s with refused := some (.offset off v), result := .nothing } ∧
    exec (.reservedCmd w) s = .next { s with refused := some (.cmd w), result := .nothing }

/-- 40_psg_write.md R120: `RESET` zeroes the PSG core, keeps everything else, and is idempotent. -/
def Obligations.ResetZeroesThePsgOnly : Prop :=
  decodeCommand 0x100000 = .ok .reset ∧ ∀ s : State, Ready s →
    ∃ t, exec .reset s = .next t ∧ t = { s with psg := t.psg, result := .nothing } ∧
      t.psg.sel = 0 ∧ t.psg.gbal = 0 ∧
      (∀ c : Fin 8, (t.psg.ch[c]).freq = 0 ∧ (t.psg.ch[c]).ctrl = 0 ∧ (t.psg.ch[c]).bal = 0 ∧
        (∀ k : Fin 32, (t.psg.ch[c]).wave[k] = 0) ∧
        (t.psg.ch[c]).index = 0 ∧ (t.psg.ch[c]).dda = 0 ∧ (t.psg.ch[c]).counter = 0) ∧
      exec .reset t = .next t

/-! ### Rendering -/

/-- `UPDATE n` as a closed form (41_psg_render.md R148 to R152): `n` frames; each side of frame `i` is the sum
over the enabled channels 0 to 5 of gain times centred sample, wrapped to 16 bits;
an enabled waveform channel's counter has moved by `n` steps modulo 2^17; nothing else
changes. -/
def Obligations.UpdateMixesEnabledChannels : Prop :=
  ∀ (s : State) (n : BitVec 20), Ready s →
    ∃ (t : State) (fs : List Frame), exec (.update n) s = .next t ∧ t.result = .frames fs ∧
      t = { s with psg := { s.psg with ch := t.psg.ch }, result := .frames fs } ∧
      fs.length = n.toNat ∧
      (∀ (i : Nat) (h : i < fs.length),
        (fs[i]).l = wrap16 (sideSum s.cfg s.psg (gainL s.cfg s.psg.gbal) i) ∧
        (fs[i]).r = wrap16 (sideSum s.cfg s.psg (gainR s.cfg s.psg.gbal) i)) ∧
      (∀ k : AudioSlot, t.psg.ch[slotChannel k] = renderedChannel s.cfg n.toNat s.psg.ch[slotChannel k]) ∧
      t.psg.ch[6] = s.psg.ch[6] ∧ t.psg.ch[7] = s.psg.ch[7]

/-- 41_psg_render.md R156: the frames are a function of the PSG state (and the configuration) and of `n`; only
the counters of enabled waveform channels 0 to 5 change; rendering `n1` then `n2` frames gives the frames
and the final state of rendering `n1 + n2`; with no channel enabled every frame is zero. -/
def Obligations.UpdateSplitsAndIsPure : Prop :=
  (∀ (s s' : State) (n : BitVec 20), Ready s → Ready s' → s.psg = s'.psg → s.cfg = s'.cfg →
    ∃ t t', exec (.update n) s = .next t ∧ exec (.update n) s' = .next t' ∧ t.result = t'.result ∧ t.psg = t'.psg) ∧
  (∀ (s t : State) (n : BitVec 20), Ready s → exec (.update n) s = .next t →
    t = { s with psg := t.psg, result := t.result } ∧
    t.psg = { s.psg with ch := t.psg.ch } ∧
    ∀ c : Fin 8, t.psg.ch[c] = { s.psg.ch[c] with counter := (t.psg.ch[c]).counter } ∧
      (¬ (c.val < 6 ∧ (s.psg.ch[c]).ctrl.getLsbD 7 = true ∧ (s.psg.ch[c]).ctrl.getLsbD 6 = false) →
        t.psg.ch[c] = s.psg.ch[c])) ∧
  (∀ (s : State) (n1 n2 : BitVec 20), Ready s → n1.toNat + n2.toNat < 2 ^ 20 →
    ∃ t1 t2 t fs1 fs2, exec (.update n1) s = .next t1 ∧ t1.result = .frames fs1 ∧
      exec (.update n2) t1 = .next t2 ∧ t2.result = .frames fs2 ∧
      exec (.update (n1 + n2)) s = .next t ∧ t.result = .frames (fs1 ++ fs2) ∧ t.psg = t2.psg) ∧
  (∀ (s t : State) (n : BitVec 20),
    (∀ k : AudioSlot, (s.psg.ch[slotChannel k]).ctrl.getLsbD 7 = false) → exec (.update n) s = .next t →
    t.result = .frames (List.replicate n.toNat { l := 0, r := 0 }))

/-- 41_psg_render.md R155: with the default tables a gain is at most 341, one contribution is in -5456..5115,
the sum over the channels is in -32736..30690, and every rendered frame is the mathematical sum. (The
default tables are the spec's general-knowledge values, log 4.) -/
def Obligations.DefaultTablesNeverWrap : Prop :=
  ∀ (s t : State) (n : BitVec 20) (fs : List Frame),
    s.cfg.scaleTab = scaleTabDefault → s.cfg.volTable = volTableDefault →
    exec (.update n) s = .next t → t.result = .frames fs →
    (∀ (cn gn : BitVec 4) (al : BitVec 5) (x : Sample),
      0 ≤ gain s.cfg cn al gn ∧ gain s.cfg cn al gn ≤ 341 ∧
      (contribution (gain s.cfg cn al gn) x).toInt = gain s.cfg cn al gn * ((x.toNat : Int) - 16) ∧
      -5456 ≤ gain s.cfg cn al gn * ((x.toNat : Int) - 16) ∧ gain s.cfg cn al gn * ((x.toNat : Int) - 16) ≤ 5115) ∧
    ∀ (i : Nat) (h : i < fs.length),
      (fs[i]).l.toInt = sideSum s.cfg s.psg (gainL s.cfg s.psg.gbal) i ∧
      (fs[i]).r.toInt = sideSum s.cfg s.psg (gainR s.cfg s.psg.gbal) i ∧
      -32736 ≤ (fs[i]).l.toInt ∧ (fs[i]).l.toInt ≤ 30690 ∧ -32736 ≤ (fs[i]).r.toInt ∧ (fs[i]).r.toInt ≤ 30690

/-- 41_psg_render.md R141: the gain of a side is `VOL_TABLE` at the sum of three attenuations, clamped to 31: the
channel's nibble and the global nibble, each as 31 minus its `SCALE_TAB` entry, and 31 minus the level;
the left side takes the nibbles 7:4, the right side 3:0, the level is `ctrl[4:0]`. With the default
tables (the spec's, R142, R144, log 4) a zero nibble or the level 0 silences a side
(70_reset_and_hazards.md R290), and nibbles 15 with level 31 give the loudest gain 341. `WAVE_STEP[f]` is
a table's entry, or by default the floor of R146 with R147's values at 44100 Hz; a floor that does not
fit u32 is taken modulo 2^32 (the model's reading, log 7). -/
def Obligations.ZeroLevelsSilenceASide : Prop :=
  (∀ (c : Config) (cn gn : BitVec 4) (al : BitVec 5) (att : Fin 32), (∀ x : Fin 16, c.scaleTab[x] ≤ 31) →
    (att.val : Int) =
      min 31 ((31 - (c.scaleTab[cn.toNat] : Int)) + (31 - (al.toNat : Int)) + (31 - (c.scaleTab[gn.toNat] : Int))) →
    gain c cn al gn = (c.volTable[att]).toInt) ∧
  (∀ (c : Config) (gbal : Byte) (C : Channel),
    gainL c gbal C = gain c (C.bal.extractLsb' 4 4) (C.ctrl.extractLsb' 0 5) (gbal.extractLsb' 4 4) ∧
    gainR c gbal C = gain c (C.bal.extractLsb' 0 4) (C.ctrl.extractLsb' 0 5) (gbal.extractLsb' 0 4)) ∧
  (∀ (c : Config) (cn gn : BitVec 4) (al : BitVec 5), c.scaleTab = scaleTabDefault → c.volTable = volTableDefault →
    (cn = 0 ∨ gn = 0 ∨ al = 0 → gain c cn al gn = 0) ∧ (cn = 15 ∧ gn = 15 ∧ al = 31 → gain c cn al gn = 341)) ∧
  (∀ (c : Config) (t : List (BitVec 32)) (f : BitVec 12) (h : f.toNat < t.length), c.waveStepTab = .table t →
    c.waveStep f = t[f.toNat]) ∧
  (∀ (c : Config) (f : BitVec 12), c.waveStepTab = .formula → 1 ≤ c.rate →
    let g := if f = 0 then 4096 else f.toNat
    (c.waveStep f).toNat = c.psgClock * 4096 / (c.rate * g) % 2 ^ 32 ∧
    (c.psgClock * 4096 < 2 ^ 32 * (c.rate * g) →
      (c.waveStep f).toNat * (c.rate * g) ≤ c.psgClock * 4096 ∧
      c.psgClock * 4096 < ((c.waveStep f).toNat + 1) * (c.rate * g))) ∧
  (∀ c : Config, c.waveStepTab = .formula → c.psgClock = 3579545 → c.rate = 44100 →
    c.waveStep 0 = 81 ∧ c.waveStep 1 = 332467 ∧ c.waveStep 2 = 166233 ∧ c.waveStep 81 = 4104 ∧
    c.waveStep 0x100 = 1298 ∧ c.waveStep 0x7FF = 162 ∧ c.waveStep 0x800 = 162 ∧ c.waveStep 0xFFF = 81)

/-- 10_state.md R22: no output depends on channels 6 and 7. `UPDATE` and `FILL` on two blocks that differ only
there leave two blocks that differ only there, in the same way: the frames, the staging buffer and all
else are the same. And so for every instruction and every step, whatever the two blocks then hold in
channels 6 and 7: what is returned, staged, marked or held elsewhere is the same. -/
def Obligations.ChannelsSixAndSevenAreSilent : Prop :=
  (∀ (s : State) (n : BitVec 20) (C6 C7 : Channel), Ready s →
    (∃ t, exec (.update n) s = .next t ∧ exec (.update n) (s.withSpare C6 C7) = .next (t.withSpare C6 C7)) ∧
    (∃ t, exec (.fill n) s = .next t ∧ exec (.fill n) (s.withSpare C6 C7) = .next (t.withSpare C6 C7))) ∧
  (∀ (i : Instr) (s t : State) (C6 C7 : Channel), exec i s = .next t →
    ∃ D6 D7, exec i (s.withSpare C6 C7) = .next (t.withSpare D6 D7)) ∧
  (∀ (s t : State) (C6 C7 : Channel), step s = .next t →
    ∃ D6 D7, step (s.withSpare C6 C7) = .next (t.withSpare D6 D7))

/-! ### Events of the byte code -/

/-- 42_sequencer.md R176: a note sets countdown, pitch, envelope restart, volume and pitch bend, advances the
cursor by one and ends the fetch loop; where `CTRL_SEQ_OFFSET` has no entry at `envSel` it raises
`FAULT_ENV_OOB`, with the countdown and the pitch already written (60_exceptions.md R251, R254). The
default countdown is the product of multiplier and base (R177). -/
def Obligations.NoteStartsANote : Prop :=
  ∀ (s : State) (n m : BitVec 4), Running s →
    let S := s.slotNow
    let S1 := { S with countdown := s.cfg.duration m S.durBase, basePitch := n }
    (∀ pos, s.cfg.ctrlSeqOffset[S.envSel]? = some pos →
      exec (.note n m) s = .next { s with
        slot := s.slot.set (slotIndex s.cur) { S1 with
          envPos := some pos, envHold := 0, volume := s.cfg.volInit, pitchBend := 0
          cursor := S.cursor.map (· + 1) }
        proc := .commands }) ∧
    (s.cfg.ctrlSeqOffset[S.envSel]? = none →
      exec (.note n m) s = .next { s with
        slot := s.slot.set (slotIndex s.cur) S1, fault := some (.envOob s.cur S.envSel) }) ∧
    (s.cfg.durFn = .product → S1.countdown.toInt = (m.toNat : Int) * S.durBase.toNat)

/-- 42_sequencer.md R184: the slot becomes inactive, its cursor stays, the fetch loop ends. -/
def Obligations.TerminateEndsTheSlot : Prop :=
  ∀ (s : State) (op : Byte), Running s →
    exec (.terminate op) s = .next { s with
      slot := s.slot.set (slotIndex s.cur) { s.slotNow with active := false }, proc := .commands }

/-- 42_sequencer.md R185 and R186: the transpose and the duration base are set and the cursor moves by 2; the
running countdown is kept. -/
def Obligations.TransposeAndDurationBaseAreSet : Prop :=
  ∀ (s : State) (op v : Byte), Running s →
    exec (.setTranspose op v) s = .next { s with
      slot := s.slot.set (slotIndex s.cur)
        { s.slotNow with transpose := v, cursor := s.slotNow.cursor.map (· + 2) } } ∧
    exec (.setDurationBase op v) s = .next { s with
      slot := s.slot.set (slotIndex s.cur)
        { s.slotNow with durBase := v, cursor := s.slotNow.cursor.map (· + 2) } }

/-- 42_sequencer.md R187, 60_exceptions.md R256: a bank below `N_WAVES` is selected and its upload scheduled; one
at or above it raises `FAULT_WAVE_BANK` and changes nothing else. -/
def Obligations.SelectBankSchedulesUploadOrFaults : Prop :=
  ∀ (s : State) (op w : Byte), Running s →
    (w.toNat < s.cfg.waveBank.length →
      exec (.selectWaveformBank op w) s = .next { s with
        slot := s.slot.set (slotIndex s.cur)
          { s.slotNow with waveBank := w.toNat, uploadPending := true, cursor := s.slotNow.cursor.map (· + 2) } }) ∧
    (s.cfg.waveBank.length ≤ w.toNat →
      exec (.selectWaveformBank op w) s = .next { s with fault := some (.waveBank s.cur w) })

/-- 42_sequencer.md R188, R189, R190: the hold flag is set and cleared, an unrecognised byte does nothing; each
moves the cursor by 1. -/
def Obligations.OneByteControlsAdvanceByOne : Prop :=
  ∀ (s : State) (op : Byte), Running s →
    exec (.envHoldOn op) s = .next { s with
      slot := s.slot.set (slotIndex s.cur)
        { s.slotNow with envHoldFlag := true, cursor := s.slotNow.cursor.map (· + 1) } } ∧
    exec (.envHoldOff op) s = .next { s with
      slot := s.slot.set (slotIndex s.cur)
        { s.slotNow with envHoldFlag := false, cursor := s.slotNow.cursor.map (· + 1) } } ∧
    exec (.unrecognized op) s = .next { s with
      slot := s.slot.set (slotIndex s.cur) { s.slotNow with cursor := s.slotNow.cursor.map (· + 1) } }

/-- 42_sequencer.md R191, 60_exceptions.md R261: the mark `REFUSE_OPCODE` with the slot and the byte, and nothing
else. -/
def Obligations.UndescribedIsRefused : Prop :=
  ∀ (s : State) (op : Byte), Running s →
    exec (.undescribed op) s = .next { s with refused := some (.opcode s.cur op) }

/-- 42_sequencer.md R195: an empty segment is loaded and passed over; another is loaded and applied once, with
the volume clamped to 0..31, and the loop ends; `END` makes the position NULL and keeps the rest. -/
def Obligations.SegmentsLoadAndApply : Prop :=
  ∀ (s : State) (dv dp hold : Byte) (len : Nat), Running s →
    let S := s.slotNow
    let S1 := { S with envDv := dv, envDp := dp, envHold := hold, envPos := S.envPos.map (· + len) }
    (hold = 0 →
      exec (.envSeg dv dp hold len) s = .next { s with slot := s.slot.set (slotIndex s.cur) S1 }) ∧
    (hold ≠ 0 →
      ∃ v : BitVec 5, (v.toNat : Int) = min 31 (max 0 ((S.volume.toNat : Int) + dv.toInt)) ∧
        exec (.envSeg dv dp hold len) s = .next { s with
          slot := s.slot.set (slotIndex s.cur)
            { S1 with volume := v, pitchBend := S.pitchBend + dp.toInt, envHold := hold - 1 }
          proc := .commands }) ∧
    exec .envEnd s = .next { s with
      slot := s.slot.set (slotIndex s.cur) { S with envPos := none }, proc := .commands }

/-! ### The tick -/

/-- 42_sequencer.md R195: the envelope step does nothing when the envelope has ended or is frozen, and a segment
with hold count `h > 0` is applied on `h` consecutive envelope steps: after `j` of them the volume has
moved by `j` volume deltas, clamped to 0..31, the pitch bend by `j` pitch deltas, the hold count is
`h - j`, and the position is past the segment. -/
def Obligations.SegmentAppliesForItsHoldCount : Prop :=
  (∀ s : State, (s.slotNow.envPos = none ∨ s.slotNow.envHoldFlag = true) → envStep s = s) ∧
  ∀ (s : State) (p : Nat) (dv dp hold : Byte) (len j : Nat),
    Running s → s.slotNow.envPos = some p → s.slotNow.envHoldFlag = false → s.slotNow.envHold = 0 →
    decodeEnv s.cfg p = .seg dv dp hold len → 1 ≤ j → j ≤ hold.toNat →
    Running (envSteps j s) ∧
      ((envSteps j s).slotNow.volume.toNat : Int) =
        min 31 (max 0 ((s.slotNow.volume.toNat : Int) + j * dv.toInt)) ∧
      (envSteps j s).slotNow.envHold.toNat = hold.toNat - j ∧
      (envSteps j s).slotNow.envPos = some (p + len) ∧
      (envSteps j s).slotNow.pitchBend = s.slotNow.pitchBend + j * dp.toInt ∧
      (envSteps j s).slotNow.envDv = dv

/-- 42_sequencer.md R173: among the events only a note and a terminate end the fetch loop; the others leave it
running, unless they fault or are refused. -/
def Obligations.OnlyNoteAndTerminateEndTheFetch : Prop :=
  ∀ (s : State) (e : Event), Running s → s.proc = .events → Running (runEvent e s) →
    ((runEvent e s).proc = .commands ↔ (∃ n m, e = .note n m) ∨ (∃ op, e = .terminate op)) ∧
    ((runEvent e s).proc = .commands ∨ (runEvent e s).proc = .events)

/-- In any state of a well-formed configuration the fetch loop ends within `|EVENT_DATA| + 1` turns (42_sequencer.md
R175) and the segment loop within `|CTRL_BLOCK| + 1` (R195). -/
def Obligations.StreamLoopsEnd : Prop :=
  ∀ s : State, s.cfg.wf = true →
    (s.proc = .events →
      let t := fetchLoop (s.cfg.eventData.length + 1) s
      t.stopped = true ∨ t.proc = .commands) ∧
    (s.proc = .envelope →
      let t := envLoop (s.cfg.ctrlBlock.length + 1) s
      t.stopped = true ∨ t.proc = .commands)

/-- 42_sequencer.md R198, 60_exceptions.md R255: the pitch step looks the sum up, or raises `FAULT_PITCH_RANGE`
with the slot and the sum when it lies outside `PITCH_LUT`. (The fault is the spec's own decision D21, and
that the record names the slot is R255's, log 17.) -/
def Obligations.PitchStepResolvesOrFaults : Prop :=
  ∀ s : State,
    let S := s.slotNow
    let p : Int := S.basePitch.toNat + S.transpose.toInt + s.cfg.vibratoOf S + S.pitchBend
    (∀ (q : Nat) (h : q < s.cfg.pitchLut.length), p = q →
      pitchStep s = { s with slot := s.slot.set (slotIndex s.cur) { S with freq := BitVec.ofNat 12 s.cfg.pitchLut[q] } }) ∧
    (p < 0 ∨ s.cfg.pitchLut.length ≤ p → pitchStep s = { s with fault := some (.pitchRange s.cur p) })

/-- A slot whose countdown runs out on a note starts it in the same tick: the note's fields, then one envelope
application of its first segment (when that is not empty), then its pitch (42_sequencer.md R170, R172,
R176, R195). -/
def Obligations.SlotStepPlaysTheNextNote : Prop :=
  ∀ (s : State) (k : AudioSlot) (c p : Nat) (n m : BitVec 4) (dv dp hold : Byte) (len f : Nat),
    Running s →
    let S := s.slot[slotIndex k]
    let S1 := Slot.applySegment { S with
      countdown := s.cfg.duration m S.durBase, basePitch := n, envPos := some (p + len), envHold := hold
      envDv := dv, envDp := dp, volume := s.cfg.volInit, pitchBend := 0, cursor := some (c + 1) }
    S.active = true → (wrap16 (S.countdown.toInt - 1)).toInt ≤ 0 → S.envHoldFlag = false →
    S.cursor = some c → decodeEvent s.cfg (s.cfg.eventData.drop c) = .ok (.note n m) →
    s.cfg.ctrlSeqOffset[S.envSel]? = some p → decodeEnv s.cfg p = .seg dv dp hold len → hold ≠ 0 →
    pitchLookup s.cfg (pitchSum s.cfg S1) = some f →
    slotStep k s = { s with
      cur := k, proc := .commands, slot := s.slot.set (slotIndex k) { S1 with freq := BitVec.ofNat 12 f } }

/-- 30_encoding.md R104, 42_sequencer.md R184: an active slot with a NULL cursor whose countdown runs out
terminates, and nothing else about it changes but the countdown. -/
def Obligations.NullCursorTerminatesTheSlot : Prop :=
  ∀ (s : State) (k : AudioSlot), Running s → s.cfg.wf = true →
    let S := s.slot[slotIndex k]
    S.active = true → S.cursor = none → (wrap16 (S.countdown.toInt - 1)).toInt ≤ 0 →
    slotStep k s = { s with
      cur := k, proc := .commands
      slot := s.slot.set (slotIndex k) { S with countdown := wrap16 (S.countdown.toInt - 1), active := false } }

/-- 42_sequencer.md R200, R202: after the push the selection is 5, the global balance is `GLOBAL_BAL_PUSH`, an
inactive slot's channel is silenced, an active slot's channel has its frequency, balance and control
byte, a pending upload has filled its waveform from entry 0 whatever its mode and index were, every
counter is kept, and channels 6 and 7 are untouched. -/
def Obligations.PushWritesEverySlot : Prop :=
  ∀ s : State,
    (∀ k : AudioSlot, (s.slot[slotIndex k]).active = true → (s.slot[slotIndex k]).uploadPending = true →
      (s.slot[slotIndex k]).waveBank < s.cfg.nWaves) →
    (push s).psg.sel = 5 ∧ (push s).psg.gbal = s.cfg.globalBalPush ∧
    (∀ k : AudioSlot, (push s).psg.ch[slotChannel k] =
      pushedChannel s.cfg s.slot[slotIndex k] s.psg.ch[slotChannel k]) ∧
    (push s).psg.ch[6] = s.psg.ch[6] ∧ (push s).psg.ch[7] = s.psg.ch[7] ∧
    (∀ k : AudioSlot, (push s).slot[slotIndex k] = (s.slot[slotIndex k]).uploaded) ∧
    (∀ k : Fin 12, 6 ≤ k.val → (push s).slot[k] = s.slot[k])

/-- 42_sequencer.md R203: the number of PSG writes of a push. -/
def Obligations.PushWriteCount : Prop :=
  ∀ (c : Config) (slots : Vector Slot 12),
    (∀ k : AudioSlot, (slots[slotIndex k]).active = true → (slots[slotIndex k]).uploadPending = true →
      (slots[slotIndex k]).waveBank < c.nWaves) →
    (pushWrites c slots).length =
      1 + 2 * (audioSlots.filter fun k => !(slots[slotIndex k]).active).length +
      5 * (audioSlots.filter fun k => (slots[slotIndex k]).active).length +
      34 * (audioSlots.filter fun k => (slots[slotIndex k]).active && (slots[slotIndex k]).uploadPending).length

/-- `TICK` when every audio slot is inactive or holds its note (42_sequencer.md R170, R171, R172, R195, R198,
R200): it completes; every active slot's countdown, envelope and frequency advance, an inactive slot
stays as it is, the shadow slots and all else but `psg`, `slot` and the model's own `cur` and `result`
(log 10, log 11) stay, and the PSG is pushed from the slots so advanced. And every `TICK`, whatever its
slots read: it ends with no mark exactly when each slot's steps, taken alone from the state at the start,
set none (R170: no slot reads another's fields); then each slot is what its own steps give, the cue, the
staging buffer, the shadow slots, channels 6 and 7 and every counter are kept, and the PSG is the push
of those slots (R200, R202). -/
def Obligations.TickAdvancesHeldNotes : Prop :=
  (∀ s : State, Ready s → (∀ k : AudioSlot, Holds s.cfg s.slot[slotIndex k]) →
    ∃ t, exec .tick s = .next t ∧
      t = { s with psg := t.psg, slot := t.slot, cur := 5, result := .nothing } ∧
      (∀ k : AudioSlot, t.slot[slotIndex k] =
        if (s.slot[slotIndex k]).active then (heldSlot s.cfg s.slot[slotIndex k]).uploaded
        else s.slot[slotIndex k]) ∧
      (∀ k : Fin 12, 6 ≤ k.val → t.slot[k] = s.slot[k]) ∧
      t.psg.sel = 5 ∧ t.psg.gbal = s.cfg.globalBalPush ∧
      (∀ k : AudioSlot, t.psg.ch[slotChannel k] = pushedChannel s.cfg
        (if (s.slot[slotIndex k]).active then heldSlot s.cfg s.slot[slotIndex k] else s.slot[slotIndex k])
        s.psg.ch[slotChannel k]) ∧
      t.psg.ch[6] = s.psg.ch[6] ∧ t.psg.ch[7] = s.psg.ch[7]) ∧
  (∀ s : State, Running s → s.lock = .free →
    ∃ t, exec .tick s = .next t ∧
      (Running t ↔ ∀ k : AudioSlot, Running (slotStep k s)) ∧
      (Running t →
        t = { s with psg := t.psg, slot := t.slot, proc := .commands, cur := 5, result := .nothing } ∧
        (∀ k : AudioSlot, t.slot[slotIndex k] = ((slotStep k s).slot[slotIndex k]).uploaded) ∧
        (∀ k : Fin 12, 6 ≤ k.val → t.slot[k] = s.slot[k]) ∧
        t.psg.sel = 5 ∧ t.psg.gbal = s.cfg.globalBalPush ∧
        (∀ k : AudioSlot, (s.slot[slotIndex k]).waveBank < s.cfg.nWaves → t.psg.ch[slotChannel k] =
          pushedChannel s.cfg ((slotStep k s).slot[slotIndex k]) s.psg.ch[slotChannel k]) ∧
        t.psg.ch[6] = s.psg.ch[6] ∧ t.psg.ch[7] = s.psg.ch[7] ∧
        ∀ c : Fin 8, (t.psg.ch[c]).counter = (s.psg.ch[c]).counter))

/-- A `TICK` that faults or is refused has written no PSG register, has staged no frame and returns nothing
(20_memory.md R74, 60_exceptions.md R251, R261). -/
def Obligations.StoppedTickKeepsThePsg : Prop :=
  ∀ s t : State, exec .tick s = .next t → t.stopped = true → t.psg = s.psg ∧ t.stg = s.stg ∧ t.result = .nothing

/-- 10_state.md R40, 42_sequencer.md R178: only `START` rewrites a cursor. No other instruction, so no tick of
`TICK` or of `FILL` and no event, moves a cursor backwards or makes it NULL, and a NULL cursor stays NULL. -/
def Obligations.CursorsOnlyMoveForward : Prop :=
  ∀ (i : Instr) (s t : State), exec i s = .next t → (∀ id, i ≠ .start id) → ∀ k : Fin 12,
    (∀ c, (s.slot[k]).cursor = some c → ∃ c', (t.slot[k]).cursor = some c' ∧ c ≤ c') ∧
    ((s.slot[k]).cursor = none → (t.slot[k]).cursor = none)

/-! ### Cue control -/

/-- 42_sequencer.md R210, 60_exceptions.md R257: `START` gives the audio slots fresh records at the cue's offsets
and records the cue, and keeps the PSG, the staging buffer and the shadow slots; an id without an entry
raises `FAULT_CUE_ID` and changes nothing else. -/
def Obligations.StartBeginsACue : Prop :=
  ∀ (s : State) (id : BitVec 16), Ready s →
    decodeCommand (idWord 4 id) = .ok (.start id) ∧
    (∀ offs, s.cfg.cueOffsets id = some offs →
      ∃ t, exec (.start id) s = .next t ∧
        t = { s with slot := t.slot, lastCue := some id, result := .nothing } ∧
        (∀ k : AudioSlot, t.slot[slotIndex k] =
          { Slot.powerOn with
            active := true, cursor := offs[k], durBase := s.cfg.durBaseInit, volume := s.cfg.volInit
            waveBank := 0, uploadPending := true, bal := s.cfg.seqBalInit }) ∧
        (∀ k : Fin 12, 6 ≤ k.val → t.slot[k] = s.slot[k])) ∧
    (s.cfg.cueOffsets id = none →
      exec (.start id) s = .next { s with fault := some (.cueId id), result := .nothing })

/-- 42_sequencer.md R212, R214: `STOP` changes no state of the block; nor does `STATUS id`, which returns whether
`id` is the last cue started and some audio slot is active. -/
def Obligations.StopAndStatusChangeNothing : Prop :=
  ∀ (s : State) (id : BitVec 16), Ready s →
    decodeCommand (idWord 5 id) = .ok (.stop id) ∧ decodeCommand (idWord 6 id) = .ok (.status id) ∧
    exec (.stop id) s = .next { s with result := .nothing } ∧
    ∃ b : Bool, exec (.status id) s = .next { s with result := .bit b } ∧
      (b = true ↔ s.lastCue = some id ∧ ∃ k : AudioSlot, (s.slot[slotIndex k]).active = true)

/-- 70_reset_and_hazards.md R282: `RESET` followed by `START id` gives the power-on state with `START id` applied,
except for the staging buffer (and the model's own queue and slot number), from every state the
invariant admits. -/
def Obligations.ResetThenStartIsPowerOnStart : Prop :=
  ∀ (s : State) (id : BitVec 16), Ready s → BlockInv s → (s.cfg.cueOffsets id).isSome = true →
    ∃ t, execAll [.reset, .start id] s = .next t ∧
      exec (.start id) { State.powerOn s.cfg with stg := s.stg, cmds := s.cmds, cur := s.cur } = .next t

/-! ### The stream adapter -/

/-- 43_stream_adapter.md R232, R234: a request that the staging buffer can serve takes its front, runs no tick,
and changes nothing else. -/
def Obligations.FillServesFromStaging : Prop :=
  ∀ (s : State) (n : BitVec 20), Ready s → n.toNat ≤ s.stg.length →
    exec (.fill n) s = .next { s with stg := s.stg.drop n.toNat, result := .frames (s.stg.take n.toNat) }

/-- 43_stream_adapter.md R232 to R235: `FILL n` runs exactly the ticks of R234, returns the first `n` frames of
the stream `stg0 ++ P1 ++ P2 ++ ...`, keeps the rest of the last period staged, and leaves everything
else as those periods leave it, when none of them stops. -/
def Obligations.FillReturnsTheFrameStream : Prop :=
  ∀ (s : State) (n : BitVec 20), Ready s → 1 ≤ s.cfg.spp →
    let t := fillTicks s.cfg.spp s.stg.length n.toNat
    Running (afterPeriods t s) →
    exec (.fill n) s = .next { afterPeriods t s with
      stg := (frameStream t s).drop n.toNat, result := .frames ((frameStream t s).take n.toNat)
      proc := .commands } ∧
    (frameStream t s).length = s.stg.length + t * s.cfg.spp ∧ n.toNat ≤ s.stg.length + t * s.cfg.spp ∧
    (0 < t → s.stg.length + t * s.cfg.spp - n.toNat < s.cfg.spp)

/-- 43_stream_adapter.md R235: how a request is split does not change the audio or the final state. -/
def Obligations.FillSplitsFreely : Prop :=
  ∀ (s t : State) (n1 n2 : BitVec 20), n1.toNat + n2.toNat < 2 ^ 20 → s.cfg.wf = true →
    exec (.fill (n1 + n2)) s = .next t → Running t →
    ∃ t1 fs1 fs2, exec (.fill n1) s = .next t1 ∧ t1.result = .frames fs1 ∧
      exec (.fill n2) t1 = .next { t with result := .frames fs2 } ∧ t.result = .frames (fs1 ++ fs2)

/-- While no audio slot is active and only silent frames are staged, `FILL n` completes with `n` silent frames,
stages only silent frames, and changes no slot (70_reset_and_hazards.md R284). It needs no premise on the
PSG: `FILL` runs a tick before each render (43_stream_adapter.md R232, 42_sequencer.md R170), whose push
silences the channel of every inactive slot (R200), so R233's exception, a channel that host writes left
enabled, is overridden before its first frame is rendered. -/
def Obligations.FillIsSilentWithoutACue : Prop :=
  ∀ (s : State) (n : BitVec 20), Ready s → 1 ≤ s.cfg.spp →
    (∀ k : AudioSlot, (s.slot[slotIndex k]).active = false) → (∀ f ∈ s.stg, f = { l := 0, r := 0 }) →
    ∃ t, exec (.fill n) s = .next t ∧ Running t ∧
      t.result = .frames (List.replicate n.toNat { l := 0, r := 0 }) ∧
      (∀ f ∈ t.stg, f = { l := 0, r := 0 }) ∧ t.slot = s.slot

/-- 43_stream_adapter.md R233: a completed `FILL n` returns exactly `n` frames; one that faulted or was refused
returns no result (60_exceptions.md R251). -/
def Obligations.FillNeverUnderproduces : Prop :=
  ∀ (s t : State) (n : BitVec 20), exec (.fill n) s = .next t →
    (Running t → ∃ fs, t.result = .frames fs ∧ fs.length = n.toNat) ∧ (¬ Running t → t.result = .nothing)

/-! ### The whole block -/

/-- 20_memory.md R61, R77: no instruction and no step writes a constant table; nor any other parameter of
00_scope.md R9, which the model holds in the same read-only field (the model's choice, log 2). -/
def Obligations.ConfigurationIsNeverWritten : Prop :=
  (∀ (i : Instr) (s t : State), exec i s = .next t → t.cfg = s.cfg) ∧
  (∀ s t : State, step s = .next t → t.cfg = s.cfg)

/-- 10_state.md R43: no instruction changes a shadow slot. -/
def Obligations.ShadowSlotsAreInert : Prop :=
  ∀ (i : Instr) (s t : State), exec i s = .next t → ∀ k : Fin 12, 6 ≤ k.val → t.slot[k] = s.slot[k]

/-- 10_state.md R29: only rendering moves a phase accumulator, apart from `RESET`, which clears it; register
writes, ticks, `START` and the events keep every counter. -/
def Obligations.OnlyRenderingMovesCounters : Prop :=
  ∀ (i : Instr) (s t : State), exec i s = .next t → i ≠ .reset → (∀ n, i ≠ .update n) → (∀ n, i ≠ .fill n) →
    ∀ c : Fin 8, (t.psg.ch[c]).counter = (s.psg.ch[c]).counter

/-- 10_state.md R36: only `START`, a tick (`TICK`, or one that `FILL` runs) and `TERMINATE` change `active`; and
of these only `START` sets it. -/
def Obligations.OnlyStartActivatesASlot : Prop :=
  ∀ (i : Instr) (s t : State), exec i s = .next t →
    ((∀ id, i ≠ .start id) → ∀ k : Fin 12, (t.slot[k]).active = true → (s.slot[k]).active = true) ∧
    ((∀ id, i ≠ .start id) → i ≠ .tick → (∀ n, i ≠ .fill n) → (∀ op, i ≠ .terminate op) →
      ∀ k : Fin 12, (t.slot[k]).active = (s.slot[k]).active)

/-- 10_state.md R47, 20_memory.md R72: a step from a free lock leaves it free. -/
def Obligations.LockIsFreeBetweenSteps : Prop :=
  ∀ s t : State, step s = .next t → s.lock = .free → t.lock = .free

/-- Every step keeps the invariant: the configuration stays well formed, at most one period is staged
(10_state.md R46, 43_stream_adapter.md R232), every audio slot names an existing bank and a cursor no
further than the end of its stream, and the shadow slots stay at power-on. -/
def Obligations.EveryStepKeepsTheInvariant : Prop :=
  ∀ s t : State, BlockInv s → step s = .next t → BlockInv t

/-- The state after reset meets the invariant and waits for a command with no mark (70_reset_and_hazards.md
R280). (The OPEN parameters after reset are opaque constants of the model, log 3.) -/
def Obligations.ResetMeetsTheInvariant : Prop :=
  BlockInv State.reset ∧ Ready State.reset ∧ State.powerOn Config.installed = State.reset

/-- 60_exceptions.md R258, 70_reset_and_hazards.md R280: a configuration is well formed exactly when it meets the
conditions of 00_scope.md R10 (with those of R9's types, log 20), which `Meets` writes out.
Construction with a well-formed configuration sets no mark; with another it sets the mark `REFUSE_CONFIG`
with the first condition of R10's order that it breaks, and the block is stuck. -/
def Obligations.ConstructionRefusesBadConfigurations : Prop :=
  ∀ c : Config,
    (c.wf = true ↔ ∀ cond, Meets c cond) ∧
    (c.wf = true → State.powerOn c = State.blank c) ∧
    (c.wf = false → ∃ cond pre post, conditionOrder = pre ++ cond :: post ∧ (∀ d ∈ pre, Meets c d) ∧
      ¬ Meets c cond ∧ (State.powerOn c).refused = some (.config cond) ∧
      step (State.powerOn c) = .refused (.raised (.config cond)))
end

