-- ==== Sys2Proof/Laws/State.lean ====
section
/-! SUPPORT. One lemma for each field of each record update, so that no proof unfolds an update. -/

namespace Sys2Proof.Machine

/-! ### `raise` -/

@[simp] theorem raise_cfg (f : FaultRecord) (s : State) : (raise f s).cfg = s.cfg := rfl
@[simp] theorem raise_psg (f : FaultRecord) (s : State) : (raise f s).psg = s.psg := rfl
@[simp] theorem raise_slot (f : FaultRecord) (s : State) : (raise f s).slot = s.slot := rfl
@[simp] theorem raise_lastCue (f : FaultRecord) (s : State) : (raise f s).lastCue = s.lastCue := rfl
@[simp] theorem raise_stg (f : FaultRecord) (s : State) : (raise f s).stg = s.stg := rfl
@[simp] theorem raise_lock (f : FaultRecord) (s : State) : (raise f s).lock = s.lock := rfl
@[simp] theorem raise_fault (f : FaultRecord) (s : State) : (raise f s).fault = some f := rfl
@[simp] theorem raise_refused (f : FaultRecord) (s : State) : (raise f s).refused = s.refused := rfl
@[simp] theorem raise_cmds (f : FaultRecord) (s : State) : (raise f s).cmds = s.cmds := rfl
@[simp] theorem raise_proc (f : FaultRecord) (s : State) : (raise f s).proc = s.proc := rfl
@[simp] theorem raise_cur (f : FaultRecord) (s : State) : (raise f s).cur = s.cur := rfl
@[simp] theorem raise_result (f : FaultRecord) (s : State) : (raise f s).result = s.result := rfl

/-! ### `refuse` -/

@[simp] theorem refuse_cfg (r : RefusalRecord) (s : State) : (refuse r s).cfg = s.cfg := rfl
@[simp] theorem refuse_psg (r : RefusalRecord) (s : State) : (refuse r s).psg = s.psg := rfl
@[simp] theorem refuse_slot (r : RefusalRecord) (s : State) : (refuse r s).slot = s.slot := rfl
@[simp] theorem refuse_lastCue (r : RefusalRecord) (s : State) : (refuse r s).lastCue = s.lastCue := rfl
@[simp] theorem refuse_stg (r : RefusalRecord) (s : State) : (refuse r s).stg = s.stg := rfl
@[simp] theorem refuse_lock (r : RefusalRecord) (s : State) : (refuse r s).lock = s.lock := rfl
@[simp] theorem refuse_fault (r : RefusalRecord) (s : State) : (refuse r s).fault = s.fault := rfl
@[simp] theorem refuse_refused (r : RefusalRecord) (s : State) : (refuse r s).refused = some r := rfl
@[simp] theorem refuse_cmds (r : RefusalRecord) (s : State) : (refuse r s).cmds = s.cmds := rfl
@[simp] theorem refuse_proc (r : RefusalRecord) (s : State) : (refuse r s).proc = s.proc := rfl
@[simp] theorem refuse_cur (r : RefusalRecord) (s : State) : (refuse r s).cur = s.cur := rfl
@[simp] theorem refuse_result (r : RefusalRecord) (s : State) : (refuse r s).result = s.result := rfl

/-! ### `beginCommand` -/

@[simp] theorem beginCommand_cfg (s : State) : (beginCommand s).cfg = s.cfg := rfl
@[simp] theorem beginCommand_psg (s : State) : (beginCommand s).psg = s.psg := rfl
@[simp] theorem beginCommand_slot (s : State) : (beginCommand s).slot = s.slot := rfl
@[simp] theorem beginCommand_lastCue (s : State) : (beginCommand s).lastCue = s.lastCue := rfl
@[simp] theorem beginCommand_stg (s : State) : (beginCommand s).stg = s.stg := rfl
@[simp] theorem beginCommand_lock (s : State) : (beginCommand s).lock = .held := rfl
@[simp] theorem beginCommand_fault (s : State) : (beginCommand s).fault = s.fault := rfl
@[simp] theorem beginCommand_refused (s : State) : (beginCommand s).refused = s.refused := rfl
@[simp] theorem beginCommand_cmds (s : State) : (beginCommand s).cmds = s.cmds := rfl
@[simp] theorem beginCommand_proc (s : State) : (beginCommand s).proc = s.proc := rfl
@[simp] theorem beginCommand_cur (s : State) : (beginCommand s).cur = s.cur := rfl
@[simp] theorem beginCommand_result (s : State) : (beginCommand s).result = .nothing := rfl

/-! ### `endCommand` -/

@[simp] theorem endCommand_cfg (s : State) : (endCommand s).cfg = s.cfg := rfl
@[simp] theorem endCommand_psg (s : State) : (endCommand s).psg = s.psg := rfl
@[simp] theorem endCommand_slot (s : State) : (endCommand s).slot = s.slot := rfl
@[simp] theorem endCommand_lastCue (s : State) : (endCommand s).lastCue = s.lastCue := rfl
@[simp] theorem endCommand_stg (s : State) : (endCommand s).stg = s.stg := rfl
@[simp] theorem endCommand_lock (s : State) : (endCommand s).lock = .free := rfl
@[simp] theorem endCommand_fault (s : State) : (endCommand s).fault = s.fault := rfl
@[simp] theorem endCommand_refused (s : State) : (endCommand s).refused = s.refused := rfl
@[simp] theorem endCommand_cmds (s : State) : (endCommand s).cmds = s.cmds := rfl
@[simp] theorem endCommand_proc (s : State) : (endCommand s).proc = .commands := rfl
@[simp] theorem endCommand_cur (s : State) : (endCommand s).cur = s.cur := rfl
@[simp] theorem endCommand_result (s : State) :
    (endCommand s).result = if s.stopped then .nothing else s.result := rfl

/-! ### `leaveLoop` -/

@[simp] theorem leaveLoop_cfg (s : State) : (leaveLoop s).cfg = s.cfg := rfl
@[simp] theorem leaveLoop_psg (s : State) : (leaveLoop s).psg = s.psg := rfl
@[simp] theorem leaveLoop_slot (s : State) : (leaveLoop s).slot = s.slot := rfl
@[simp] theorem leaveLoop_lastCue (s : State) : (leaveLoop s).lastCue = s.lastCue := rfl
@[simp] theorem leaveLoop_stg (s : State) : (leaveLoop s).stg = s.stg := rfl
@[simp] theorem leaveLoop_lock (s : State) : (leaveLoop s).lock = s.lock := rfl
@[simp] theorem leaveLoop_fault (s : State) : (leaveLoop s).fault = s.fault := rfl
@[simp] theorem leaveLoop_refused (s : State) : (leaveLoop s).refused = s.refused := rfl
@[simp] theorem leaveLoop_cmds (s : State) : (leaveLoop s).cmds = s.cmds := rfl
@[simp] theorem leaveLoop_proc (s : State) : (leaveLoop s).proc = .commands := rfl
@[simp] theorem leaveLoop_cur (s : State) : (leaveLoop s).cur = s.cur := rfl
@[simp] theorem leaveLoop_result (s : State) : (leaveLoop s).result = s.result := rfl

/-! ### `State.modSlot` -/

@[simp] theorem State.modSlot_cfg (f : Slot → Slot) (s : State) : (s.modSlot f).cfg = s.cfg := rfl
@[simp] theorem State.modSlot_psg (f : Slot → Slot) (s : State) : (s.modSlot f).psg = s.psg := rfl
@[simp] theorem State.modSlot_slot (f : Slot → Slot) (s : State) :
    (s.modSlot f).slot = s.slot.set (slotIndex s.cur) (f s.slotNow) := rfl
@[simp] theorem State.modSlot_lastCue (f : Slot → Slot) (s : State) :
    (s.modSlot f).lastCue = s.lastCue := rfl
@[simp] theorem State.modSlot_stg (f : Slot → Slot) (s : State) : (s.modSlot f).stg = s.stg := rfl
@[simp] theorem State.modSlot_lock (f : Slot → Slot) (s : State) : (s.modSlot f).lock = s.lock := rfl
@[simp] theorem State.modSlot_fault (f : Slot → Slot) (s : State) : (s.modSlot f).fault = s.fault := rfl
@[simp] theorem State.modSlot_refused (f : Slot → Slot) (s : State) :
    (s.modSlot f).refused = s.refused := rfl
@[simp] theorem State.modSlot_cmds (f : Slot → Slot) (s : State) : (s.modSlot f).cmds = s.cmds := rfl
@[simp] theorem State.modSlot_proc (f : Slot → Slot) (s : State) : (s.modSlot f).proc = s.proc := rfl
@[simp] theorem State.modSlot_cur (f : Slot → Slot) (s : State) : (s.modSlot f).cur = s.cur := rfl
@[simp] theorem State.modSlot_result (f : Slot → Slot) (s : State) : (s.modSlot f).result = s.result := rfl

/-! ### `State.modPsg` -/

@[simp] theorem State.modPsg_cfg (f : Psg → Psg) (s : State) : (s.modPsg f).cfg = s.cfg := rfl
@[simp] theorem State.modPsg_psg (f : Psg → Psg) (s : State) : (s.modPsg f).psg = f s.psg := rfl
@[simp] theorem State.modPsg_slot (f : Psg → Psg) (s : State) : (s.modPsg f).slot = s.slot := rfl
@[simp] theorem State.modPsg_lastCue (f : Psg → Psg) (s : State) : (s.modPsg f).lastCue = s.lastCue := rfl
@[simp] theorem State.modPsg_stg (f : Psg → Psg) (s : State) : (s.modPsg f).stg = s.stg := rfl
@[simp] theorem State.modPsg_lock (f : Psg → Psg) (s : State) : (s.modPsg f).lock = s.lock := rfl
@[simp] theorem State.modPsg_fault (f : Psg → Psg) (s : State) : (s.modPsg f).fault = s.fault := rfl
@[simp] theorem State.modPsg_refused (f : Psg → Psg) (s : State) : (s.modPsg f).refused = s.refused := rfl
@[simp] theorem State.modPsg_cmds (f : Psg → Psg) (s : State) : (s.modPsg f).cmds = s.cmds := rfl
@[simp] theorem State.modPsg_proc (f : Psg → Psg) (s : State) : (s.modPsg f).proc = s.proc := rfl
@[simp] theorem State.modPsg_cur (f : Psg → Psg) (s : State) : (s.modPsg f).cur = s.cur := rfl
@[simp] theorem State.modPsg_result (f : Psg → Psg) (s : State) : (s.modPsg f).result = s.result := rfl

/-! ### `push` -/

@[simp] theorem push_cfg (s : State) : (push s).cfg = s.cfg := rfl
@[simp] theorem push_psg (s : State) : (push s).psg = s.psg.writes (pushWrites s.cfg s.slot) := rfl
@[simp] theorem push_slot (s : State) : (push s).slot = uploadedSlots s.slot := rfl
@[simp] theorem push_lastCue (s : State) : (push s).lastCue = s.lastCue := rfl
@[simp] theorem push_stg (s : State) : (push s).stg = s.stg := rfl
@[simp] theorem push_lock (s : State) : (push s).lock = s.lock := rfl
@[simp] theorem push_fault (s : State) : (push s).fault = s.fault := rfl
@[simp] theorem push_refused (s : State) : (push s).refused = s.refused := rfl
@[simp] theorem push_cmds (s : State) : (push s).cmds = s.cmds := rfl
@[simp] theorem push_proc (s : State) : (push s).proc = s.proc := rfl
@[simp] theorem push_cur (s : State) : (push s).cur = s.cur := rfl
@[simp] theorem push_result (s : State) : (push s).result = s.result := rfl

/-! ### `refill` -/

@[simp] theorem refill_cfg (s : State) : (refill s).cfg = s.cfg := rfl
@[simp] theorem refill_psg (s : State) : (refill s).psg = (s.psg.update s.cfg s.cfg.spp).1 := rfl
@[simp] theorem refill_slot (s : State) : (refill s).slot = s.slot := rfl
@[simp] theorem refill_lastCue (s : State) : (refill s).lastCue = s.lastCue := rfl
@[simp] theorem refill_stg (s : State) : (refill s).stg = (s.psg.update s.cfg s.cfg.spp).2 := rfl
@[simp] theorem refill_lock (s : State) : (refill s).lock = s.lock := rfl
@[simp] theorem refill_fault (s : State) : (refill s).fault = s.fault := rfl
@[simp] theorem refill_refused (s : State) : (refill s).refused = s.refused := rfl
@[simp] theorem refill_cmds (s : State) : (refill s).cmds = s.cmds := rfl
@[simp] theorem refill_proc (s : State) : (refill s).proc = s.proc := rfl
@[simp] theorem refill_cur (s : State) : (refill s).cur = s.cur := rfl
@[simp] theorem refill_result (s : State) : (refill s).result = s.result := rfl

/-! ### `updateBody` -/

@[simp] theorem updateBody_cfg (n : Nat) (s : State) : (updateBody n s).cfg = s.cfg := rfl
@[simp] theorem updateBody_psg (n : Nat) (s : State) :
    (updateBody n s).psg = (s.psg.update s.cfg n).1 := rfl
@[simp] theorem updateBody_slot (n : Nat) (s : State) : (updateBody n s).slot = s.slot := rfl
@[simp] theorem updateBody_lastCue (n : Nat) (s : State) : (updateBody n s).lastCue = s.lastCue := rfl
@[simp] theorem updateBody_stg (n : Nat) (s : State) : (updateBody n s).stg = s.stg := rfl
@[simp] theorem updateBody_lock (n : Nat) (s : State) : (updateBody n s).lock = s.lock := rfl
@[simp] theorem updateBody_fault (n : Nat) (s : State) : (updateBody n s).fault = s.fault := rfl
@[simp] theorem updateBody_refused (n : Nat) (s : State) : (updateBody n s).refused = s.refused := rfl
@[simp] theorem updateBody_cmds (n : Nat) (s : State) : (updateBody n s).cmds = s.cmds := rfl
@[simp] theorem updateBody_proc (n : Nat) (s : State) : (updateBody n s).proc = s.proc := rfl
@[simp] theorem updateBody_cur (n : Nat) (s : State) : (updateBody n s).cur = s.cur := rfl
@[simp] theorem updateBody_result (n : Nat) (s : State) :
    (updateBody n s).result = .frames (s.psg.update s.cfg n).2 := rfl

/-! ### `Slot.advance` -/

@[simp] theorem Slot.advance_active (n : Nat) (S : Slot) : (S.advance n).active = S.active := rfl
@[simp] theorem Slot.advance_countdown (n : Nat) (S : Slot) : (S.advance n).countdown = S.countdown := rfl
@[simp] theorem Slot.advance_durBase (n : Nat) (S : Slot) : (S.advance n).durBase = S.durBase := rfl
@[simp] theorem Slot.advance_transpose (n : Nat) (S : Slot) : (S.advance n).transpose = S.transpose := rfl
@[simp] theorem Slot.advance_basePitch (n : Nat) (S : Slot) : (S.advance n).basePitch = S.basePitch := rfl
@[simp] theorem Slot.advance_pitchBend (n : Nat) (S : Slot) : (S.advance n).pitchBend = S.pitchBend := rfl
@[simp] theorem Slot.advance_volume (n : Nat) (S : Slot) : (S.advance n).volume = S.volume := rfl
@[simp] theorem Slot.advance_envPos (n : Nat) (S : Slot) : (S.advance n).envPos = S.envPos := rfl
@[simp] theorem Slot.advance_envHold (n : Nat) (S : Slot) : (S.advance n).envHold = S.envHold := rfl
@[simp] theorem Slot.advance_envDv (n : Nat) (S : Slot) : (S.advance n).envDv = S.envDv := rfl
@[simp] theorem Slot.advance_envDp (n : Nat) (S : Slot) : (S.advance n).envDp = S.envDp := rfl
@[simp] theorem Slot.advance_envHoldFlag (n : Nat) (S : Slot) :
    (S.advance n).envHoldFlag = S.envHoldFlag := rfl
@[simp] theorem Slot.advance_envSel (n : Nat) (S : Slot) : (S.advance n).envSel = S.envSel := rfl
@[simp] theorem Slot.advance_cursor (n : Nat) (S : Slot) :
    (S.advance n).cursor = S.cursor.map (· + n) := rfl
@[simp] theorem Slot.advance_waveBank (n : Nat) (S : Slot) : (S.advance n).waveBank = S.waveBank := rfl
@[simp] theorem Slot.advance_uploadPending (n : Nat) (S : Slot) :
    (S.advance n).uploadPending = S.uploadPending := rfl
@[simp] theorem Slot.advance_bal (n : Nat) (S : Slot) : (S.advance n).bal = S.bal := rfl
@[simp] theorem Slot.advance_freq (n : Nat) (S : Slot) : (S.advance n).freq = S.freq := rfl

/-! ### `Slot.applySegment` -/

@[simp] theorem Slot.applySegment_active (S : Slot) : S.applySegment.active = S.active := rfl
@[simp] theorem Slot.applySegment_countdown (S : Slot) : S.applySegment.countdown = S.countdown := rfl
@[simp] theorem Slot.applySegment_durBase (S : Slot) : S.applySegment.durBase = S.durBase := rfl
@[simp] theorem Slot.applySegment_transpose (S : Slot) : S.applySegment.transpose = S.transpose := rfl
@[simp] theorem Slot.applySegment_basePitch (S : Slot) : S.applySegment.basePitch = S.basePitch := rfl
@[simp] theorem Slot.applySegment_pitchBend (S : Slot) :
    S.applySegment.pitchBend = S.pitchBend + sext8 S.envDp := rfl
@[simp] theorem Slot.applySegment_volume (S : Slot) :
    S.applySegment.volume = BitVec.ofInt 5 (clamp ((S.volume.toNat : Int) + sext8 S.envDv) 0 31) := rfl
@[simp] theorem Slot.applySegment_envPos (S : Slot) : S.applySegment.envPos = S.envPos := rfl
@[simp] theorem Slot.applySegment_envHold (S : Slot) : S.applySegment.envHold = S.envHold - 1 := rfl
@[simp] theorem Slot.applySegment_envDv (S : Slot) : S.applySegment.envDv = S.envDv := rfl
@[simp] theorem Slot.applySegment_envDp (S : Slot) : S.applySegment.envDp = S.envDp := rfl
@[simp] theorem Slot.applySegment_envHoldFlag (S : Slot) : S.applySegment.envHoldFlag = S.envHoldFlag := rfl
@[simp] theorem Slot.applySegment_envSel (S : Slot) : S.applySegment.envSel = S.envSel := rfl
@[simp] theorem Slot.applySegment_cursor (S : Slot) : S.applySegment.cursor = S.cursor := rfl
@[simp] theorem Slot.applySegment_waveBank (S : Slot) : S.applySegment.waveBank = S.waveBank := rfl
@[simp] theorem Slot.applySegment_uploadPending (S : Slot) :
    S.applySegment.uploadPending = S.uploadPending := rfl
@[simp] theorem Slot.applySegment_bal (S : Slot) : S.applySegment.bal = S.bal := rfl
@[simp] theorem Slot.applySegment_freq (S : Slot) : S.applySegment.freq = S.freq := rfl

/-! ### `Slot.loadSegment` -/

@[simp] theorem Slot.loadSegment_active (dv dp hold : Byte) (len : Nat) (S : Slot) :
    (S.loadSegment dv dp hold len).active = S.active := rfl
@[simp] theorem Slot.loadSegment_countdown (dv dp hold : Byte) (len : Nat) (S : Slot) :
    (S.loadSegment dv dp hold len).countdown = S.countdown := rfl
@[simp] theorem Slot.loadSegment_durBase (dv dp hold : Byte) (len : Nat) (S : Slot) :
    (S.loadSegment dv dp hold len).durBase = S.durBase := rfl
@[simp] theorem Slot.loadSegment_transpose (dv dp hold : Byte) (len : Nat) (S : Slot) :
    (S.loadSegment dv dp hold len).transpose = S.transpose := rfl
@[simp] theorem Slot.loadSegment_basePitch (dv dp hold : Byte) (len : Nat) (S : Slot) :
    (S.loadSegment dv dp hold len).basePitch = S.basePitch := rfl
@[simp] theorem Slot.loadSegment_pitchBend (dv dp hold : Byte) (len : Nat) (S : Slot) :
    (S.loadSegment dv dp hold len).pitchBend = S.pitchBend := rfl
@[simp] theorem Slot.loadSegment_volume (dv dp hold : Byte) (len : Nat) (S : Slot) :
    (S.loadSegment dv dp hold len).volume = S.volume := rfl
@[simp] theorem Slot.loadSegment_envPos (dv dp hold : Byte) (len : Nat) (S : Slot) :
    (S.loadSegment dv dp hold len).envPos = S.envPos.map (· + len) := rfl
@[simp] theorem Slot.loadSegment_envHold (dv dp hold : Byte) (len : Nat) (S : Slot) :
    (S.loadSegment dv dp hold len).envHold = hold := rfl
@[simp] theorem Slot.loadSegment_envDv (dv dp hold : Byte) (len : Nat) (S : Slot) :
    (S.loadSegment dv dp hold len).envDv = dv := rfl
@[simp] theorem Slot.loadSegment_envDp (dv dp hold : Byte) (len : Nat) (S : Slot) :
    (S.loadSegment dv dp hold len).envDp = dp := rfl
@[simp] theorem Slot.loadSegment_envHoldFlag (dv dp hold : Byte) (len : Nat) (S : Slot) :
    (S.loadSegment dv dp hold len).envHoldFlag = S.envHoldFlag := rfl
@[simp] theorem Slot.loadSegment_envSel (dv dp hold : Byte) (len : Nat) (S : Slot) :
    (S.loadSegment dv dp hold len).envSel = S.envSel := rfl
@[simp] theorem Slot.loadSegment_cursor (dv dp hold : Byte) (len : Nat) (S : Slot) :
    (S.loadSegment dv dp hold len).cursor = S.cursor := rfl
@[simp] theorem Slot.loadSegment_waveBank (dv dp hold : Byte) (len : Nat) (S : Slot) :
    (S.loadSegment dv dp hold len).waveBank = S.waveBank := rfl
@[simp] theorem Slot.loadSegment_uploadPending (dv dp hold : Byte) (len : Nat) (S : Slot) :
    (S.loadSegment dv dp hold len).uploadPending = S.uploadPending := rfl
@[simp] theorem Slot.loadSegment_bal (dv dp hold : Byte) (len : Nat) (S : Slot) :
    (S.loadSegment dv dp hold len).bal = S.bal := rfl
@[simp] theorem Slot.loadSegment_freq (dv dp hold : Byte) (len : Nat) (S : Slot) :
    (S.loadSegment dv dp hold len).freq = S.freq := rfl

/-! ### `Psg.writeSel` -/

@[simp] theorem Psg.writeSel_sel (v : Byte) (p : Psg) : (p.writeSel v).sel = selBits v := rfl
@[simp] theorem Psg.writeSel_gbal (v : Byte) (p : Psg) : (p.writeSel v).gbal = p.gbal := rfl
@[simp] theorem Psg.writeSel_ch (v : Byte) (p : Psg) : (p.writeSel v).ch = p.ch := rfl

/-! ### `Psg.writeGbal` -/

@[simp] theorem Psg.writeGbal_sel (v : Byte) (p : Psg) : (p.writeGbal v).sel = p.sel := rfl
@[simp] theorem Psg.writeGbal_gbal (v : Byte) (p : Psg) : (p.writeGbal v).gbal = v := rfl
@[simp] theorem Psg.writeGbal_ch (v : Byte) (p : Psg) : (p.writeGbal v).ch = p.ch := rfl

/-! ### `Psg.modSelected` -/

@[simp] theorem Psg.modSelected_sel (f : Channel → Channel) (p : Psg) : (p.modSelected f).sel = p.sel := rfl
@[simp] theorem Psg.modSelected_gbal (f : Channel → Channel) (p : Psg) :
    (p.modSelected f).gbal = p.gbal := rfl
@[simp] theorem Psg.modSelected_ch (f : Channel → Channel) (p : Psg) :
    (p.modSelected f).ch = p.ch.set p.sel.toNat (f p.selected) := rfl

/-! ### `Psg.writeIgnored` -/

@[simp] theorem Psg.writeIgnored_sel (v : Byte) (p : Psg) : (p.writeIgnored v).sel = p.sel := rfl
@[simp] theorem Psg.writeIgnored_gbal (v : Byte) (p : Psg) : (p.writeIgnored v).gbal = p.gbal := rfl
@[simp] theorem Psg.writeIgnored_ch (v : Byte) (p : Psg) : (p.writeIgnored v).ch = p.ch := rfl

/-! ### `Channel.writeCtrl` -/

@[simp] theorem Channel.writeCtrl_freq (v : Byte) (C : Channel) : (C.writeCtrl v).freq = C.freq := rfl
@[simp] theorem Channel.writeCtrl_ctrl (v : Byte) (C : Channel) : (C.writeCtrl v).ctrl = v := rfl
@[simp] theorem Channel.writeCtrl_bal (v : Byte) (C : Channel) : (C.writeCtrl v).bal = C.bal := rfl
@[simp] theorem Channel.writeCtrl_wave (v : Byte) (C : Channel) : (C.writeCtrl v).wave = C.wave := rfl
@[simp] theorem Channel.writeCtrl_index (v : Byte) (C : Channel) :
    (C.writeCtrl v).index = if ddaFalls C.ctrl v then 0 else C.index := rfl
@[simp] theorem Channel.writeCtrl_dda (v : Byte) (C : Channel) : (C.writeCtrl v).dda = C.dda := rfl
@[simp] theorem Channel.writeCtrl_counter (v : Byte) (C : Channel) :
    (C.writeCtrl v).counter = C.counter := rfl

end Sys2Proof.Machine
end

