-- ==== Sys2Proof/Laws/Ops.lean ====
section
/-! SUPPORT. What each shared operation can do, said once: marks and sequencing, the frame of a command and of
a stream instruction, the slot being processed, the selected channel, and the loops. -/

namespace Sys2Proof.Machine

/-! ### Marks -/

theorem stuckOutcome_eq_none {s : State} : s.stuckOutcome = none ↔ Running s := by
  unfold State.stuckOutcome Running
  cases s.fault <;> cases s.refused <;> simp

theorem stopped_eq_false {s : State} : s.stopped = false ↔ Running s := by
  simp [State.stopped, Running]

theorem stopped_eq_true {s : State} : s.stopped = true ↔ ¬ Running s := by
  rw [← stopped_eq_false]; simp

theorem stuckOutcome_fault {s : State} {f : FaultRecord} (h : s.fault = some f) :
    s.stuckOutcome = some (.fault (.raised f)) := by simp [State.stuckOutcome, h]

theorem stuckOutcome_refused {s : State} {r : RefusalRecord} (hf : s.fault = none) (h : s.refused = some r) :
    s.stuckOutcome = some (.refused (.raised r)) := by simp [State.stuckOutcome, hf, h]

/-! ### Sequencing -/

theorem andThen_running {s : State} (h : Running s) (f : State → State) : s.andThen f = f s := by
  simp [State.andThen, stopped_eq_false.2 h]

theorem andThen_stopped {s : State} (h : ¬ Running s) (f : State → State) : s.andThen f = s := by
  simp [State.andThen, stopped_eq_true.2 h]

theorem andThen_cases (s : State) (f : State → State) :
    (Running s ∧ s.andThen f = f s) ∨ (¬ Running s ∧ s.andThen f = s) := by
  by_cases h : Running s
  · exact .inl ⟨h, andThen_running h f⟩
  · exact .inr ⟨h, andThen_stopped h f⟩

/-- A property that holds of `s` and that `f` keeps on a running state holds after `s.andThen f`. -/
theorem andThen_keeps {P : State → Prop} {s : State} {f : State → State} (hs : P s)
    (hf : Running s → P s → P (f s)) : P (s.andThen f) := by
  obtain ⟨h, e⟩ | ⟨_, e⟩ := andThen_cases s f
  · rw [e]; exact hf h hs
  · rw [e]; exact hs

/-! ### Commands and stream instructions -/

theorem command_ready (body : State → State) {s : State} (h : Ready s) :
    command body s = .next (endCommand (body (beginCommand s))) := by
  simp [command, stuckOutcome_eq_none.2 h.1, h.2.1]

theorem command_next {body : State → State} {s t : State} (h : command body s = .next t) :
    Running s ∧ s.lock = .free ∧ t = endCommand (body (beginCommand s)) := by
  unfold command at h
  cases hs : s.stuckOutcome with
  | some o =>
    rw [hs] at h
    simp only [State.stuckOutcome] at hs
    cases hf : s.fault <;> cases hr : s.refused <;> rw [hf] at hs <;> simp_all
  | none =>
    rw [hs] at h
    cases hl : s.lock with
    | free => rw [hl] at h; exact ⟨stuckOutcome_eq_none.1 hs, rfl, by simpa using h.symm⟩
    | held => rw [hl] at h; cases h

theorem streamInstr_running (body : State → State) {s : State} (h : Running s) :
    streamInstr body s = .next (body s) := by
  simp [streamInstr, stuckOutcome_eq_none.2 h]

theorem streamInstr_next {body : State → State} {s t : State} (h : streamInstr body s = .next t) :
    Running s ∧ t = body s := by
  unfold streamInstr at h
  cases hs : s.stuckOutcome with
  | some o =>
    rw [hs] at h
    simp only [State.stuckOutcome] at hs
    cases hf : s.fault <;> cases hr : s.refused <;> rw [hf] at hs <;> simp_all
  | none => rw [hs] at h; exact ⟨stuckOutcome_eq_none.1 hs, by simpa using h.symm⟩

/-- A ready block after a command whose body keeps the marks clear and returns nothing. -/
theorem endCommand_running {s : State} (h : Running s) :
    endCommand s = { s with lock := .free, proc := .commands } := by
  simp [endCommand, stopped_eq_false.2 h]

theorem endCommand_stopped {s : State} (h : ¬ Running s) :
    endCommand s = { s with lock := .free, proc := .commands, result := .nothing } := by
  simp [endCommand, stopped_eq_true.2 h]

/-! ### The slot being processed -/

@[simp] theorem slotIndex_val (k : AudioSlot) : (slotIndex k).val = k.val := rfl

theorem slotIndex_ne {k j : AudioSlot} (h : k ≠ j) : (slotIndex k).val ≠ (slotIndex j).val := by
  simpa [Fin.ext_iff] using h

@[simp] theorem modSlot_slotNow (f : Slot → Slot) (s : State) : (s.modSlot f).slotNow = f s.slotNow := by
  simp [State.modSlot, State.slotNow]

theorem modSlot_slot_other (f : Slot → Slot) (s : State) {k : Fin 12} (h : k ≠ slotIndex s.cur) :
    (s.modSlot f).slot[k] = s.slot[k] := by
  have : (slotIndex s.cur).val ≠ k.val := fun e => h (Fin.ext e.symm)
  simpa [State.modSlot] using Vector.getElem_set_ne (xs := s.slot) (x := f s.slotNow)
    (slotIndex s.cur).isLt k.isLt this

theorem modSlot_modSlot (f g : Slot → Slot) (s : State) :
    (s.modSlot f).modSlot g = s.modSlot (g ∘ f) := by
  simp [State.modSlot, State.slotNow]

/-! ### The selected channel -/

@[simp] theorem modSelected_selected (f : Channel → Channel) (p : Psg) :
    (p.modSelected f).selected = f p.selected := by
  simp [Psg.modSelected, Psg.selected]

theorem modSelected_ch_other (f : Channel → Channel) (p : Psg) {k : Fin 8} (h : k.val ≠ p.sel.toNat) :
    (p.modSelected f).ch[k] = p.ch[k] := by
  simpa [Psg.modSelected] using Vector.getElem_set_ne (xs := p.ch) (x := f p.selected)
    p.sel.isLt k.isLt (Ne.symm h)

theorem modSelected_modSelected (f g : Channel → Channel) (p : Psg) :
    (p.modSelected f).modSelected g = p.modSelected (g ∘ f) := by
  simp [Psg.modSelected, Psg.selected]

@[simp] theorem writes_nil (p : Psg) : p.writes [] = p := rfl

@[simp] theorem writes_cons (w : BitVec 4 × Byte) (ws : List (BitVec 4 × Byte)) (p : Psg) :
    p.writes (w :: ws) = (p.write w.1 w.2).writes ws := rfl

theorem writes_append (ws vs : List (BitVec 4 × Byte)) (p : Psg) :
    p.writes (ws ++ vs) = (p.writes ws).writes vs := by simp [Psg.writes]

/-! ### The loops -/

/-- What every turn keeps, the fetch loop keeps. -/
theorem fetchLoop_keeps {P : State → Prop} (h : ∀ s, P s → P (eventTurn s)) :
    ∀ (n : Nat) (s : State), P s → P (fetchLoop n s) := by
  intro n
  induction n with
  | zero => exact fun s hs => hs
  | succ n ih =>
    intro s hs
    simp only [fetchLoop]
    split
    · exact h s hs
    · exact ih _ (h s hs)

/-- What every turn keeps, the segment loop keeps. -/
theorem envLoop_keeps {P : State → Prop} (h : ∀ s, P s → P (envTurn s)) :
    ∀ (n : Nat) (s : State), P s → P (envLoop n s) := by
  intro n
  induction n with
  | zero => exact fun s hs => hs
  | succ n ih =>
    intro s hs
    simp only [envLoop]
    split
    · exact h s hs
    · exact ih _ (h s hs)

/-- What the step of every slot keeps, phase A keeps. -/
theorem phaseA_keeps {P : State → Prop} (h : ∀ k s, P s → P (slotStep k s)) (s : State) (hs : P s) :
    P (phaseA s) := by
  have : ∀ (ks : List AudioSlot) (s : State), P s → P (ks.foldl (fun s k => s.andThen (slotStep k)) s) := by
    intro ks
    induction ks with
    | nil => exact fun s hs => hs
    | cons k ks ih => exact fun s hs => ih _ (andThen_keeps hs fun _ => h k s)
  exact this _ s hs

end Sys2Proof.Machine
end

