-- ==== Sys2Proof/Laws/Push.lean ====
section
/-! SUPPORT. The push: what a sequence of register writes does to the selected channel, and how the audio slots
are replaced one by one. -/

namespace Sys2Proof.Machine

/-! ### The audio slots, one by one -/

theorem audioSlots_mem (k : AudioSlot) : k ∈ audioSlots := by revert k; decide

/-- Replacing the audio slots in turn, each from its own value, replaces every audio slot. -/
theorem foldl_audioSlots_get (f : AudioSlot → Slot → Slot) (v : Vector Slot 12) (k : AudioSlot) :
    (audioSlots.foldl (fun v k => v.set (slotIndex k) (f k v[slotIndex k])) v)[slotIndex k] =
      f k v[slotIndex k] := by
  fin_cases k <;> simp [audioSlots, slotIndex]

/-- Replacing the audio slots in turn keeps the shadow slots. -/
theorem foldl_audioSlots_shadow (f : AudioSlot → Slot → Slot) (v : Vector Slot 12) (k : Fin 12)
    (hk : 6 ≤ k.val) :
    (audioSlots.foldl (fun v k => v.set (slotIndex k) (f k v[slotIndex k])) v)[k] = v[k] := by
  have h (j : Nat) (hj : j < 6) : j ≠ k.val := by omega
  simp [audioSlots, slotIndex, Vector.getElem_set_ne, h]

theorem uploadedSlots_get (v : Vector Slot 12) (k : AudioSlot) :
    (uploadedSlots v)[slotIndex k] = (v[slotIndex k]).uploaded :=
  foldl_audioSlots_get (fun _ S => S.uploaded) v k

theorem uploadedSlots_shadow (v : Vector Slot 12) (k : Fin 12) (hk : 6 ≤ k.val) :
    (uploadedSlots v)[k] = v[k] :=
  foldl_audioSlots_shadow (fun _ S => S.uploaded) v k hk

theorem startedSlots_get (c : Config) (offs : Vector (Option Nat) 6) (v : Vector Slot 12) (k : AudioSlot) :
    (startedSlots c offs v)[slotIndex k] = startSlot c offs[k] :=
  foldl_audioSlots_get (fun k _ => startSlot c offs[k]) v k

theorem startedSlots_shadow (c : Config) (offs : Vector (Option Nat) 6) (v : Vector Slot 12) (k : Fin 12)
    (hk : 6 ≤ k.val) : (startedSlots c offs v)[k] = v[k] :=
  foldl_audioSlots_shadow (fun k _ => startSlot c offs[k]) v k hk

/-- An audio slot or a shadow slot. -/
theorem slot_index_cases (k : Fin 12) : (∃ j : AudioSlot, k = slotIndex j) ∨ 6 ≤ k.val := by
  by_cases h : k.val < 6
  · exact .inl ⟨⟨k.val, h⟩, rfl⟩
  · exact .inr (by omega)

/-! ### Register writes to the selected channel -/

/-- A register write as the change of one channel that it is, for the offsets 2 to 6. -/
def Channel.write (off : BitVec 4) (v : Byte) (C : Channel) : Channel :=
  if off = 2 then { C with freq := setFreqLo C.freq v }
  else if off = 3 then { C with freq := setFreqHi C.freq v }
  else if off = 4 then C.writeCtrl v
  else if off = 5 then { C with bal := v }
  else if off = 6 then C.writeData v
  else C

/-- Channel writes in order. -/
def Channel.writes (ws : List (BitVec 4 × Byte)) (C : Channel) : Channel :=
  ws.foldl (fun C w => C.write w.1 w.2) C

theorem channel_writes_append (ws vs : List (BitVec 4 × Byte)) (C : Channel) :
    C.writes (ws ++ vs) = (C.writes ws).writes vs := by simp [Channel.writes]

theorem modSelected_id (p : Psg) : p.modSelected (fun C => C) = p := by
  cases p
  simp [Psg.modSelected, Psg.selected]

/-- A write to an offset other than 0 and 1 changes the selected channel and nothing else. -/
theorem write_channel (off : BitVec 4) (v : Byte) (p : Psg) (h0 : off ≠ 0) (h1 : off ≠ 1) :
    p.write off v = p.modSelected (Channel.write off v) := by
  unfold Psg.write
  rw [if_neg h0, if_neg h1]
  unfold Channel.write
  split_ifs <;>
    first
    | rfl
    | exact (modSelected_id p).symm

/-- Writes to offsets other than 0 and 1 change the selected channel and nothing else. -/
theorem writes_channel (ws : List (BitVec 4 × Byte)) (p : Psg) (h : ∀ w ∈ ws, w.1 ≠ 0 ∧ w.1 ≠ 1) :
    p.writes ws = p.modSelected (Channel.writes ws) := by
  induction ws generalizing p with
  | nil => exact (modSelected_id p).symm
  | cons w ws ih =>
    rw [writes_cons, write_channel _ _ _ (h w (by simp)).1 (h w (by simp)).2,
      ih _ fun x hx => h x (by simp [hx]), modSelected_modSelected]
    rfl

/-- A register write never moves a phase accumulator. -/
theorem channel_write_counter (off : BitVec 4) (v : Byte) (C : Channel) :
    (C.write off v).counter = C.counter := by
  unfold Channel.write Channel.writeData
  split_ifs <;> try rfl
  split <;> rfl

/-- With `DDA` clear a data write fills the entry at `index` and advances it. -/
theorem writeData_of_dda_clear {C : Channel} (h : ctrlDda C.ctrl = false) (v : Byte) :
    C.writeData v = { C with wave := C.wave.set C.index.toNat (sampleBits v), index := C.index + 1 } := by
  unfold Channel.writeData ctrlMode
  rw [h]
  cases ctrlEn C.ctrl <;> rfl

/-- A run of data writes with `DDA` clear: the index moves by their number, and up to 32 of them fill the
entries from the index on, in order. -/
theorem data_writes {C : Channel} (h : ctrlDda C.ctrl = false) (vs : List Byte) :
    C.writes (vs.map fun v => (6, v)) =
        { C with
          wave := (C.writes (vs.map fun v => (6, v))).wave
          index := BitVec.ofNat 5 (C.index.toNat + vs.length) } ∧
      (vs.length ≤ 32 → ∀ (j : Nat) (hj : j < vs.length) (m : Fin 32), m.val = (C.index.toNat + j) % 32 →
        (C.writes (vs.map fun v => (6, v))).wave[m] = sampleBits vs[j]) := by
  induction vs using List.reverseRecOn with
  | nil => exact ⟨by simp [Channel.writes], by simp⟩
  | append_singleton vs v ih =>
    obtain ⟨e, hw⟩ := ih
    generalize hD : C.writes (vs.map fun v => (6, v)) = D at e hw
    have hc : D.ctrl = C.ctrl := by rw [e]
    have hi : D.index = BitVec.ofNat 5 (C.index.toNat + vs.length) := by rw [e]
    have step : C.writes ((vs ++ [v]).map fun v => (6, v)) =
        { D with wave := D.wave.set D.index.toNat (sampleBits v), index := D.index + 1 } := by
      rw [List.map_append, channel_writes_append, hD]
      exact writeData_of_dda_clear (hc ▸ h) v
    rw [step]
    refine ⟨?_, fun hl j hj m hm => ?_⟩
    · have : D.index + 1 = BitVec.ofNat 5 (C.index.toNat + (vs ++ [v]).length) := by
        rw [hi]
        apply BitVec.eq_of_toNat_eq
        simp
        omega
      rw [← this, e]
    · have hn : D.index.toNat = (C.index.toNat + vs.length) % 32 := by rw [hi]; simp
      rw [List.length_append, List.length_singleton] at hl hj
      by_cases hj' : j = vs.length
      · subst hj'
        have : D.index.toNat = m.val := by omega
        simp [this]
      · have hlt : j < vs.length := by omega
        have : D.index.toNat ≠ m.val := by omega
        simp [Vector.getElem_set_ne, this, List.getElem_append_left hlt]
        exact hw (by omega) j hlt m hm

/-! ### The push -/

/-- `Upload` fills the waveform of the selected channel with the bank from entry 0 on, whatever its mode and
its index were, and leaves its control byte 0. -/
theorem upload_writes (c : Config) (S : Slot) (C : Channel) (hb : S.waveBank < c.nWaves) :
    C.writes (uploadWrites c S) = { C with ctrl := 0, index := 0, wave := bankWave c S.waveBank } := by
  obtain ⟨b, hb⟩ : ∃ b, c.waveBank[S.waveBank]? = some b := ⟨_, List.getElem?_eq_getElem hb⟩
  have hbytes : bankBytes c S.waveBank = b.toList.map (BitVec.ofNat 8) := by simp [bankBytes, hb]
  have hwave : bankWave c S.waveBank = b.map (BitVec.ofNat 5) := by simp [bankWave, hb]
  have h0 : C.writes [(4, 0x40), (4, 0x00)] = { C with ctrl := 0, index := 0 } := by
    simp [Channel.writes, Channel.write, Channel.writeCtrl, ddaFalls, ctrlDda]
  rw [uploadWrites, channel_writes_append, h0, hbytes, hwave]
  have hD : ctrlDda ({ C with ctrl := 0, index := 0 } : Channel).ctrl = false := by
    simp [ctrlDda]
  obtain ⟨e, hw⟩ := data_writes hD (b.toList.map (BitVec.ofNat 8))
  rw [e]
  have hlen : (b.toList.map (BitVec.ofNat 8)).length = 32 := by simp
  have hidx : BitVec.ofNat 5 (({ C with ctrl := 0, index := 0 } : Channel).index.toNat +
      (b.toList.map (BitVec.ofNat 8)).length) = 0 := by rw [hlen]; simp
  have hwave : (Channel.writes ((b.toList.map (BitVec.ofNat 8)).map fun v => (6, v))
      { C with ctrl := 0, index := 0 }).wave = b.map (BitVec.ofNat 5) := by
    ext m hm : 1
    have := hw hlen.le m (by rw [hlen]; exact hm) ⟨m, hm⟩ (by simp; omega)
    simp only [Fin.getElem_fin] at this
    rw [this]
    simp only [List.getElem_map, Vector.getElem_toList, Vector.getElem_map, sampleBits]
    apply BitVec.eq_of_toNat_eq
    simp
  rw [hidx, hwave]

theorem freqBytes_spell (old f : BitVec 12) :
    setFreqHi (setFreqLo old (freqLoByte f)) (freqHiByte f) = f := by
  simp only [setFreqHi, setFreqLo, freqLoByte, freqHiByte]
  apply BitVec.eq_of_getLsbD_eq
  intro i hi
  rw [BitVec.getLsbD_append, BitVec.getLsbD_extractLsb', BitVec.getLsbD_extractLsb', BitVec.getLsbD_append,
    BitVec.getLsbD_setWidth]
  simp only [BitVec.getLsbD_extractLsb']
  interval_cases i <;> simp

/-- The writes of a slot after its selection, as the change of its channel. -/
theorem slot_channel_writes (c : Config) (k : AudioSlot) (S : Slot) (C : Channel)
    (hb : S.active = true → S.uploadPending = true → S.waveBank < c.nWaves) :
    C.writes (slotWrites c k S).tail = pushedChannel c S C := by
  have hend (D : Channel) :
      D.writes [(2, freqLoByte S.freq), (3, freqHiByte S.freq), (5, S.bal), (4, playCtrl S.volume)] =
        { D with freq := S.freq, bal := S.bal, ctrl := playCtrl S.volume
                 index := if ctrlDda D.ctrl then 0 else D.index } := by
    have : ctrlDda (playCtrl S.volume) = false := by
      generalize S.volume = v
      revert v
      decide
    simp [Channel.writes, Channel.write, Channel.writeCtrl, freqBytes_spell, ddaFalls, this]
  cases ha : S.active with
  | false =>
    simp [slotWrites, pushedChannel, ha, Channel.writes, Channel.write, Channel.writeCtrl, ddaFalls]
    simp [ctrlDda]
  | true =>
    cases hu : S.uploadPending with
    | false =>
      simp only [slotWrites, ha, hu, List.tail_cons, if_true, Bool.false_eq_true, if_false, List.nil_append]
      rw [hend C]
      simp [pushedChannel, ha, hu]
    | true =>
      simp only [slotWrites, ha, hu, List.tail_cons, if_true]
      rw [channel_writes_append, upload_writes c S C (hb ha hu), hend]
      simp [pushedChannel, ha, hu]

/-- The writes of a slot after its selection go to the selected channel. -/
theorem slotWrites_tail_channel (c : Config) (k : AudioSlot) (S : Slot) :
    ∀ w ∈ (slotWrites c k S).tail, w.1 ≠ 0 ∧ w.1 ≠ 1 := by
  intro w hw
  simp only [slotWrites, uploadWrites, List.tail_cons] at hw
  split_ifs at hw <;> simp at hw
  · obtain rfl | rfl | ⟨v, _, rfl⟩ | rfl | rfl | rfl | rfl := hw <;> simp
  · obtain rfl | rfl | rfl | rfl := hw <;> simp
  · subst hw; simp

/-- The push of one slot, whatever bank it names: it selects the slot's channel and changes that channel alone. -/
theorem slot_writes_channel (c : Config) (k : AudioSlot) (S : Slot) (p : Psg) :
    p.writes (slotWrites c k S) =
      { p with sel := BitVec.ofNat 3 k.val
               ch := p.ch.set (slotChannel k) ((p.ch[slotChannel k]).writes (slotWrites c k S).tail) } := by
  have hsel : selBits (BitVec.ofNat 8 k.val) = BitVec.ofNat 3 k.val := by revert k; decide
  have hk : (BitVec.ofNat 3 k.val).toNat = (slotChannel k).val := by revert k; decide
  have e : slotWrites c k S = (0, BitVec.ofNat 8 k.val) :: (slotWrites c k S).tail := rfl
  rw [e, writes_cons, writes_channel _ _ (slotWrites_tail_channel c k S)]
  simp only [Psg.write, if_true, Psg.writeSel, hsel, Psg.modSelected, Psg.selected, hk]
  rfl

/-- The push of one slot that names an existing bank where it uploads one. -/
theorem slot_writes (c : Config) (k : AudioSlot) (S : Slot) (p : Psg)
    (hb : S.active = true → S.uploadPending = true → S.waveBank < c.nWaves) :
    p.writes (slotWrites c k S) =
      { p with sel := BitVec.ofNat 3 k.val
               ch := p.ch.set (slotChannel k) (pushedChannel c S p.ch[slotChannel k]) } := by
  rw [slot_writes_channel, slot_channel_writes c k S _ hb]

/-- Register writes to a channel never move its phase accumulator. -/
theorem channel_writes_counter (ws : List (BitVec 4 × Byte)) (C : Channel) : (C.writes ws).counter = C.counter := by
  induction ws generalizing C with
  | nil => rfl
  | cons w ws ih => exact (ih _).trans (channel_write_counter w.1 w.2 C)

/-- The whole push, slot by slot, whatever banks the slots name. -/
theorem pushWrites_channels (c : Config) (slots : Vector Slot 12) (p : Psg) :
    p.writes (pushWrites c slots) =
      { sel := 5
        gbal := c.globalBalPush
        ch := audioSlots.foldl (fun v k =>
          v.set (slotChannel k) ((v[slotChannel k]).writes (slotWrites c k slots[slotIndex k]).tail)) p.ch } := by
  simp only [pushWrites, writes_cons, audioSlots, List.flatMap_cons, List.flatMap_nil, writes_append, writes_nil,
    slot_writes_channel, List.foldl_cons, List.foldl_nil]
  rfl

/-! ### Channels 6 and 7 -/

@[simp] theorem withSpare_cfg (C6 C7 : Channel) (s : State) : (s.withSpare C6 C7).cfg = s.cfg := rfl
@[simp] theorem withSpare_slot (C6 C7 : Channel) (s : State) : (s.withSpare C6 C7).slot = s.slot := rfl
@[simp] theorem withSpare_lastCue (C6 C7 : Channel) (s : State) : (s.withSpare C6 C7).lastCue = s.lastCue := rfl
@[simp] theorem withSpare_stg (C6 C7 : Channel) (s : State) : (s.withSpare C6 C7).stg = s.stg := rfl
@[simp] theorem withSpare_lock (C6 C7 : Channel) (s : State) : (s.withSpare C6 C7).lock = s.lock := rfl
@[simp] theorem withSpare_fault (C6 C7 : Channel) (s : State) : (s.withSpare C6 C7).fault = s.fault := rfl
@[simp] theorem withSpare_refused (C6 C7 : Channel) (s : State) : (s.withSpare C6 C7).refused = s.refused := rfl
@[simp] theorem withSpare_cmds (C6 C7 : Channel) (s : State) : (s.withSpare C6 C7).cmds = s.cmds := rfl
@[simp] theorem withSpare_proc (C6 C7 : Channel) (s : State) : (s.withSpare C6 C7).proc = s.proc := rfl
@[simp] theorem withSpare_cur (C6 C7 : Channel) (s : State) : (s.withSpare C6 C7).cur = s.cur := rfl
@[simp] theorem withSpare_result (C6 C7 : Channel) (s : State) : (s.withSpare C6 C7).result = s.result := rfl

/-- Only channels 6 and 7 are replaced. -/
theorem withSpare_ch (C6 C7 : Channel) (s : State) (k : Fin 8) :
    (s.withSpare C6 C7).psg.ch[k] = if k = 7 then C7 else if k = 6 then C6 else s.psg.ch[k] := by
  fin_cases k <;> simp [State.withSpare]

/-- A change of the selected channel, on two cores that differ in channels 6 and 7 only. -/
theorem modSelected_spare (f : Channel → Channel) (p : Psg) (C6 C7 : Channel) :
    ∃ D6 D7, ({ p with ch := (p.ch.set 6 C6).set 7 C7 } : Psg).modSelected f =
      { p.modSelected f with ch := ((p.modSelected f).ch.set 6 D6).set 7 D7 } := by
  have hsel := p.sel.isLt
  obtain h7 | h6 | h : p.sel.toNat = 7 ∨ p.sel.toNat = 6 ∨ p.sel.toNat < 6 := by omega
  · refine ⟨C6, f C7, ?_⟩
    simp only [Psg.modSelected, Psg.selected, h7]
    congr 1
    ext i hi : 1
    simp only [Vector.getElem_set]
    split_ifs <;> rfl
  · refine ⟨f C6, C7, ?_⟩
    simp only [Psg.modSelected, Psg.selected, h6]
    congr 1
    ext i hi : 1
    simp only [Vector.getElem_set]
    split_ifs <;> first | rfl | omega
  · refine ⟨C6, C7, ?_⟩
    simp only [Psg.modSelected, Psg.selected]
    congr 1
    ext i hi : 1
    simp only [Vector.getElem_set]
    split_ifs <;> first | rfl | omega

/-- A register write on two cores that differ in channels 6 and 7 only leaves two that differ there only. -/
theorem write_spare (off : BitVec 4) (v : Byte) (p : Psg) (C6 C7 : Channel) :
    ∃ D6 D7, ({ p with ch := (p.ch.set 6 C6).set 7 C7 } : Psg).write off v =
      { p.write off v with ch := ((p.write off v).ch.set 6 D6).set 7 D7 } := by
  unfold Psg.write
  split_ifs <;> first | exact modSelected_spare _ p C6 C7 | exact ⟨C6, C7, rfl⟩

end Sys2Proof.Machine
end

