-- ==== Sys2Proof/Laws/Sequencer.lean ====
section
/-! SUPPORT. What phase A of a tick can do: it changes the audio slots, the slot being processed and the marks,
and a slot only evolves forwards. -/

namespace Sys2Proof.Machine

/-- How a slot may change in phase A: it is not activated, its cursor only moves forwards and stays in the
stream, NULL stays NULL, its bank stays an existing one, and `envSel` and `bal` stay. -/
structure Evolves (c : Config) (S S' : Slot) : Prop where
  active : S'.active = true → S.active = true
  envSel : S'.envSel = S.envSel
  bal : S'.bal = S.bal
  null : S.cursor = none → S'.cursor = none
  moves : ∀ i, S.cursor = some i → ∃ j, S'.cursor = some j ∧ i ≤ j
  inside : S.cursor.getD 0 ≤ c.eventData.length → S'.cursor.getD 0 ≤ c.eventData.length
  bank : S.waveBank < c.nWaves → S'.waveBank < c.nWaves

theorem Evolves.rfl {c : Config} {S : Slot} : Evolves c S S :=
  ⟨id, Eq.refl _, Eq.refl _, id, fun i h => ⟨i, h, Nat.le_refl i⟩, id, id⟩

theorem Evolves.trans {c : Config} {S S' S'' : Slot} (h : Evolves c S S') (h' : Evolves c S' S'') :
    Evolves c S S'' where
  active := h.active ∘ h'.active
  envSel := h'.envSel.trans h.envSel
  bal := h'.bal.trans h.bal
  null := h'.null ∘ h.null
  moves i hi := by
    obtain ⟨j, hj, l⟩ := h.moves i hi
    obtain ⟨m, hm, l'⟩ := h'.moves j hj
    exact ⟨m, hm, Nat.le_trans l l'⟩
  inside := h'.inside ∘ h.inside
  bank := h'.bank ∘ h.bank

/-- A change that keeps the cursor, the bank, `envSel` and `bal`, and does not activate. -/
theorem Evolves.of_keeps {c : Config} {S S' : Slot} (ha : S'.active = true → S.active = true)
    (he : S'.envSel = S.envSel) (hb : S'.bal = S.bal) (hc : S'.cursor = S.cursor)
    (hw : S'.waveBank = S.waveBank) : Evolves c S S' :=
  ⟨ha, he, hb, fun h => hc.trans h, fun i h => ⟨i, hc.trans h, Nat.le_refl i⟩, fun h => hc ▸ h, fun h => hw ▸ h⟩

/-- A change that also moves the cursor by `n`, where `n` bytes are left in the stream. -/
theorem Evolves.of_advance {c : Config} {S S' : Slot} (n : Nat) (ha : S'.active = true → S.active = true)
    (he : S'.envSel = S.envSel) (hb : S'.bal = S.bal) (hc : S'.cursor = S.cursor.map (· + n))
    (hw : S.waveBank < c.nWaves → S'.waveBank < c.nWaves)
    (hl : ∀ i, S.cursor = some i → i + n ≤ c.eventData.length) : Evolves c S S' where
  active := ha
  envSel := he
  bal := hb
  null h := by simp [hc, h]
  moves i h := ⟨i + n, by simp [hc, h], Nat.le_add_right i n⟩
  inside h := by
    cases hS : S.cursor with
    | none => simp [hc, hS]
    | some i => simpa [hc, hS] using hl i hS
  bank := hw

/-- What a part of phase A does to the state. -/
structure SeqStep (s t : State) : Prop where
  cfg : t.cfg = s.cfg
  psg : t.psg = s.psg
  lastCue : t.lastCue = s.lastCue
  stg : t.stg = s.stg
  lock : t.lock = s.lock
  cmds : t.cmds = s.cmds
  result : t.result = s.result
  slots : ∀ k : Fin 12, Evolves s.cfg s.slot[k] t.slot[k]
  shadow : ∀ k : Fin 12, 6 ≤ k.val → t.slot[k] = s.slot[k]
  marks : Running s → t.fault = none ∨ t.refused = none

theorem SeqStep.rfl {s : State} : SeqStep s s :=
  ⟨Eq.refl _, Eq.refl _, Eq.refl _, Eq.refl _, Eq.refl _, Eq.refl _, Eq.refl _, fun _ => Evolves.rfl,
    fun _ _ => Eq.refl _, fun h => .inl h.1⟩

theorem SeqStep.trans {s t u : State} (h : SeqStep s t) (ht : Running t) (h' : SeqStep t u) : SeqStep s u where
  cfg := h'.cfg.trans h.cfg
  psg := h'.psg.trans h.psg
  lastCue := h'.lastCue.trans h.lastCue
  stg := h'.stg.trans h.stg
  lock := h'.lock.trans h.lock
  cmds := h'.cmds.trans h.cmds
  result := h'.result.trans h.result
  slots k := (h.slots k).trans (h.cfg ▸ h'.slots k)
  shadow k hk := (h'.shadow k hk).trans (h.shadow k hk)
  marks _ := h'.marks ht

theorem seqStep_raise (f : FaultRecord) (s : State) : SeqStep s (raise f s) :=
  ⟨rfl, rfl, rfl, rfl, rfl, rfl, rfl, fun _ => Evolves.rfl, fun _ _ => rfl, fun h => .inr h.2⟩

theorem seqStep_refuse (r : RefusalRecord) (s : State) : SeqStep s (refuse r s) :=
  ⟨rfl, rfl, rfl, rfl, rfl, rfl, rfl, fun _ => Evolves.rfl, fun _ _ => rfl, fun h => .inl h.1⟩

theorem seqStep_proc (p : Proc) (s : State) : SeqStep s { s with proc := p } :=
  ⟨rfl, rfl, rfl, rfl, rfl, rfl, rfl, fun _ => Evolves.rfl, fun _ _ => rfl, fun h => .inl h.1⟩

theorem seqStep_leaveLoop (s : State) : SeqStep s (leaveLoop s) := seqStep_proc .commands s

theorem seqStep_cur (k : AudioSlot) (s : State) : SeqStep s { s with cur := k } :=
  ⟨rfl, rfl, rfl, rfl, rfl, rfl, rfl, fun _ => Evolves.rfl, fun _ _ => rfl, fun h => .inl h.1⟩

theorem seqStep_modSlot {f : Slot → Slot} {s : State} (h : Evolves s.cfg s.slotNow (f s.slotNow)) :
    SeqStep s (s.modSlot f) where
  cfg := rfl
  psg := rfl
  lastCue := rfl
  stg := rfl
  lock := rfl
  cmds := rfl
  result := rfl
  slots k := by
    by_cases hk : k = slotIndex s.cur
    · subst hk
      have : (s.modSlot f).slot[slotIndex s.cur] = f s.slotNow := modSlot_slotNow f s
      rw [this]; exact h
    · rw [modSlot_slot_other f s hk]; exact Evolves.rfl
  shadow k hk := modSlot_slot_other f s fun e => by
    have := s.cur.isLt
    rw [e, slotIndex_val] at hk
    omega
  marks h := .inl h.1

@[simp] theorem running_modSlot (f : Slot → Slot) (s : State) : Running (s.modSlot f) ↔ Running s := Iff.rfl
@[simp] theorem running_leaveLoop (s : State) : Running (leaveLoop s) ↔ Running s := Iff.rfl

/-- An event the stream holds runs as a part of phase A does. -/
theorem seqStep_runEvent {s : State} (hs : Running s) (e : Event)
    (hl : ∀ i, s.slotNow.cursor = some i → i + (encodeEvent e).length ≤ s.cfg.eventData.length) :
    SeqStep s (runEvent e s) := by
  cases e with
  | note n m =>
    simp only [runEvent, noteBody]
    have h1 : SeqStep s
        (s.modSlot fun S => { S with countdown := s.cfg.duration m S.durBase, basePitch := n }) :=
      seqStep_modSlot (.of_keeps id rfl rfl rfl rfl)
    split
    · exact h1.trans hs (seqStep_raise _ _)
    · refine h1.trans hs ((seqStep_modSlot ?_).trans hs (seqStep_leaveLoop _))
      rw [modSlot_slotNow]
      exact .of_advance 1 id rfl rfl rfl id hl
  | terminate op =>
    exact (seqStep_modSlot (.of_keeps (by simp) rfl rfl rfl rfl)).trans hs (seqStep_leaveLoop _)
  | setTranspose op t =>
    simp only [runEvent, setTransposeBody]
    exact seqStep_modSlot (.of_advance 2 id rfl rfl rfl id hl)
  | setDurationBase op t =>
    simp only [runEvent, setDurationBaseBody]
    exact seqStep_modSlot (.of_advance 2 id rfl rfl rfl id hl)
  | selectWaveformBank op w =>
    simp only [runEvent, selectWaveformBankBody]
    split
    · exact seqStep_raise _ _
    · exact seqStep_modSlot (.of_advance 2 id rfl rfl rfl (fun _ => by simp [Slot.advance]; omega) hl)
  | envHoldOn op =>
    simp only [runEvent, envHoldOnBody]
    exact seqStep_modSlot (.of_advance 1 id rfl rfl rfl id hl)
  | envHoldOff op =>
    simp only [runEvent, envHoldOffBody]
    exact seqStep_modSlot (.of_advance 1 id rfl rfl rfl id hl)
  | unrecognized op =>
    simp only [runEvent, unrecognizedBody]
    exact seqStep_modSlot (.of_advance 1 id rfl rfl rfl id hl)
  | undescribed op => exact seqStep_refuse _ _

/-- An event decoded from a stream takes no more bytes than the stream has. -/
theorem decodeEvent_length {c : Config} {bs : List Byte} {e : Event} (h : decodeEvent c bs = .ok e) :
    (encodeEvent e).length ≤ bs.length := by
  unfold decodeEvent at h
  split at h
  · cases h
  · rename_i b rest
    split at h
    · injection h with h; subst h; simp [encodeEvent]
    · split at h <;> try (injection h with h; subst h; simp [encodeEvent]; done)
      all_goals
        cases rest <;> simp only [withOperand] at h
        · cases h
        · injection h with h; subst h; simp [encodeEvent]

/-- One turn of the fetch loop. -/
theorem seqStep_eventTurn {s : State} (hs : Running s) : SeqStep s (eventTurn s) := by
  unfold eventTurn
  split
  · exact seqStep_raise _ _
  · rename_i e he
    apply seqStep_runEvent hs
    intro i hi
    simp only [State.fetchEvent, hi] at he
    split at he <;> try cases he
    rename_i h'
    have := decodeEvent_length h'
    rw [List.length_drop] at this
    have : 1 ≤ (encodeEvent e).length := by cases e <;> simp [encodeEvent]
    omega

/-- One turn of the segment loop. -/
theorem seqStep_envTurn {s : State} (hs : Running s) : SeqStep s (envTurn s) := by
  unfold envTurn
  split
  · exact seqStep_leaveLoop s
  · split
    · exact (seqStep_modSlot (.of_keeps id rfl rfl rfl rfl)).trans hs (seqStep_leaveLoop _)
    · simp only [envSegBody]
      split
      · exact seqStep_modSlot (.of_keeps id rfl rfl rfl rfl)
      · refine (seqStep_modSlot (.of_keeps id rfl rfl rfl rfl)).trans hs ((seqStep_modSlot ?_).trans hs
          (seqStep_leaveLoop _))
        exact .of_keeps id rfl rfl rfl rfl
    · exact seqStep_raise _ _

theorem seqStep_fetchLoop (n : Nat) {s : State} (hs : Running s) : SeqStep s (fetchLoop n s) := by
  induction n generalizing s with
  | zero => exact SeqStep.rfl
  | succ n ih =>
    simp only [fetchLoop]
    split
    · exact seqStep_eventTurn hs
    · rename_i h
      simp only [Bool.or_eq_true, not_or, Bool.not_eq_true, stopped_eq_false] at h
      exact (seqStep_eventTurn hs).trans h.1 (ih h.1)

theorem seqStep_envLoop (n : Nat) {s : State} (hs : Running s) : SeqStep s (envLoop n s) := by
  induction n generalizing s with
  | zero => exact SeqStep.rfl
  | succ n ih =>
    simp only [envLoop]
    split
    · exact seqStep_envTurn hs
    · rename_i h
      simp only [Bool.or_eq_true, not_or, Bool.not_eq_true, stopped_eq_false] at h
      exact (seqStep_envTurn hs).trans h.1 (ih h.1)

theorem seqStep_noteStep {s : State} (hs : Running s) : SeqStep s (noteStep s) := by
  unfold noteStep
  have h1 : SeqStep s (s.modSlot fun S => { S with countdown := wrap16 (S.countdown.toInt - 1) }) :=
    seqStep_modSlot (.of_keeps id rfl rfl rfl rfl)
  simp only
  split
  · exact h1
  · exact h1.trans hs ((seqStep_proc .events _).trans hs (seqStep_fetchLoop _ hs))

theorem seqStep_envStep {s : State} (hs : Running s) : SeqStep s (envStep s) := by
  unfold envStep
  split
  · exact SeqStep.rfl
  · split
    · exact (seqStep_proc .envelope s).trans hs (seqStep_envLoop _ hs)
    · exact seqStep_modSlot (.of_keeps id rfl rfl rfl rfl)

theorem seqStep_pitchStep (s : State) : SeqStep s (pitchStep s) := by
  unfold pitchStep
  simp only
  split
  · exact seqStep_raise _ _
  · exact seqStep_modSlot (.of_keeps id rfl rfl rfl rfl)

theorem SeqStep.andThen {s t : State} {f : State → State} (h : SeqStep s t)
    (hf : Running t → SeqStep t (f t)) : SeqStep s (t.andThen f) := by
  obtain ⟨hr, e⟩ | ⟨_, e⟩ := andThen_cases t f
  · rw [e]; exact h.trans hr (hf hr)
  · rw [e]; exact h

theorem seqStep_slotStep (k : AudioSlot) {s : State} (hs : Running s) : SeqStep s (slotStep k s) := by
  have hk : Running { s with cur := k } := hs
  unfold slotStep
  simp only
  split
  · refine ((seqStep_cur k s).trans hk (seqStep_noteStep hk)).andThen fun hr => ?_
    split
    · exact (seqStep_envStep hr).andThen fun _ => seqStep_pitchStep _
    · exact SeqStep.rfl
  · exact seqStep_cur k s

/-- Phase A of a tick. -/
theorem seqStep_phaseA (s : State) : SeqStep s (phaseA s) := by
  have : ∀ (ks : List AudioSlot) (t : State), SeqStep s t →
      SeqStep s (ks.foldl (fun t k => t.andThen (slotStep k)) t) := by
    intro ks
    induction ks with
    | nil => exact fun t h => h
    | cons k ks ih => exact fun t h => ih _ (h.andThen fun hr => seqStep_slotStep k hr)
  exact this _ s SeqStep.rfl

end Sys2Proof.Machine
end

