-- ==== Sys2Proof/Laws/Tick.lean ====
section
/-! SUPPORT. What the steps of a slot look at: the configuration, the slot itself and the marks. Two states that
agree there go the same way, so phase A is the steps of each slot taken alone, and it does not depend on
the PSG, the staging buffer, the lock or the result. -/

namespace Sys2Proof.Machine

/-! ### States that agree on the slot being processed -/

/-- Two states that agree on all that the steps of a slot look at. They agree on `proc` where `P` holds: a step
reads `proc` only inside a loop. -/
structure Agree (P : Prop) (s t : State) : Prop where
  cfg : t.cfg = s.cfg
  cur : t.cur = s.cur
  slot : t.slotNow = s.slotNow
  fault : t.fault = s.fault
  refused : t.refused = s.refused
  proc : P → t.proc = s.proc

namespace Agree

variable {P : Prop} {s t : State}

theorem running (h : Agree P s t) : Running t ↔ Running s := by simp only [Running, h.fault, h.refused]

theorem stopped (h : Agree P s t) : t.stopped = s.stopped := by simp only [State.stopped, h.fault, h.refused]

theorem weaken {Q : Prop} (h : Agree P s t) (hq : Q → P) : Agree Q s t := { h with proc := h.proc ∘ hq }

theorem setProc {Q : Prop} (h : Agree P s t) (p : Proc) : Agree Q { s with proc := p } { t with proc := p } :=
  ⟨h.cfg, h.cur, h.slot, h.fault, h.refused, fun _ => rfl⟩

theorem modSlot (h : Agree P s t) (f : Slot → Slot) : Agree P (s.modSlot f) (t.modSlot f) :=
  ⟨h.cfg, h.cur, by rw [modSlot_slotNow, modSlot_slotNow, h.slot], h.fault, h.refused, h.proc⟩

theorem raises (h : Agree P s t) (f : FaultRecord) : Agree P (raise f s) (raise f t) :=
  ⟨h.cfg, h.cur, h.slot, rfl, h.refused, h.proc⟩

theorem refuses (h : Agree P s t) (r : RefusalRecord) : Agree P (refuse r s) (refuse r t) :=
  ⟨h.cfg, h.cur, h.slot, h.fault, rfl, h.proc⟩

theorem leave (h : Agree P s t) : Agree P (leaveLoop s) (leaveLoop t) := h.setProc .commands

theorem andThen {f : State → State} (h : Agree P s t) (hf : Agree P s t → Agree P (f s) (f t)) :
    Agree P (s.andThen f) (t.andThen f) := by
  simp only [State.andThen, h.stopped]
  split
  · exact h
  · exact hf h

theorem runEvent (h : Agree P s t) (e : Event) : Agree P (runEvent e s) (runEvent e t) := by
  cases e with
  | note n m =>
    simp only [Machine.runEvent, noteBody]
    have h1 := h.modSlot fun S => { S with countdown := s.cfg.duration m S.durBase, basePitch := n }
    rw [h.cfg]
    generalize s.modSlot _ = s' at h1 ⊢
    generalize t.modSlot _ = t' at h1 ⊢
    rw [h1.cfg, h1.slot, h1.cur]
    cases s'.cfg.ctrlSeqOffset[s'.slotNow.envSel]? with
    | none => exact h1.raises _
    | some pos => exact (h1.modSlot _).leave
  | terminate op => exact (h.modSlot _).leave
  | setTranspose op v => simpa only [Machine.runEvent, setTransposeBody] using h.modSlot _
  | setDurationBase op v => simpa only [Machine.runEvent, setDurationBaseBody] using h.modSlot _
  | selectWaveformBank op w =>
    simp only [Machine.runEvent, selectWaveformBankBody, h.cfg, h.cur]
    split
    · exact h.raises _
    · exact h.modSlot _
  | envHoldOn op => simpa only [Machine.runEvent, envHoldOnBody] using h.modSlot _
  | envHoldOff op => simpa only [Machine.runEvent, envHoldOffBody] using h.modSlot _
  | unrecognized op => exact h.modSlot _
  | undescribed op =>
    simp only [Machine.runEvent, undescribedBody, h.cur]
    exact h.refuses _

theorem eventTurn (h : Agree P s t) : Agree P (eventTurn s) (eventTurn t) := by
  have e : t.fetchEvent = s.fetchEvent := by simp only [State.fetchEvent, h.cfg, h.slot, h.cur]
  simp only [Machine.eventTurn, e]
  cases s.fetchEvent with
  | raises f => exact h.raises f
  | event e => exact h.runEvent e

theorem envTurn (h : Agree P s t) : Agree P (envTurn s) (envTurn t) := by
  simp only [Machine.envTurn, h.cfg, h.slot, h.cur]
  cases s.slotNow.envPos with
  | none => exact h.leave
  | some p =>
    simp only
    cases decodeEnv s.cfg p with
    | stop => exact (h.modSlot _).leave
    | oob i => exact h.raises _
    | seg dv dp hold len =>
      simp only [envSegBody]
      split
      · exact h.modSlot _
      · exact ((h.modSlot _).modSlot _).leave

theorem fetchLoop (n : Nat) (h : Agree True s t) : Agree True (fetchLoop n s) (fetchLoop n t) := by
  induction n generalizing s t with
  | zero => exact h
  | succ n ih =>
    have h1 := h.eventTurn
    simp only [Machine.fetchLoop, h1.stopped, h1.proc trivial]
    split
    · exact h1
    · exact ih h1

theorem envLoop (n : Nat) (h : Agree True s t) : Agree True (envLoop n s) (envLoop n t) := by
  induction n generalizing s t with
  | zero => exact h
  | succ n ih =>
    have h1 := h.envTurn
    simp only [Machine.envLoop, h1.stopped, h1.proc trivial]
    split
    · exact h1
    · exact ih h1

theorem noteStep (h : Agree P s t) : Agree P (noteStep s) (noteStep t) := by
  have h1 := h.modSlot fun S => { S with countdown := wrap16 (S.countdown.toInt - 1) }
  have hl : t.cfg.eventData.length = s.cfg.eventData.length := by rw [h.cfg]
  simp only [Machine.noteStep, h1.slot, State.modSlot_cfg, hl]
  split
  · exact h1
  · exact (fetchLoop _ (h1.setProc .events)).weaken fun _ => trivial

theorem envStep (h : Agree P s t) : Agree P (envStep s) (envStep t) := by
  have hl : t.cfg.ctrlBlock.length = s.cfg.ctrlBlock.length := by rw [h.cfg]
  simp only [Machine.envStep, h.slot, hl]
  split
  · exact h
  · split
    · exact (envLoop _ (h.setProc .envelope)).weaken fun _ => trivial
    · exact h.modSlot _

theorem pitchStep (h : Agree P s t) : Agree P (pitchStep s) (pitchStep t) := by
  simp only [Machine.pitchStep, h.slot, h.cfg, h.cur]
  cases pitchLookup s.cfg (pitchSum s.cfg s.slotNow) with
  | none => exact h.raises _
  | some f => exact h.modSlot _

end Agree

/-- The steps of slot `k` look at the configuration, the slot and the marks alone. -/
theorem slotStep_agree {P : Prop} (k : AudioSlot) {s t : State} (hc : t.cfg = s.cfg)
    (hk : t.slot[slotIndex k] = s.slot[slotIndex k]) (hf : t.fault = s.fault) (hr : t.refused = s.refused)
    (hp : P → t.proc = s.proc) : Agree P (slotStep k s) (slotStep k t) := by
  have h : Agree P { s with cur := k } { t with cur := k } := ⟨hc, rfl, hk, hf, hr, hp⟩
  simp only [slotStep, h.slot]
  split
  · refine h.noteStep.andThen fun h1 => ?_
    simp only [h1.slot]
    split
    · exact h1.envStep.andThen Agree.pitchStep
    · exact h1
  · exact h

/-! ### The steps of a slot leave the other slots -/

/-- Slot `k` is the one being processed, and the other slots are those of `v`. -/
structure OnlySlot (k : AudioSlot) (v : Vector Slot 12) (s : State) : Prop where
  cur : s.cur = k
  others : ∀ j : Fin 12, j ≠ slotIndex k → s.slot[j] = v[j]

theorem onlySlot_modSlot {k : AudioSlot} {v : Vector Slot 12} {s : State} (f : Slot → Slot) (h : OnlySlot k v s) :
    OnlySlot k v (s.modSlot f) :=
  ⟨h.cur, fun j hj => (modSlot_slot_other f s (h.cur ▸ hj)).trans (h.others j hj)⟩

theorem onlySlot_raise {k : AudioSlot} {v : Vector Slot 12} {s : State} (f : FaultRecord) (h : OnlySlot k v s) :
    OnlySlot k v (raise f s) := ⟨h.cur, h.others⟩

theorem onlySlot_setProc {k : AudioSlot} {v : Vector Slot 12} {s : State} (p : Proc) (h : OnlySlot k v s) :
    OnlySlot k v { s with proc := p } := ⟨h.cur, h.others⟩

theorem onlySlot_runEvent {k : AudioSlot} {v : Vector Slot 12} {s : State} (e : Event) (h : OnlySlot k v s) :
    OnlySlot k v (runEvent e s) := by
  cases e with
  | note n m =>
    simp only [runEvent, noteBody]
    split
    · exact onlySlot_raise _ (onlySlot_modSlot _ h)
    · exact onlySlot_setProc _ (onlySlot_modSlot _ (onlySlot_modSlot _ h))
  | terminate op => exact onlySlot_setProc _ (onlySlot_modSlot _ h)
  | selectWaveformBank op w =>
    simp only [runEvent, selectWaveformBankBody]
    split
    · exact onlySlot_raise _ h
    · exact onlySlot_modSlot _ h
  | undescribed op => exact ⟨h.cur, h.others⟩
  | setTranspose op v => simpa only [runEvent, setTransposeBody] using onlySlot_modSlot _ h
  | setDurationBase op v => simpa only [runEvent, setDurationBaseBody] using onlySlot_modSlot _ h
  | envHoldOn op => simpa only [runEvent, envHoldOnBody] using onlySlot_modSlot _ h
  | envHoldOff op => simpa only [runEvent, envHoldOffBody] using onlySlot_modSlot _ h
  | unrecognized op => exact onlySlot_modSlot _ h

theorem onlySlot_eventTurn {k : AudioSlot} {v : Vector Slot 12} (s : State) (h : OnlySlot k v s) :
    OnlySlot k v (eventTurn s) := by
  unfold eventTurn
  split
  · exact onlySlot_raise _ h
  · exact onlySlot_runEvent _ h

theorem onlySlot_envTurn {k : AudioSlot} {v : Vector Slot 12} (s : State) (h : OnlySlot k v s) :
    OnlySlot k v (envTurn s) := by
  unfold envTurn
  split
  · exact onlySlot_setProc _ h
  · split
    · exact onlySlot_setProc _ (onlySlot_modSlot _ h)
    · simp only [envSegBody]
      split
      · exact onlySlot_modSlot _ h
      · exact onlySlot_setProc _ (onlySlot_modSlot _ (onlySlot_modSlot _ h))
    · exact onlySlot_raise _ h

theorem onlySlot_noteStep {k : AudioSlot} {v : Vector Slot 12} {s : State} (h : OnlySlot k v s) :
    OnlySlot k v (noteStep s) := by
  simp only [noteStep]
  split
  · exact onlySlot_modSlot _ h
  · exact fetchLoop_keeps onlySlot_eventTurn _ _ (onlySlot_setProc _ (onlySlot_modSlot _ h))

theorem onlySlot_envStep {k : AudioSlot} {v : Vector Slot 12} {s : State} (h : OnlySlot k v s) :
    OnlySlot k v (envStep s) := by
  simp only [envStep]
  split
  · exact h
  · split
    · exact envLoop_keeps onlySlot_envTurn _ _ (onlySlot_setProc _ h)
    · exact onlySlot_modSlot _ h

theorem onlySlot_pitchStep {k : AudioSlot} {v : Vector Slot 12} {s : State} (h : OnlySlot k v s) :
    OnlySlot k v (pitchStep s) := by
  simp only [pitchStep]
  split
  · exact onlySlot_raise _ h
  · exact onlySlot_modSlot _ h

/-- The steps of slot `k` leave `k` as the slot being processed and the other slots as they were. -/
theorem slotStep_onlySlot (k : AudioSlot) (s : State) : OnlySlot k s.slot (slotStep k s) := by
  have h : OnlySlot k s.slot { s with cur := k } := ⟨rfl, fun _ _ => rfl⟩
  simp only [slotStep]
  split
  · refine andThen_keeps (onlySlot_noteStep h) fun _ h => ?_
    split
    · exact andThen_keeps (onlySlot_envStep h) fun _ h => onlySlot_pitchStep h
    · exact h
  · exact h

/-! ### Phase A, slot by slot -/

/-- Slots `0` to `k - 1` have taken their steps, each as it does alone from `s`. -/
theorem phaseA_prefix {s : State} (ks : List AudioSlot) (hnd : ks.Nodup) (hs : Running s) :
    let t := ks.foldl (fun t k => t.andThen (slotStep k)) s
    (Running t ↔ ∀ k ∈ ks, Running (slotStep k s)) ∧
    (Running t → ∀ k : AudioSlot,
      t.slot[slotIndex k] = if k ∈ ks then (slotStep k s).slot[slotIndex k] else s.slot[slotIndex k]) ∧
    t.cfg = s.cfg := by
  induction ks using List.reverseRecOn with
  | nil => exact ⟨by simpa using hs, fun _ k => by simp, rfl⟩
  | append_singleton ks j ih =>
    obtain ⟨h1, h2, h3⟩ := ih (List.nodup_append.1 hnd).1
    have hj : j ∉ ks := fun h => (List.nodup_append.1 hnd).2.2 j h j (by simp) rfl
    rw [List.foldl_append, List.foldl_cons, List.foldl_nil]
    generalize ks.foldl (fun t k => t.andThen (slotStep k)) s = u at h1 h2 h3 ⊢
    obtain ⟨hu, e⟩ | ⟨hu, e⟩ := andThen_cases u (slotStep j) <;> simp only [e]
    · have hjs := h2 hu j
      rw [if_neg hj] at hjs
      have ha : Agree False (slotStep j s) (slotStep j u) :=
        slotStep_agree j h3 hjs (hu.1.trans hs.1.symm) (hu.2.trans hs.2.symm) False.elim
      have ho := slotStep_onlySlot j u
      refine ⟨?_, fun _ k => ?_, ((seqStep_slotStep j hu).cfg).trans h3⟩
      · rw [ha.running, List.forall_mem_append, ← h1]
        exact ⟨fun h => ⟨hu, by simpa using h⟩, fun h => h.2 j (by simp)⟩
      · by_cases hkj : k = j
        · subst hkj
          have hslot := ha.slot
          simp only [State.slotNow, ho.cur, (slotStep_onlySlot k s).cur] at hslot
          simpa using hslot
        · rw [ho.others (slotIndex k) fun h => hkj (Fin.ext (by simpa using Fin.ext_iff.1 h)), h2 hu k]
          simp [hkj]
    · exact ⟨⟨fun h => absurd h hu, fun h => absurd (h1.2 fun k hk => h k (by simp [hk])) hu⟩,
        fun h => absurd h hu, h3⟩

/-- Phase A sets no mark exactly when no slot's steps do, each taken alone. -/
theorem phaseA_running {s : State} (hs : Running s) :
    Running (phaseA s) ↔ ∀ k : AudioSlot, Running (slotStep k s) := by
  rw [phaseA, (phaseA_prefix audioSlots (by decide) hs).1]
  exact ⟨fun h k => h k (audioSlots_mem k), fun h k _ => h k⟩

/-- Phase A gives each slot what its steps give it alone (42_sequencer.md R170). -/
theorem phaseA_slot {s : State} (hs : Running s) (h : Running (phaseA s)) (k : AudioSlot) :
    (phaseA s).slot[slotIndex k] = (slotStep k s).slot[slotIndex k] := by
  have := (phaseA_prefix audioSlots (by decide) hs).2.1 h k
  rwa [if_pos (audioSlots_mem k)] at this

/-- The last slot processed is slot 5. -/
theorem phaseA_cur {s : State} (h : Running (phaseA s)) : (phaseA s).cur = 5 := by
  unfold phaseA audioSlots at *
  simp only [List.foldl_cons, List.foldl_nil] at *
  obtain ⟨_, e⟩ | ⟨hu, e⟩ := andThen_cases _ (slotStep 5)
  · rw [e]
    exact (slotStep_onlySlot 5 _).cur
  · rw [e] at h
    exact absurd h hu

/-! ### Phase A looks at no more than the sequencer -/

/-- The state with another lock, result, staging buffer and PSG. -/
def State.outside (l : Lock) (r : CmdResult) (g : List Frame) (p : Psg) (s : State) : State :=
  { s with lock := l, result := r, stg := g, psg := p }

variable (l : Lock) (r : CmdResult) (g : List Frame) (p : Psg)

@[simp] theorem running_outside (s : State) : Running (s.outside l r g p) ↔ Running s := Iff.rfl
@[simp] theorem outside_slot (s : State) : (s.outside l r g p).slot = s.slot := rfl
@[simp] theorem outside_cfg (s : State) : (s.outside l r g p).cfg = s.cfg := rfl
@[simp] theorem outside_psg (s : State) : (s.outside l r g p).psg = p := rfl

/-- The steps of a slot are the same whatever the lock, the result, the staging buffer and the PSG hold, and
they leave them. -/
theorem outside_slotStep {k : AudioSlot} {s : State} (hs : Running s) :
    slotStep k (s.outside l r g p) = (slotStep k s).outside l r g p := by
  have ha : Agree True (slotStep k s) (slotStep k (s.outside l r g p)) :=
    slotStep_agree k rfl rfl rfl rfl fun _ => rfl
  have h0 := slotStep_onlySlot k s
  have h1 := slotStep_onlySlot k (s.outside l r g p)
  have q0 := seqStep_slotStep k hs
  have q1 := seqStep_slotStep k ((running_outside l r g p s).2 hs)
  have hslot : (slotStep k (s.outside l r g p)).slot = (slotStep k s).slot := by
    ext j hj : 1
    by_cases hjk : (⟨j, hj⟩ : Fin 12) = slotIndex k
    · have := ha.slot
      simp only [State.slotNow, h0.cur, h1.cur, ← hjk] at this
      exact this
    · exact (h1.others ⟨j, hj⟩ hjk).trans (h0.others ⟨j, hj⟩ hjk).symm
  have hcfg := ha.cfg
  have hcur := ha.cur
  have hf := ha.fault
  have hr := ha.refused
  have hp := ha.proc trivial
  have hpsg := q1.psg
  have hlast := q1.lastCue.trans q0.lastCue.symm
  have hstg := q1.stg
  have hlock := q1.lock
  have hcmds := q1.cmds.trans q0.cmds.symm
  have hres := q1.result
  generalize slotStep k (s.outside l r g p) = t at *
  generalize slotStep k s = u at *
  cases t
  cases u
  simp only [State.outside] at *
  simp only [*]

/-- Phase A is the same whatever the lock, the result, the staging buffer and the PSG hold, and leaves them. -/
theorem outside_phaseA (s : State) : phaseA (s.outside l r g p) = (phaseA s).outside l r g p := by
  have : ∀ (ks : List AudioSlot) (s : State),
      ks.foldl (fun s k => s.andThen (slotStep k)) (s.outside l r g p) =
        (ks.foldl (fun s k => s.andThen (slotStep k)) s).outside l r g p := by
    intro ks
    induction ks with
    | nil => exact fun s => rfl
    | cons k ks ih =>
      intro s
      have h : (s.outside l r g p).andThen (slotStep k) = (s.andThen (slotStep k)).outside l r g p := by
        obtain ⟨hs, e⟩ | ⟨hs, e⟩ := andThen_cases s (slotStep k)
        · rw [e, andThen_running (s := s.outside l r g p) hs, outside_slotStep l r g p hs]
        · rw [e, andThen_stopped (s := s.outside l r g p) hs]
      rw [List.foldl_cons, h, ih, List.foldl_cons]
  exact this _ s

end Sys2Proof.Machine
end

