-- ==== Sys2Proof/Laws/Adapter.lean ====
section
/-! SUPPORT. A tick does not look at the lock, the result or the staging buffer: it does the same whatever they
hold, and leaves them. So a period inside `FILL` is the period of the state `FILL` was given. -/

namespace Sys2Proof.Machine

variable (l : Lock) (r : CmdResult) (g : List Frame)

/-- The tick of a state with another lock, result and staging buffer. -/
theorem outside_tickBody (s : State) :
    tickBody (s.outside l r g s.psg) = (tickBody s).outside l r g (tickBody s).psg := by
  unfold tickBody
  rw [outside_phaseA]
  obtain ⟨h, e⟩ | ⟨h, e⟩ := andThen_cases (phaseA s) push <;> rw [e]
  · rw [andThen_running (s := (phaseA s).outside l r g s.psg) h]
    simp only [push, State.outside, (seqStep_phaseA s).psg]
  · rw [andThen_stopped (s := (phaseA s).outside l r g s.psg) h, (seqStep_phaseA s).psg]

/-- A period that does not stop refills the staging buffer and leaves the lock and the result. -/
theorem period_running {s : State} (h : Running (period s)) :
    Running (tickBody s) ∧ period s = refill (tickBody s) := by
  unfold period at *
  obtain ⟨hr, e⟩ | ⟨hr, e⟩ := andThen_cases (tickBody s) refill
  · exact ⟨hr, e⟩
  · rw [e] at h; exact absurd h hr

/-- The period of a state with another lock and result, and with an empty staging buffer. -/
theorem outside_period {s : State} (h : Running (tickBody s)) :
    period (s.outside l r g s.psg) = (period s).outside l r (refill (tickBody s)).stg (period s).psg := by
  have h' : Running ((tickBody s).outside l r g (tickBody s).psg) := h
  unfold period
  rw [outside_tickBody, andThen_running h', andThen_running h]
  rfl

/-! ### What a tick and a period keep -/

theorem tickBody_cases (s : State) :
    (Running (phaseA s) ∧ tickBody s = push (phaseA s)) ∨ (¬ Running (phaseA s) ∧ tickBody s = phaseA s) :=
  andThen_cases (phaseA s) push

theorem period_cases (s : State) :
    (Running (tickBody s) ∧ period s = refill (tickBody s)) ∨ (¬ Running (tickBody s) ∧ period s = tickBody s) :=
  andThen_cases (tickBody s) refill

@[simp] theorem tickBody_cfg (s : State) : (tickBody s).cfg = s.cfg := by
  obtain ⟨_, e⟩ | ⟨_, e⟩ := tickBody_cases s <;> rw [e]
  · exact (seqStep_phaseA s).cfg
  · exact (seqStep_phaseA s).cfg

@[simp] theorem tickBody_lastCue (s : State) : (tickBody s).lastCue = s.lastCue := by
  obtain ⟨_, e⟩ | ⟨_, e⟩ := tickBody_cases s <;> rw [e]
  · exact (seqStep_phaseA s).lastCue
  · exact (seqStep_phaseA s).lastCue

@[simp] theorem tickBody_stg (s : State) : (tickBody s).stg = s.stg := by
  obtain ⟨_, e⟩ | ⟨_, e⟩ := tickBody_cases s <;> rw [e]
  · exact (seqStep_phaseA s).stg
  · exact (seqStep_phaseA s).stg

@[simp] theorem tickBody_lock (s : State) : (tickBody s).lock = s.lock := by
  obtain ⟨_, e⟩ | ⟨_, e⟩ := tickBody_cases s <;> rw [e]
  · exact (seqStep_phaseA s).lock
  · exact (seqStep_phaseA s).lock

@[simp] theorem tickBody_cmds (s : State) : (tickBody s).cmds = s.cmds := by
  obtain ⟨_, e⟩ | ⟨_, e⟩ := tickBody_cases s <;> rw [e]
  · exact (seqStep_phaseA s).cmds
  · exact (seqStep_phaseA s).cmds

@[simp] theorem tickBody_result (s : State) : (tickBody s).result = s.result := by
  obtain ⟨_, e⟩ | ⟨_, e⟩ := tickBody_cases s <;> rw [e]
  · exact (seqStep_phaseA s).result
  · exact (seqStep_phaseA s).result

@[simp] theorem period_cfg (s : State) : (period s).cfg = s.cfg := by
  obtain ⟨_, e⟩ | ⟨_, e⟩ := period_cases s <;> rw [e]
  · rw [refill_cfg, tickBody_cfg]
  · exact tickBody_cfg s

@[simp] theorem period_lastCue (s : State) : (period s).lastCue = s.lastCue := by
  obtain ⟨_, e⟩ | ⟨_, e⟩ := period_cases s <;> rw [e]
  · rw [refill_lastCue, tickBody_lastCue]
  · exact tickBody_lastCue s

@[simp] theorem period_lock (s : State) : (period s).lock = s.lock := by
  obtain ⟨_, e⟩ | ⟨_, e⟩ := period_cases s <;> rw [e]
  · rw [refill_lock, tickBody_lock]
  · exact tickBody_lock s

@[simp] theorem period_cmds (s : State) : (period s).cmds = s.cmds := by
  obtain ⟨_, e⟩ | ⟨_, e⟩ := period_cases s <;> rw [e]
  · rw [refill_cmds, tickBody_cmds]
  · exact tickBody_cmds s

@[simp] theorem period_result (s : State) : (period s).result = s.result := by
  obtain ⟨_, e⟩ | ⟨_, e⟩ := period_cases s <;> rw [e]
  · rw [refill_result, tickBody_result]
  · exact tickBody_result s

/-- Nothing runs on a stopped block. -/
theorem phaseA_stopped {s : State} (h : ¬ Running s) : phaseA s = s := by
  have : ∀ ks : List AudioSlot, ks.foldl (fun s k => s.andThen (slotStep k)) s = s := by
    intro ks
    induction ks with
    | nil => rfl
    | cons k ks ih => rw [List.foldl_cons, andThen_stopped h, ih]
  exact this _

theorem period_stopped {s : State} (h : ¬ Running s) : period s = s := by
  unfold period tickBody
  rw [phaseA_stopped h, andThen_stopped h, andThen_stopped h]

end Sys2Proof.Machine
end

