-- ==== Sys2Proof/Laws/Decode.lean ====
section
/-! SUPPORT. What the decoders can answer. -/

namespace Sys2Proof

/-- A decoded register write encodes to the word of its offset and value. -/
theorem encode_decodePsgWrite (off : BitVec 4) (v : Byte) :
    encode (decodePsgWrite off v) = some (.word (psgWord off v)) := by
  unfold decodePsgWrite
  iterate 11 (split; · simp_all [encode])
  rfl

theorem reservedZero_ok {w : CmdWord} {z : Bool} {i j : Instr} (h : reservedZero w z i = .ok j) :
    z = true ∧ i = j := by
  cases z <;> simp_all [reservedZero]

theorem withOperand_ok {rest : List Byte} {f : Byte → Event} {e : Event} (h : withOperand rest f = .ok e) :
    ∃ t more, rest = t :: more ∧ e = f t := by
  cases rest with
  | nil => cases h
  | cons t more => exact ⟨t, more, rfl, by injection h with h; exact h.symm⟩

/-- An instruction decoded from a command word has a command word, so it is no event and no segment. -/
theorem decodeCommand_word {w : CmdWord} {i : Instr} (h : decodeCommand w = .ok i) :
    ∃ x, encode i = some (.word x) := by
  simp only [decodeCommand] at h
  iterate 8
    split at h
    · first
        | (obtain ⟨_, rfl⟩ := reservedZero_ok h; first | exact ⟨_, encode_decodePsgWrite _ _⟩ | exact ⟨_, rfl⟩)
        | (injection h with h; subst h; exact ⟨_, rfl⟩)
  injection h with h
  subst h
  exact ⟨_, rfl⟩

end Sys2Proof
end

