-- ==== Sys2Proof/Laws/PerInstr.lean ====
section
/-! SUPPORT. One family of statements for each instruction: a well-formed instruction's encoding has the form
of its row of spec/opcode_table.json. -/

namespace Sys2Proof.Laws

/-- The form of a row of spec/opcode_table.json: a command word with fixed bits, the bytes of an event, or an
envelope segment, whose form is the OPEN parameter `ENV_DECODE`. -/
inductive RowForm where
  | word (mask fixed : CmdWord)
  | bytes (n : Nat)
  | openForm
  deriving DecidableEq, Repr

/-- The row of an instruction. -/
def rowForm : Instr → RowForm
  | .wrSel _ => .word 0xFFFF00 0x000000
  | .wrGbal _ => .word 0xFFFF00 0x000100
  | .wrFreqLo _ => .word 0xFFFF00 0x000200
  | .wrFreqHi _ => .word 0xFFFF00 0x000300
  | .wrCtrl _ => .word 0xFFFF00 0x000400
  | .wrCbal _ => .word 0xFFFF00 0x000500
  | .wrWdata _ => .word 0xFFFF00 0x000600
  | .wrNoise _ => .word 0xFFFF00 0x000700
  | .wrLfoFreq _ => .word 0xFFFF00 0x000800
  | .wrLfoCtrl _ => .word 0xFFFF00 0x000900
  | .wrRefusedAB _ _ => .word 0xFFFE00 0x000A00
  | .wrRefusedCF _ _ => .word 0xFFFC00 0x000C00
  | .reset => .word 0xFFFFFF 0x100000
  | .update _ => .word 0xF00000 0x200000
  | .tick => .word 0xFFFFFF 0x300000
  | .start _ => .word 0xFF0000 0x400000
  | .stop _ => .word 0xFF0000 0x500000
  | .status _ => .word 0xFF0000 0x600000
  | .fill _ => .word 0xF00000 0x700000
  | .reservedCmd _ => .word 0x800000 0x800000
  | .note _ _ => .bytes 1
  | .terminate _ => .bytes 1
  | .setTranspose _ _ => .bytes 2
  | .setDurationBase _ _ => .bytes 2
  | .selectWaveformBank _ _ => .bytes 2
  | .envHoldOn _ => .bytes 1
  | .envHoldOff _ => .bytes 1
  | .unrecognized _ => .bytes 1
  | .undescribed _ => .bytes 1
  | .envSeg _ _ _ _ => .openForm
  | .envEnd => .openForm

/-- An encoding has the form of a row. -/
def fits (f : RowForm) (e : Option Encoded) : Prop :=
  match f, e with
  | .word mask fixed, some (.word w) => w &&& mask = fixed
  | .bytes n, some (.bytes bs) => bs.length = n
  | .openForm, none => True
  | _, _ => False

/-- The encoding of a well-formed instruction has the form of the instruction's row. -/
def EncodingForm.Statement (i : Instr) : Prop := ∀ c : Config, i.wf c = true → fits (rowForm i) (encode i)

theorem bits_eq {x y : CmdWord} (h : ∀ i, i < 24 → x.getLsbD i = y.getLsbD i) : x = y :=
  BitVec.eq_of_getLsbD_eq h

theorem psgWord_form (off : BitVec 4) (v : Byte) :
    psgWord off v &&& 0xFFFF00 = (0 : BitVec 12) ++ off ++ (0 : Byte) := by
  apply BitVec.eq_of_getLsbD_eq
  intro i hi
  simp only [psgWord, BitVec.getLsbD_and, BitVec.getLsbD_append]
  interval_cases i <;> simp

theorem payloadWord_form (cmd : BitVec 4) (p : BitVec 20) :
    payloadWord cmd p &&& 0xF00000 = cmd ++ (0 : BitVec 20) := by
  apply BitVec.eq_of_getLsbD_eq
  intro i hi
  simp only [payloadWord, BitVec.getLsbD_and, BitVec.getLsbD_append]
  interval_cases i <;> simp

theorem idWord_form (cmd : BitVec 4) (id : BitVec 16) :
    idWord cmd id &&& 0xFF0000 = cmd ++ (0 : BitVec 20) := by
  apply BitVec.eq_of_getLsbD_eq
  intro i hi
  simp only [idWord, BitVec.getLsbD_and, BitVec.getLsbD_append]
  interval_cases i <;> simp

theorem EncodingForm.wrSel (v : Byte) : EncodingForm.Statement (.wrSel v) :=
  fun _ _ => psgWord_form 0 v

theorem EncodingForm.wrGbal (v : Byte) : EncodingForm.Statement (.wrGbal v) :=
  fun _ _ => psgWord_form 1 v

theorem EncodingForm.wrFreqLo (v : Byte) : EncodingForm.Statement (.wrFreqLo v) :=
  fun _ _ => psgWord_form 2 v

theorem EncodingForm.wrFreqHi (v : Byte) : EncodingForm.Statement (.wrFreqHi v) :=
  fun _ _ => psgWord_form 3 v

theorem EncodingForm.wrCtrl (v : Byte) : EncodingForm.Statement (.wrCtrl v) :=
  fun _ _ => psgWord_form 4 v

theorem EncodingForm.wrCbal (v : Byte) : EncodingForm.Statement (.wrCbal v) :=
  fun _ _ => psgWord_form 5 v

theorem EncodingForm.wrWdata (v : Byte) : EncodingForm.Statement (.wrWdata v) :=
  fun _ _ => psgWord_form 6 v

theorem EncodingForm.wrNoise (v : Byte) : EncodingForm.Statement (.wrNoise v) :=
  fun _ _ => psgWord_form 7 v

theorem EncodingForm.wrLfoFreq (v : Byte) : EncodingForm.Statement (.wrLfoFreq v) :=
  fun _ _ => psgWord_form 8 v

theorem EncodingForm.wrLfoCtrl (v : Byte) : EncodingForm.Statement (.wrLfoCtrl v) :=
  fun _ _ => psgWord_form 9 v

theorem EncodingForm.wrRefusedAB (off : BitVec 4) (v : Byte) : EncodingForm.Statement (.wrRefusedAB off v) := by
  intro c h
  simp only [Instr.wf, Bool.or_eq_true, beq_iff_eq] at h
  obtain rfl | rfl := h <;> exact bits_eq fun i hi => by
    simp only [psgWord, BitVec.getLsbD_and, BitVec.getLsbD_append]
    interval_cases i <;> simp

theorem EncodingForm.wrRefusedCF (off : BitVec 4) (v : Byte) : EncodingForm.Statement (.wrRefusedCF off v) := by
  intro c h
  simp only [Instr.wf, Bool.or_eq_true, beq_iff_eq, or_assoc] at h
  obtain rfl | rfl | rfl | rfl := h <;> exact bits_eq fun i hi => by
    simp only [psgWord, BitVec.getLsbD_and, BitVec.getLsbD_append]
    interval_cases i <;> simp

theorem EncodingForm.reset : EncodingForm.Statement .reset :=
  fun _ _ => rfl

theorem EncodingForm.update (n : BitVec 20) : EncodingForm.Statement (.update n) :=
  fun _ _ => payloadWord_form 2 n

theorem EncodingForm.tick : EncodingForm.Statement .tick :=
  fun _ _ => rfl

theorem EncodingForm.start (id : BitVec 16) : EncodingForm.Statement (.start id) :=
  fun _ _ => idWord_form 4 id

theorem EncodingForm.stop (id : BitVec 16) : EncodingForm.Statement (.stop id) :=
  fun _ _ => idWord_form 5 id

theorem EncodingForm.status (id : BitVec 16) : EncodingForm.Statement (.status id) :=
  fun _ _ => idWord_form 6 id

theorem EncodingForm.fill (n : BitVec 20) : EncodingForm.Statement (.fill n) :=
  fun _ _ => payloadWord_form 7 n

theorem EncodingForm.reservedCmd (w : CmdWord) : EncodingForm.Statement (.reservedCmd w) := by
  intro c h
  refine bits_eq fun i hi => ?_
  simp only [Instr.wf, BitVec.msb_eq_getLsbD_last] at h
  simp only [BitVec.getLsbD_and]
  interval_cases i <;> simp
  simpa using h

theorem EncodingForm.note (n m : BitVec 4) : EncodingForm.Statement (.note n m) :=
  fun _ _ => rfl

theorem EncodingForm.terminate (op : Byte) : EncodingForm.Statement (.terminate op) :=
  fun _ _ => rfl

theorem EncodingForm.setTranspose (op t : Byte) : EncodingForm.Statement (.setTranspose op t) :=
  fun _ _ => rfl

theorem EncodingForm.setDurationBase (op d : Byte) : EncodingForm.Statement (.setDurationBase op d) :=
  fun _ _ => rfl

theorem EncodingForm.selectWaveformBank (op w : Byte) : EncodingForm.Statement (.selectWaveformBank op w) :=
  fun _ _ => rfl

theorem EncodingForm.envHoldOn (op : Byte) : EncodingForm.Statement (.envHoldOn op) :=
  fun _ _ => rfl

theorem EncodingForm.envHoldOff (op : Byte) : EncodingForm.Statement (.envHoldOff op) :=
  fun _ _ => rfl

theorem EncodingForm.unrecognized (op : Byte) : EncodingForm.Statement (.unrecognized op) :=
  fun _ _ => rfl

theorem EncodingForm.undescribed (op : Byte) : EncodingForm.Statement (.undescribed op) :=
  fun _ _ => rfl

theorem EncodingForm.envSeg (dv dp hold : Byte) (len : Nat) : EncodingForm.Statement (.envSeg dv dp hold len) :=
  fun _ _ => trivial

theorem EncodingForm.envEnd : EncodingForm.Statement .envEnd :=
  fun _ _ => trivial

end Sys2Proof.Laws
end

