-- ==== Sys2Proof/Laws/Render.lean ====
section
/-! SUPPORT. Rendering as a closed form: what one channel adds to each frame, what it does to its counter, and
how wrapped sums add up. -/

namespace Sys2Proof.Machine

/-! ### Wrapping -/

/-- Mixing is addition modulo 2^16. -/
theorem mixSide_eq_add (out contrib : S16) : mixSide out contrib = out + contrib := by
  simp [mixSide, wrap16, BitVec.ofInt_add]

theorem wrap16_add (a b : Int) : mixSide (wrap16 a) (wrap16 b) = wrap16 (a + b) := by
  rw [mixSide_eq_add]
  simp [wrap16, BitVec.ofInt_add]

theorem wrap16_zero : wrap16 0 = 0 := rfl

/-- Inside the range of s16 wrapping changes nothing. -/
theorem wrap16_toInt {v : Int} (h : -32768 ≤ v) (h' : v ≤ 32767) : (wrap16 v).toInt = v := by
  simp only [wrap16, BitVec.toInt_ofInt]
  exact Int.bmod_eq_of_le (by omega) (by omega)

/-! ### The phase accumulator -/

theorem advanceCounter_ofNat (a : Nat) (step : BitVec 32) :
    advanceCounter (BitVec.ofNat 17 a) step = BitVec.ofNat 17 (a + step.toNat) := by
  apply BitVec.eq_of_toNat_eq
  simp [advanceCounter]

theorem advanceCounter_eq (counter : BitVec 17) (step : BitVec 32) :
    advanceCounter counter step = BitVec.ofNat 17 (counter.toNat + step.toNat) := rfl

/-- The counter before the first frame is its value. -/
theorem counter_ofNat (counter : BitVec 17) : BitVec.ofNat 17 counter.toNat = counter := by simp

/-! ### One channel -/

theorem frameCounter_succ (o : PhaseOrder) (counter : BitVec 17) (step : BitVec 32) (i : Nat) :
    frameCounter o (advanceCounter counter step) step i = frameCounter o counter step (i + 1) := by
  apply BitVec.eq_of_toNat_eq
  cases o <;> simp [frameCounter, phaseTurns, advanceCounter] <;> congr 1 <;> ring

/-- A waveform channel: `n` frames move the counter by `n` steps, and frame `i` gains the sample that its
counter selects. -/
theorem renderWave_closed (o : PhaseOrder) (step : BitVec 32) (gL gR : Int) (fs : List Frame) (C : Channel) :
    renderWave o step gL gR C fs =
      ({ C with counter := BitVec.ofNat 17 (C.counter.toNat + fs.length * step.toNat) },
        fs.mapIdx fun i f => f.mix gL gR C.wave[(readOffset (frameCounter o C.counter step i)).toNat]) := by
  induction fs generalizing C with
  | nil => simp [renderWave]
  | cons f fs ih =>
    simp only [renderWave, ih, List.mapIdx_cons, List.length_cons]
    refine Prod.ext ?_ ?_
    · simp only
      congr 1
      apply BitVec.eq_of_toNat_eq
      simp [advanceCounter]
      congr 1
      ring
    · simp only [frameCounter_succ]
      congr 1
      cases o <;> simp [readCounter, frameCounter, phaseTurns, advanceCounter]

/-- The sample of a waveform channel. -/
theorem sampleAt_wave (c : Config) (C : Channel) (i : Nat) (hd : ctrlDda C.ctrl = false) :
    sampleAt c C i = C.wave[(readOffset (frameCounter c.phaseOrder C.counter (c.waveStep C.freq) i)).toNat] := by
  rw [sampleAt, if_neg (by simp [hd])]

/-- The sample of a DDA channel. -/
theorem sampleAt_dda (c : Config) (C : Channel) (i : Nat) (hd : ctrlDda C.ctrl = true) :
    sampleAt c C i = C.dda := by
  unfold sampleAt
  rw [if_pos hd]

/-- One channel's part of a render, as a closed form. -/
theorem renderChannel_closed (c : Config) (gbal : Byte) (C : Channel) (out : List Frame) :
    renderChannel c gbal C out =
      (renderedChannel c out.length C,
        out.mapIdx fun i f =>
          if ctrlEn C.ctrl then f.mix (gainL c gbal C) (gainR c gbal C) (sampleAt c C i) else f) := by
  unfold renderChannel renderedChannel
  cases he : ctrlEn C.ctrl with
  | false => simp [List.ext_getElem_iff]
  | true =>
    cases hd : ctrlDda C.ctrl with
    | true => simp [renderDda, List.ext_getElem_iff, sampleAt_dda c C _ hd]
    | false => simp [renderWave_closed, sampleAt_wave c C _ hd]

@[simp] theorem renderChannel_length (c : Config) (gbal : Byte) (C : Channel) (out : List Frame) :
    (renderChannel c gbal C out).2.length = out.length := by simp [renderChannel_closed]

/-- What one channel adds to a frame, on each side. -/
theorem mix_terms (c : Config) (p : Psg) (k : Fin 8) (i : Nat) (f : Frame) (a b : Int)
    (hl : f.l = wrap16 a) (hr : f.r = wrap16 b) :
    let f' := if ctrlEn p.ch[k].ctrl then
      f.mix (gainL c p.gbal p.ch[k]) (gainR c p.gbal p.ch[k]) (sampleAt c p.ch[k] i) else f
    f'.l = wrap16 (a + sideTerm c p (gainL c p.gbal) i k) ∧
      f'.r = wrap16 (b + sideTerm c p (gainR c p.gbal) i k) := by
  unfold sideTerm
  by_cases h : ctrlEn p.ch[k].ctrl = true
  · simp only [if_pos h, Frame.mix, hl, hr, contribution, wrap16_add, and_self]
  · simp only [if_neg h, hl, hr, Int.add_zero, and_self]

/-- Rendering channels one by one into frames that hold wrapped sums gives the wrapped longer sums. -/
theorem renderInto_foldl (c : Config) (ks : List (Fin 8)) (hnd : ks.Nodup) (p : Psg) (out : List Frame)
    (SL SR : Nat → Int)
    (h : ∀ (i : Nat) (hi : i < out.length), (out[i]).l = wrap16 (SL i) ∧ (out[i]).r = wrap16 (SR i)) :
    let r := ks.foldl (renderInto c) (p, out)
    r.1.sel = p.sel ∧ r.1.gbal = p.gbal ∧
      (∀ k : Fin 8, r.1.ch[k] = if k ∈ ks then renderedChannel c out.length p.ch[k] else p.ch[k]) ∧
      r.2.length = out.length ∧
      ∀ (i : Nat) (hi : i < r.2.length),
        (r.2[i]).l = wrap16 (SL i + (ks.map (sideTerm c p (gainL c p.gbal) i)).sum) ∧
        (r.2[i]).r = wrap16 (SR i + (ks.map (sideTerm c p (gainR c p.gbal) i)).sum) := by
  induction ks generalizing p out SL SR with
  | nil => exact ⟨rfl, rfl, fun k => by simp, rfl, fun i hi => by
      simp only [List.map_nil, List.sum_nil, Int.add_zero]
      exact h i hi⟩
  | cons k ks ih =>
    obtain ⟨hk, hnd⟩ := List.nodup_cons.1 hnd
    rw [List.foldl_cons]
    obtain ⟨out', ho, hl, hg⟩ : ∃ out' : List Frame, renderInto c (p, out) k =
        ({ p with ch := p.ch.set k (renderedChannel c out.length p.ch[k]) }, out') ∧
        out'.length = out.length ∧ ∀ (i : Nat) (hi : i < out'.length),
          (out'[i]).l = wrap16 (SL i + sideTerm c p (gainL c p.gbal) i k) ∧
          (out'[i]).r = wrap16 (SR i + sideTerm c p (gainR c p.gbal) i k) := by
      refine ⟨_, by simp only [renderInto, renderChannel_closed]; rfl, by simp, fun i hi => ?_⟩
      have hi' : i < out.length := by simpa using hi
      rw [List.getElem_mapIdx]
      exact mix_terms c p k i out[i] (SL i) (SR i) (h i hi').1 (h i hi').2
    rw [ho]
    obtain ⟨h1, h2, h3, h4, h5⟩ := ih hnd _ out' _ _ hg
    have hne : ∀ j ∈ ks, k.val ≠ j.val := fun j hj e => hk (by rwa [Fin.ext e])
    refine ⟨h1, h2, fun j => ?_, h4.trans hl, fun i hi => ?_⟩
    · rw [h3 j]
      by_cases hj : j ∈ ks
      · simp [hj, hl, Vector.getElem_set_ne, hne j hj]
      · by_cases hjk : j = k
        · subst hjk; simp [hj]
        · have : k.val ≠ j.val := fun e => hjk (Fin.ext e.symm)
          simp [hj, hjk, Vector.getElem_set_ne, this]
    · have hm : ∀ g : Channel → Int,
          ks.map (sideTerm c { p with ch := p.ch.set k (renderedChannel c out.length p.ch[k]) } g i) =
            ks.map (sideTerm c p g i) := fun g => List.map_congr_left fun j hj => by
        have e : (p.ch.set k (renderedChannel c out.length p.ch[k]))[j] = p.ch[j] := by
          simp [Vector.getElem_set_ne, hne j hj]
        unfold sideTerm
        rw [e]
      have h5 := h5 i hi
      simp only [hm] at h5
      simpa only [List.map_cons, List.sum_cons, Int.add_assoc] using h5

/-- A render returns as many frames as it was asked for. -/
@[simp] theorem update_length (c : Config) (n : Nat) (p : Psg) : (p.update c n).2.length = n := by
  have : ∀ (ks : List (Fin 8)) (acc : Psg × List Frame),
      (ks.foldl (renderInto c) acc).2.length = acc.2.length := by
    intro ks
    induction ks with
    | nil => exact fun _ => rfl
    | cons k ks ih => intro acc; rw [List.foldl_cons, ih]; simp [renderInto]
  simp [Psg.update, this]

/-- A rendered channel keeps all but its counter. -/
theorem renderedChannel_keeps (c : Config) (n : Nat) (C : Channel) :
    renderedChannel c n C = { C with counter := (renderedChannel c n C).counter } := by
  unfold renderedChannel
  split <;> rfl

/-- A rendered channel sounds as one whose counter has moved on. -/
theorem sampleAt_rendered (c : Config) (n : Nat) (C : Channel) (he : ctrlEn C.ctrl = true) (i : Nat) :
    sampleAt c (renderedChannel c n C) i = sampleAt c C (n + i) := by
  cases hd : ctrlDda C.ctrl with
  | true =>
    have : renderedChannel c n C = C := by simp [renderedChannel, hd]
    rw [this, sampleAt_dda c C _ hd, sampleAt_dda c C _ hd]
  | false =>
    have hk := renderedChannel_keeps c n C
    have hc : (renderedChannel c n C).counter =
        BitVec.ofNat 17 (C.counter.toNat + n * (c.waveStep C.freq).toNat) := by simp [renderedChannel, he, hd]
    generalize renderedChannel c n C = D at hk hc
    have hs : frameCounter c.phaseOrder D.counter (c.waveStep C.freq) i =
        frameCounter c.phaseOrder C.counter (c.waveStep C.freq) (n + i) := by
      rw [hc]
      apply BitVec.eq_of_toNat_eq
      cases c.phaseOrder <;> simp [frameCounter, phaseTurns] <;> congr 1 <;> ring
    have hD : ctrlDda D.ctrl = false := by rw [hk]; exact hd
    have hf : D.freq = C.freq := by rw [hk]
    have hw : D.wave = C.wave := by rw [hk]
    simp only [sampleAt_wave c C _ hd, sampleAt_wave c D _ hD, hf, hs, hw]

end Sys2Proof.Machine
end

