-- ==== Sys2Proof/Tests/Slice0.lean ====
section
/-! SUPPORT. Tests: ill-formed terms are refused, words written out from the encodings decode, single steps give
what 95_test_vectors.md says, and every statement with hypotheses has a state that meets them. -/

namespace Sys2Proof.Tests

open Sys2Proof Sys2Proof.Machine

/- One theorem at a time: `decide +kernel` waits for the theorems before it, and many that wait at once would
take more threads than the check's memory limit leaves room for. -/
set_option Elab.async false

/-! ### The test configuration of 95_test_vectors.md -/

/-- Three-byte segments `(dv, dp, hold)`, as `TCFG` decodes them. -/
def tripleAt (blk : List Byte) (p : Nat) : EnvItem :=
  match blk[p]?, blk[p + 1]?, blk[p + 2]? with
  | some a, some b, some c => .seg a b c 3
  | none, _, _ => .outside p
  | _, none, _ => .outside (p + 1)
  | _, _, none => .outside (p + 2)

/-- `TCFG` with the event stream `ev` and the control block `cb`. -/
def tcfg (ev cb : List Byte) : Config where
  psgClock := 3579545
  rate := 240
  updateFreq := 60
  phaseOrder := .advanceThenRead
  scaleTab := scaleTabDefault
  volTable := volTableDefault
  waveStepTab := .formula
  waveBank := [Vector.ofFn fun i => i.val, Vector.ofFn fun i => if i.val < 16 then 31 else 0]
  noteThreshold := 0xD0
  controlOps := [(0xF0, .setDurationBase), (0xF1, .setTranspose), (0xF2, .selectWaveformBank),
    (0xF3, .envHoldOn), (0xF4, .envHoldOff), (0xFE, .undescribed), (0xFF, .terminate)]
  controlRest := .unrecognized
  eventData := ev
  soundOffsets := [(0, #v[some 0, none, none, none, none, none])]
  ctrlBlock := cb
  envSentinel := 0x80
  envItems := (List.range cb.length).map (tripleAt cb)
  ctrlSeqOffset := [0]
  pitchLut := (List.range 32).map fun i => 0x800 - 0x40 * i
  vibrato := .const 0
  durFn := .product
  volInit := 31
  durBaseInit := 1
  globalBalPush := 0xFF
  seqBalInit := 0xFF
  pcmByteOrder := .little

/-- The `CTRL_BLOCK` of `TCFG`. -/
def cb0 : List Byte := [0xFF, 0x00, 0x02, 0x00, 0x01, 0x01, 0x80]

/-- `TCFG` with no stream. -/
def t0 : Config := tcfg [] cb0

/-- The default configuration `DCFG`, with the sequencer tables of `TCFG`. -/
def dcfg : Config := { t0 with rate := 44100 }

/-- Power-on under `TCFG`. -/
def idle (ev : List Byte) : State := State.blank (tcfg ev cb0)

/-- After `START 0` under `TCFG`. -/
def started (ev : List Byte) : State := startBody 0 (idle ev)

/-- Slot 0 of a started cue inside its FetchLoop. -/
def fetching (ev : List Byte) : State := { started ev with proc := .events }

/-- Power-on under `DCFG` with channel 0 as given. -/
def withChannel (C : Channel) : State :=
  { State.blank dcfg with psg := { Psg.powerOn with gbal := 0xFF, ch := Psg.powerOn.ch.set 0 C } }

/-- A channel with the ramp waveform. -/
def ramp : Channel := { Channel.powerOn with wave := Vector.ofFn fun i => BitVec.ofNat 5 i.val, bal := 0xFF }

/-- The outcome is a next state with the property `p`. -/
def nextIs (o : Outcome) (p : State → Bool) : Bool :=
  match o with
  | .next t => p t
  | .fault _ => false
  | .refused _ => false

theorem of_nextIs {o : Outcome} {p : State → Bool} (h : nextIs o p = true) : ∃ t, o = .next t ∧ p t = true := by
  cases o with
  | next t => exact ⟨t, rfl, h⟩
  | fault f => cases h
  | refused r => cases h

/-! ### Ill-formed terms, one for each check -/

theorem test_wf_offsets : (Instr.wrRefusedAB 9 0).wf t0 = false ∧ (Instr.wrRefusedAB 12 0).wf t0 = false ∧
    (Instr.wrRefusedCF 11 0).wf t0 = false ∧ (Instr.wrRefusedCF 15 0).wf t0 = true := by decide +kernel

theorem test_wf_reserved : (Instr.reservedCmd 0x7FFFFF).wf t0 = false ∧
    (Instr.reservedCmd 0x800000).wf t0 = true := by decide +kernel

theorem test_wf_note : (Instr.note 13 0).wf t0 = false ∧ (Instr.note 15 15).wf t0 = false ∧
    (Instr.note 12 15).wf t0 = true := by decide +kernel

theorem test_wf_control : (Instr.terminate 0xFE).wf t0 = false ∧ (Instr.setTranspose 0xF0 0).wf t0 = false ∧
    (Instr.setDurationBase 0xF1 0).wf t0 = false ∧ (Instr.selectWaveformBank 0xF3 0).wf t0 = false ∧
    (Instr.envHoldOn 0xF4).wf t0 = false ∧ (Instr.envHoldOff 0xF3).wf t0 = false ∧
    (Instr.unrecognized 0xFF).wf t0 = false ∧ (Instr.undescribed 0xD0).wf t0 = false ∧
    (Instr.unrecognized 0xCF).wf t0 = false := by decide +kernel

theorem test_wf_segment : (Instr.envSeg 0 0 1 0).wf t0 = false ∧ (Instr.envSeg 0 0 1 1).wf t0 = true := by
  decide +kernel

/-- Each event is ill formed under a byte that is not its kind's. -/
theorem test_wf_event : (Event.note 13 0).wf t0 = false ∧ (Event.terminate 0xFE).wf t0 = false ∧
    (Event.setTranspose 0xF0 0).wf t0 = false ∧ (Event.setDurationBase 0xF1 0).wf t0 = false ∧
    (Event.selectWaveformBank 0xF3 0).wf t0 = false ∧ (Event.envHoldOn 0xF4).wf t0 = false ∧
    (Event.envHoldOff 0xF3).wf t0 = false ∧ (Event.unrecognized 0xFF).wf t0 = false ∧
    (Event.undescribed 0xD0).wf t0 = false := by decide +kernel

/-- A configuration that breaks each condition of 00_scope.md R10, and the well-formed one. -/
theorem test_config_rules : t0.wf = true ∧ ({ t0 with rate := 50 }).firstBad = some .spp ∧
    ({ t0 with noteThreshold := 256 }).firstBad = some .noteThreshold ∧
    ({ t0 with noteThreshold := 0 }).firstBad = some .noteThreshold ∧
    ({ t0 with controlOps := [] }).firstBad = some .controlOps ∧
    ({ t0 with waveBank := [Vector.replicate 32 32] }).firstBad = some .waveBank ∧
    ({ t0 with pitchLut := [4096] }).firstBad = some .pitchLut ∧
    ({ t0 with scaleTab := Vector.replicate 16 32 }).firstBad = some .scaleTab ∧
    ({ t0 with soundOffsets := [(0, Vector.replicate 6 (some 1))] }).firstBad = some .soundOffsets ∧
    ({ t0 with ctrlSeqOffset := [7] }).firstBad = some .ctrlSeqOffset ∧
    ({ t0 with envItems := [.seg 0 0 0 0] }).firstBad = some .envLength := by decide +kernel

/-- A configuration that breaks each type condition of 00_scope.md R9. -/
theorem test_config_types : ({ t0 with psgClock := 0 }).firstBad = some .psgClock ∧
    ({ t0 with waveBank := [] }).firstBad = some .nWaves ∧
    ({ t0 with waveStepTab := .table [0] }).firstBad = some .waveStep ∧
    ({ t0 with durFn := .table [0] }).firstBad = some .durFn ∧
    ({ t0 with envItems := [] }).firstBad = some .envItems ∧
    ({ t0 with envItems := List.replicate 7 (.outside 6) }).firstBad = some .envItems := by decide +kernel

/-! ### Decoding: one word of each constructor, written out from 30_encoding.md -/

/-- `CMD` 0000, reserved 00000000, `OFF`, `VAL` (30_encoding.md R92). -/
theorem test_decode_writes :
    decodeCommand 0b000000000000000011111101 = .ok (.wrSel 0xFD) ∧
    decodeCommand 0b000000000000000111110000 = .ok (.wrGbal 0xF0) ∧
    decodeCommand 0b000000000000001001010001 = .ok (.wrFreqLo 0x51) ∧
    decodeCommand 0b000000000000001100001000 = .ok (.wrFreqHi 0x08) ∧
    decodeCommand 0b000000000000010010011111 = .ok (.wrCtrl 0x9F) ∧
    decodeCommand 0b000000000000010100001111 = .ok (.wrCbal 0x0F) ∧
    decodeCommand 0b000000000000011000110011 = .ok (.wrWdata 0x33) ∧
    decodeCommand 0b000000000000011110000000 = .ok (.wrNoise 0x80) ∧
    decodeCommand 0b000000000000100000000001 = .ok (.wrLfoFreq 0x01) ∧
    decodeCommand 0b000000000000100100000010 = .ok (.wrLfoCtrl 0x02) ∧
    decodeCommand 0b000000000000101100000011 = .ok (.wrRefusedAB 11 0x03) ∧
    decodeCommand 0b000000000000111100010010 = .ok (.wrRefusedCF 15 0x12) := by decide +kernel

/-- `CMD` 0001 to 0111 with their payloads, and 1000 (30_encoding.md R90, R99). -/
theorem test_decode_commands :
    decodeCommand 0b000100000000000000000000 = .ok .reset ∧
    decodeCommand 0b001010000000000001000000 = .ok (.update 0x80040) ∧
    decodeCommand 0b001100000000000000000000 = .ok .tick ∧
    decodeCommand 0b010000001000000000000001 = .ok (.start 0x8001) ∧
    decodeCommand 0b010100000000000000000010 = .ok (.stop 2) ∧
    decodeCommand 0b011000000000000000000011 = .ok (.status 3) ∧
    decodeCommand 0b011110000000000000000110 = .ok (.fill 0x80006) ∧
    decodeCommand 0b100000000000000000000101 = .ok (.reservedCmd 0x800005) ∧
    decodeCommand 0b000011110000000000000000 = .reservedPayload 0x0F0000 ∧
    decodeCommand 0b000100000000000000000001 = .reservedPayload 0x100001 ∧
    decodeCommand 0b010000010000000000000000 = .reservedPayload 0x410000 := by decide +kernel

/-- Events: `nnnnmmmm`, and a control byte with its operand (30_encoding.md R101 to R105). -/
theorem test_decode_events :
    decodeEvent t0 [0b00100001] = .ok (.note 2 1) ∧ decodeEvent t0 [0b11111111] = .ok (.terminate 0xFF) ∧
    decodeEvent t0 [0b11110001, 0b00000011] = .ok (.setTranspose 0xF1 3) ∧
    decodeEvent t0 [0b11110000, 0b00000010] = .ok (.setDurationBase 0xF0 2) ∧
    decodeEvent t0 [0b11110010, 0b00000001] = .ok (.selectWaveformBank 0xF2 1) ∧
    decodeEvent t0 [0b11110011] = .ok (.envHoldOn 0xF3) ∧ decodeEvent t0 [0b11110100] = .ok (.envHoldOff 0xF4) ∧
    decodeEvent t0 [0b11010101] = .ok (.unrecognized 0xD5) ∧
    decodeEvent t0 [0b11111110] = .ok (.undescribed 0xFE) ∧
    decodeEvent t0 [] = .missingByte 0 ∧ decodeEvent t0 [0xF0] = .missingByte 1 := by decide +kernel

/-- Segments as `TCFG` decodes them (95_test_vectors.md). -/
theorem test_decode_envelope : decodeEnv t0 0 = .seg 0xFF 0x00 0x02 3 ∧ decodeEnv t0 3 = .seg 0x00 0x01 0x01 3 ∧
    decodeEnv t0 6 = .stop ∧ decodeEnv t0 7 = .oob 7 ∧ decodeEnv (tcfg [] [0, 0]) 0 = .oob 2 := by decide +kernel

/-- The control byte 0xFF of a table row decodes after reset, whatever the OPEN parameters are. -/
theorem test_decodeTableWord : decodeTableWord 24 0x00049F = some (.wrCtrl 0x9F) ∧
    decodeTableWord 8 0xFF = some (.terminate 0xFF) := ⟨rfl, rfl⟩

/-! ### Steps -/

/-- 40_psg_write.md W vectors: bits 7:3 are masked off. -/
theorem test_wrSel : nextIs (exec (.wrSel 0xFD) (idle [])) (fun t => t.psg.sel == 5) = true := by decide +kernel

theorem test_wrGbal : nextIs (exec (.wrGbal 0xF0) (idle [])) (fun t => t.psg.gbal == 0xF0) = true := by
  decide +kernel

/-- Bits 11:8 are kept. -/
theorem test_wrFreqLo : nextIs (exec (.wrFreqLo 0x51) (withChannel { ramp with freq := 0xABC }))
    (fun t => t.psg.ch[0].freq == 0xA51) = true := by decide +kernel

/-- Bits 7:4 of the value are discarded and bits 7:0 of the register kept. -/
theorem test_wrFreqHi : nextIs (exec (.wrFreqHi 0xF8) (withChannel { ramp with freq := 0xABC }))
    (fun t => t.psg.ch[0].freq == 0x8BC) = true := by decide +kernel

/-- L1.1: the rows that clear the index. -/
theorem test_wrCtrl_clears :
    nextIs (exec (.wrCtrl 0x80) (withChannel { ramp with ctrl := 0x40, index := 7 }))
      (fun t => t.psg.ch[0].ctrl == 0x80 && t.psg.ch[0].index == 0) = true ∧
    nextIs (exec (.wrCtrl 0x9F) (withChannel { ramp with ctrl := 0xDF, index := 7 }))
      (fun t => t.psg.ch[0].ctrl == 0x9F && t.psg.ch[0].index == 0) = true := by decide +kernel

/-- L1.1: rows that keep it. -/
theorem test_wrCtrl_keeps :
    nextIs (exec (.wrCtrl 0x40) (withChannel { ramp with ctrl := 0x40, index := 7 }))
      (fun t => t.psg.ch[0].index == 7) = true ∧
    nextIs (exec (.wrCtrl 0x00) (withChannel { ramp with ctrl := 0x80, index := 7 }))
      (fun t => t.psg.ch[0].ctrl == 0 && t.psg.ch[0].index == 7) = true := by decide +kernel

theorem test_wrCbal : nextIs (exec (.wrCbal 0x0F) (withChannel ramp)) (fun t => t.psg.ch[0].bal == 0x0F) = true := by
  decide +kernel

/-- P3, commands 3 and 13: the entry at `index` is written and the index moves, and wraps at 32. -/
theorem test_wrWdata_wave :
    nextIs (exec (.wrWdata 0x2A) (withChannel { ramp with ctrl := 0x80, index := 31 }))
      (fun t => t.psg.ch[0].wave[31] == 10 && t.psg.ch[0].wave[0] == 0 && t.psg.ch[0].index == 0) = true := by
  decide +kernel

/-- P3, commands 9 and 11: mode 01 ignores the write, mode 11 sets `dda` to `v[4:0]`. -/
theorem test_wrWdata_dda :
    nextIs (exec (.wrWdata 0x1F) (withChannel { ramp with ctrl := 0x40, index := 5 }))
      (fun t => t.psg.ch[0] == { ramp with ctrl := 0x40, index := 5 }) = true ∧
    nextIs (exec (.wrWdata 0x33) (withChannel { ramp with ctrl := 0xC0, index := 5 }))
      (fun t => t.psg.ch[0] == { ramp with ctrl := 0xC0, index := 5, dda := 0x13 }) = true := by decide +kernel

theorem test_wrIgnored :
    nextIs (exec (.wrNoise 0xFF) (idle [])) (fun t => t.psg == Psg.powerOn) = true ∧
    nextIs (exec (.wrLfoFreq 0xFF) (idle [])) (fun t => t.psg == Psg.powerOn) = true ∧
    nextIs (exec (.wrLfoCtrl 0xFF) (idle [])) (fun t => t.psg == Psg.powerOn) = true := by decide +kernel

/-- X5 and its neighbour: the mark `REFUSE_OFFSET`. -/
theorem test_wrRefused :
    nextIs (exec (.wrRefusedAB 10 1) (idle [])) (fun t => t.refused == some (.offset 10 1)) = true ∧
    nextIs (exec (.wrRefusedCF 15 0x12) (idle [])) (fun t => t.refused == some (.offset 15 0x12)) = true := by
  decide +kernel

/-- X1. -/
theorem test_reservedCmd :
    nextIs (exec (.reservedCmd 0x800000) (idle [])) (fun t => t.refused == some (.cmd 0x800000)) = true := by
  decide +kernel

/-- X12: a marked block is stuck. -/
theorem test_stuck : exec (.stop 0) { idle [] with refused := some (.cmd 0x800000) } =
    .refused (.raised (.cmd 0x800000)) := by rfl

theorem test_reset : nextIs (exec .reset (withChannel { ramp with ctrl := 0x9F, counter := 5 }))
    (fun t => t.psg == Psg.powerOn) = true := by decide +kernel

/-- P1 from command 39, with 2 frames: offsets 1 and 2 of the ramp at gain 341. -/
theorem test_update_wave :
    nextIs (exec (.update 2) (withChannel { ramp with freq := 0x51, ctrl := 0x9F }))
      (fun t => t.result == .frames [⟨-5115, -5115⟩, ⟨-4774, -4774⟩] && t.psg.ch[0].counter == 8208) = true := by
  decide +kernel

/-- P2's channel 0: DDA 31, left only. -/
theorem test_update_dda :
    nextIs (exec (.update 1) (withChannel { ramp with ctrl := 0xDF, bal := 0xF0, dda := 31 }))
      (fun t => t.result == .frames [⟨5115, 0⟩] && t.psg.ch[0].counter == 0) = true := by decide +kernel

/-- Q1, tick 1. -/
theorem test_tick_note : nextIs (exec .tick (started [0xF1, 0x03, 0x21, 0xFF])) (fun t =>
    t.slot[0].transpose == 3 && t.slot[0].countdown == 1 && t.slot[0].volume == 30 && t.slot[0].envHold == 1 &&
    t.slot[0].envPos == some 3 && t.slot[0].freq == 0x6C0 && t.psg.ch[0].freq == 0x6C0 &&
    t.psg.ch[0].ctrl == 0x9E && t.psg.ch[0].wave[31] == 31 && t.psg.ch[0].index == 0 && t.psg.sel == 5 &&
    !t.slot[1].active) = true := by decide +kernel

/-- Q2: the pitch sum -1 faults, and earlier effects stay. -/
theorem test_tick_pitch_fault : nextIs (exec .tick (started [0xF1, 0xFF, 0x01, 0xFF])) (fun t =>
    t.fault == some (.pitchRange 0 (-1)) && t.slot[0].cursor == some 3 && t.slot[0].countdown == 1 &&
    t.psg == Psg.powerOn) = true := by decide +kernel

/-- Q15. -/
theorem test_start : nextIs (exec (.start 0) (idle [0x21])) (fun t =>
    t.slot[5].active && t.slot[0].cursor == some 0 && t.slot[5].cursor == none && t.slot[0].volume == 31 &&
    t.lastCue == some 0 && t.slot[6] == Slot.powerOn) = true ∧
    nextIs (exec (.start 1) (idle [0x21])) (fun t => t.fault == some (.cueId 1) && !t.slot[0].active) = true := by
  decide +kernel

theorem test_stop : nextIs (exec (.stop 0) (started [0x21])) (fun t => t.slot == (started [0x21]).slot) = true := by
  decide +kernel

theorem test_status :
    nextIs (exec (.status 0) (started [0x21])) (fun t => t.result == .bit true) = true ∧
    nextIs (exec (.status 1) (started [0x21])) (fun t => t.result == .bit false) = true := by decide +kernel

/-- P4, tick 1: the first render of the cue. -/
theorem test_fill : nextIs (exec (.fill 2) (started [0xF0, 0x02, 0x21, 0xD5, 0x10, 0xFF])) (fun t =>
    t.result == .frames [⟨-2583, -2583⟩, ⟨-287, -287⟩] && t.stg == [⟨2009, 2009⟩, ⟨4305, 4305⟩] &&
    t.slot[0].countdown == 2) = true := by decide +kernel

/-- The table of L2.4: 6 frames of 4-frame periods from an empty buffer leave 2. -/
theorem test_fill_staged : nextIs (exec (.fill 6) (idle [])) (fun t => t.stg.length == 2) = true := by decide +kernel

/-- Q11: a note of multiplier 0. -/
theorem test_note : nextIs (exec (.note 2 0) (fetching [0x20])) (fun t =>
    t.slot[0].countdown == 0 && t.slot[0].basePitch == 2 && t.slot[0].envPos == some 0 &&
    t.slot[0].cursor == some 1 && t.proc == .commands) = true := by decide +kernel

theorem test_terminate : nextIs (exec (.terminate 0xFF) (fetching [0xFF])) (fun t =>
    !t.slot[0].active && t.slot[0].cursor == some 0 && t.proc == .commands) = true := by decide +kernel

theorem test_setTranspose : nextIs (exec (.setTranspose 0xF1 3) (fetching [0xF1, 3])) (fun t =>
    t.slot[0].transpose == 3 && t.slot[0].cursor == some 2 && t.proc == .events) = true := by decide +kernel

theorem test_setDurationBase : nextIs (exec (.setDurationBase 0xF0 2) (fetching [0xF0, 2])) (fun t =>
    t.slot[0].durBase == 2 && t.slot[0].cursor == some 2 && t.slot[0].countdown == 0) = true := by decide +kernel

/-- Q4 and Q5. -/
theorem test_selectWaveformBank :
    nextIs (exec (.selectWaveformBank 0xF2 1) (fetching [0xF2, 1])) (fun t =>
      t.slot[0].waveBank == 1 && t.slot[0].uploadPending && t.slot[0].cursor == some 2) = true ∧
    nextIs (exec (.selectWaveformBank 0xF2 2) (fetching [0xF2, 2])) (fun t =>
      t.fault == some (.waveBank 0 2) && t.slot[0].waveBank == 0 && t.slot[0].cursor == some 0) = true := by
  decide +kernel

theorem test_envHold :
    nextIs (exec (.envHoldOn 0xF3) (fetching [0xF3])) (fun t => t.slot[0].envHoldFlag) = true ∧
    nextIs (exec (.envHoldOff 0xF4) (fetching [0xF4])) (fun t => !t.slot[0].envHoldFlag) = true := by decide +kernel

theorem test_unrecognized : nextIs (exec (.unrecognized 0xD5) (fetching [0xD5])) (fun t =>
    t.slot[0].cursor == some 1 && t.proc == .events) = true := by decide +kernel

/-- Q6. -/
theorem test_undescribed : nextIs (exec (.undescribed 0xFE) (fetching [0xFE])) (fun t =>
    t.refused == some (.opcode 0 0xFE) && t.slot[0].cursor == some 0) = true := by decide +kernel

/-- Slot 0 of a started cue inside its segment loop, at `p`. -/
def enveloping (p : Nat) : State :=
  ({ started [] with proc := .envelope }).modSlot fun S => { S with envPos := some p, volume := 31 }

/-- P4, tick 1, and Q9: a segment is applied once, an empty one is passed over. -/
theorem test_envSeg :
    nextIs (exec (.envSeg 0xFF 0 2 3) (enveloping 0)) (fun t =>
      t.slot[0].volume == 30 && t.slot[0].envHold == 1 && t.slot[0].envPos == some 3 && t.proc == .commands) = true ∧
    nextIs (exec (.envSeg 0 0 0 3) (enveloping 0)) (fun t =>
      t.slot[0].volume == 31 && t.slot[0].envPos == some 3 && t.proc == .envelope) = true := by decide +kernel

theorem test_envEnd : nextIs (exec .envEnd (enveloping 6)) (fun t =>
    t.slot[0].envPos == none && t.slot[0].volume == 31 && t.proc == .commands) = true := by decide +kernel

/-- The volume is clamped to 31 (Q10). -/
theorem test_envSeg_clamp : nextIs (exec (.envSeg 1 0 2 3) (enveloping 0)) (fun t =>
    t.slot[0].volume == 31 && t.slot[0].envHold == 1) = true := by decide +kernel

/-! ### Witnesses: a state and operands that meet the hypotheses of each statement that has some -/

/-- Every slot of a started cue names bank 0, so a push can upload it. -/
theorem started_banks (ev : List Byte) (k : AudioSlot) :
    ((started ev).slot[slotIndex k]).waveBank < (started ev).cfg.nWaves := by
  show ((started []).slot[slotIndex k]).waveBank < 2
  revert k
  decide +kernel

theorem witness_CommandWordsRoundTrip :
    (Instr.wrRefusedAB 11 0xFF).wf t0 = true ∧ encode (.wrRefusedAB 11 0xFF) = some (.word 0x000BFF) ∧
    (Instr.wrRefusedCF 12 0).wf t0 = true ∧ encode (.wrRefusedCF 12 0) = some (.word 0x000C00) ∧
    (Instr.fill 0xFFFFF).wf t0 = true ∧ encode (.fill 0xFFFFF) = some (.word 0x7FFFFF) ∧
    (Instr.reservedCmd 0x800000).wf t0 = true ∧ encode (.reservedCmd 0x800000) = some (.word 0x800000) := by
  decide +kernel

theorem witness_EventBytesRoundTrip :
    (Event.note 12 15).wf t0 = true ∧ (Event.setTranspose 0xF1 0xFF).wf t0 = true ∧
    (Event.terminate 0xFF).wf t0 = true ∧ (Event.unrecognized 0xD0).wf t0 = true := by decide +kernel

theorem witness_DecodedEventStandsInStream :
    decodeEvent t0 [0xCF, 7] = .ok (.note 12 15) ∧ decodeEvent t0 [0xF1, 0x80] = .ok (.setTranspose 0xF1 0x80) ∧
    decodeEvent t0 [0xFF] = .ok (.terminate 0xFF) := by decide +kernel

theorem witness_StepRunsTheCommand :
    Running { idle [] with cmds := [0x300000, 1] } ∧ ({ idle [] with cmds := [0x300000, 1] }).proc = .commands ∧
    decodeCommand 0x300000 = .ok .tick := by decide +kernel

theorem witness_StepRefusesReservedPayload :
    Ready { idle [] with cmds := [0x410000] } ∧ decodeCommand 0x410000 = .reservedPayload 0x410000 := by
  decide +kernel

/-- A fetch at a NULL cursor, at the start, at the last byte and past the end of a stream, and past the end for
an operand. -/
theorem witness_StepRunsTheStreamInstruction_events :
    Running (fetching []) ∧ (fetching []).proc = .events ∧
    decodeEvent t0 [0xFF] = .ok (.terminate 0xFF) ∧
    ({ fetching [] with cur := 1 }).slotNow.cursor = none ∧
    (fetching [0x21]).slotNow.cursor = some 0 ∧
    decodeEvent (fetching [0x21]).cfg ((fetching [0x21]).cfg.eventData.drop 0) = .ok (.note 2 1) ∧
    decodeEvent (fetching []).cfg ((fetching []).cfg.eventData.drop 0) = .missingByte 0 ∧
    decodeEvent (fetching [0xF0]).cfg ((fetching [0xF0]).cfg.eventData.drop 0) = .missingByte 1 := by
  decide +kernel

/-- A segment, the sentinel and a position past the end of the control block. -/
theorem witness_StepRunsTheStreamInstruction_envelope :
    Running (enveloping 0) ∧ (enveloping 0).proc = .envelope ∧ (enveloping 0).slotNow.envPos = some 0 ∧
    decodeEnv (enveloping 0).cfg 0 = .seg 0xFF 0x00 0x02 3 ∧ decodeEnv (enveloping 6).cfg 6 = .stop ∧
    decodeEnv (enveloping 7).cfg 7 = .oob 7 := by decide +kernel

theorem witness_StepWithoutCommandChangesNothing :
    Running (idle []) ∧ (idle []).proc = .commands ∧ (idle []).cmds = [] := by decide +kernel

theorem witness_MarkedBlockIsStuck :
    ({ idle [] with fault := some (.cueId 1) }).fault = some (.cueId 1) ∧
    ({ idle [] with refused := some (.cmd 0x800000) }).fault = none ∧
    ({ idle [] with refused := some (.cmd 0x800000) }).refused = some (.cmd 0x800000) := by decide +kernel

/-- The hypothesis `Ready s` of the register-write, render, reset and cue statements. -/
theorem witness_ready : Ready (idle []) ∧ Ready (started [0x21]) ∧ Ready (withChannel ramp) := by decide +kernel

theorem witness_WrSelSelectsChannel : Ready (idle []) := witness_ready.1
theorem witness_WrGbalSetsGlobalBalance : Ready (idle []) := witness_ready.1
theorem witness_WrFreqSetsItsByte : Ready (withChannel ramp) := witness_ready.2.2
theorem witness_FrequencyWritesCommute : Ready (withChannel ramp) := witness_ready.2.2
theorem witness_WrCbalSetsChannelBalance : Ready (withChannel ramp) := witness_ready.2.2
theorem witness_NoiseAndLfoWritesDoNothing : Ready (idle []) := witness_ready.1
theorem witness_ReservedFormsAreRefused :
    Ready (idle []) ∧ 12 ≤ (12 : BitVec 4).toNat ∧ 12 ≤ (15 : BitVec 4).toNat ∧
    8 ≤ ((0x800000 : CmdWord).extractLsb' 20 4).toNat := by decide +kernel
theorem witness_ResetZeroesThePsgOnly : Ready (withChannel ramp) := witness_ready.2.2
theorem witness_UpdateMixesEnabledChannels : Ready (withChannel ramp) := witness_ready.2.2
/-- A ready block, an instruction that writes channel 6, and a step. -/
theorem witness_ChannelsSixAndSevenAreSilent :
    Ready (withChannel ramp) ∧
    (∃ t, exec (.wrCtrl 0x9F) { idle [] with psg := { Psg.powerOn with sel := 6 } } = .next t ∧
      (t.psg.ch[6].ctrl == 0x9F) = true) ∧
    ∃ t, step { started [0x21, 0xFF] with cmds := [0x700002] } = .next t ∧ (t.stg.length == 2) = true :=
  ⟨witness_ready.2.2, of_nextIs (by decide +kernel), of_nextIs (by decide +kernel)⟩
theorem witness_StopAndStatusChangeNothing : Ready (started [0x21]) := witness_ready.2.1

/-- A ready block whose selected channel falls out of DDA, and one whose DDA bit stays. -/
theorem witness_WrCtrlClearsIndexOnlyOnDdaFall :
    Ready (withChannel { ramp with ctrl := 0x40, index := 7 }) ∧
    ((withChannel { ramp with ctrl := 0x40, index := 7 }).psg.ch[0]).ctrl.getLsbD 6 = true ∧
    (0x80 : Byte).getLsbD 6 = false ∧ (0x40 : Byte).getLsbD 6 = true := by decide +kernel

/-- Each mode of the selected channel, with the index at its last entry. -/
theorem witness_WrWdataFollowsMode :
    Ready (withChannel { ramp with index := 31 }) ∧ Ready (withChannel { ramp with ctrl := 0x80, index := 31 }) ∧
    Ready (withChannel { ramp with ctrl := 0x40 }) ∧ Ready (withChannel { ramp with ctrl := 0xC0 }) := by
  decide +kernel

theorem witness_WaveformWritesWrapIndex :
    Ready (withChannel { ramp with index := 31 }) ∧
    ((withChannel { ramp with index := 31 }).psg.ch[(withChannel { ramp with index := 31 }).psg.sel.toNat]).ctrl.getLsbD
      6 = false ∧
    ((List.range 32).map (BitVec.ofNat 8)).length = 32 := by decide +kernel

/-- Two blocks that differ outside the PSG, counts at the edge of 20 bits, and a block with no channel enabled. -/
theorem witness_UpdateSplitsAndIsPure :
    Ready (idle []) ∧ Ready (started []) ∧ (idle []).psg = (started []).psg ∧ (idle []).cfg = (started []).cfg ∧
    (0xFFFFE : BitVec 20).toNat + (1 : BitVec 20).toNat < 2 ^ 20 ∧
    (∀ k : AudioSlot, ((idle []).psg.ch[slotChannel k]).ctrl.getLsbD 7 = false) ∧
    nextIs (exec (.update 1) (idle [])) (fun _ => true) = true := by decide +kernel

theorem witness_DefaultTablesNeverWrap :
    (withChannel { ramp with ctrl := 0x9F }).cfg.scaleTab = scaleTabDefault ∧
    (withChannel { ramp with ctrl := 0x9F }).cfg.volTable = volTableDefault ∧
    ∃ t, exec (.update 1) (withChannel { ramp with ctrl := 0x9F }) = .next t ∧
      (t.result == .frames [⟨-5456, -5456⟩]) = true :=
  ⟨rfl, rfl, of_nextIs (by decide +kernel)⟩

theorem witness_ZeroLevelsSilenceASide : dcfg.scaleTab = scaleTabDefault ∧ dcfg.volTable = volTableDefault ∧
    gain dcfg 0 31 15 = 0 ∧ gain dcfg 15 0 15 = 0 ∧ gain dcfg 15 31 0 = 0 ∧ gain dcfg 15 31 15 = 341 := by
  decide +kernel

/-- The attenuation sum below the clamp, at it and above it, by R142's row of attenuations (nibble 14: 2,
nibble 8: 15, nibble 1: 28), and the largest step that fits u32. -/
theorem witness_ZeroLevelsSilenceASide_sum :
    (∀ x : Fin 16, dcfg.scaleTab[x] ≤ 31) ∧
    (5 : Int) = min 31 ((31 - (dcfg.scaleTab[(14 : BitVec 4).toNat] : Int)) + (31 - 30) +
      (31 - (dcfg.scaleTab[(14 : BitVec 4).toNat] : Int))) ∧
    (31 : Int) = min 31 ((31 - (dcfg.scaleTab[(8 : BitVec 4).toNat] : Int)) + (31 - 30) +
      (31 - (dcfg.scaleTab[(8 : BitVec 4).toNat] : Int))) ∧
    (31 : Int) = min 31 ((31 - (dcfg.scaleTab[(1 : BitVec 4).toNat] : Int)) + (31 - 31) +
      (31 - (dcfg.scaleTab[(8 : BitVec 4).toNat] : Int))) ∧
    (gain dcfg 14 30 14, gain dcfg 8 30 8, gain dcfg 1 31 8) = (143, 0, 0) := by decide +kernel

/-- R147's configuration, a step at the edge of u32 and one past it, and a table of steps. -/
theorem witness_ZeroLevelsSilenceASide_step :
    ({ dcfg with psgClock := 3579545, rate := 44100 }).waveStepTab = .formula ∧
    1048575 * 4096 < 2 ^ 32 * (1 * (1 : BitVec 12).toNat) ∧
    ({ dcfg with psgClock := 1048575, rate := 1 }).waveStep 1 = 0xFFFFF000 ∧
    ({ dcfg with psgClock := 1048576, rate := 1 }).waveStep 1 = 0 ∧
    ({ dcfg with waveStepTab := .table (List.replicate 4096 7) }).waveStep 0xFFF = 7 := by decide +kernel

/-- `CTRL_SEQ_OFFSET` has an entry at `envSel`, has none, and the duration is the product. -/
theorem witness_NoteStartsANote :
    Running (fetching [0x21]) ∧
    (fetching [0x21]).cfg.ctrlSeqOffset[(fetching [0x21]).slotNow.envSel]? = some 0 ∧
    ({ fetching [0x21] with cfg := { t0 with ctrlSeqOffset := [] } }).cfg.ctrlSeqOffset[(0 : Nat)]? = none ∧
    (fetching [0x21]).cfg.durFn = .product := by decide +kernel

theorem witness_TerminateEndsTheSlot : Running (fetching [0xFF]) := by decide +kernel
theorem witness_TransposeAndDurationBaseAreSet : Running (fetching [0xF1, 3]) := by decide +kernel
theorem witness_OneByteControlsAdvanceByOne : Running (fetching [0xF3]) := by decide +kernel
theorem witness_UndescribedIsRefused : Running (fetching [0xFE]) := by decide +kernel

/-- The last bank there is, and the first there is not. -/
theorem witness_SelectBankSchedulesUploadOrFaults :
    Running (fetching []) ∧ (1 : Byte).toNat < (fetching []).cfg.waveBank.length ∧
    (fetching []).cfg.waveBank.length ≤ (2 : Byte).toNat := by decide +kernel

theorem witness_SegmentsLoadAndApply : Running (enveloping 0) ∧ (0 : Byte) = 0 ∧ (1 : Byte) ≠ 0 := by decide +kernel

/-- A segment of hold count 2 at its first and its last application, and an ended and a frozen envelope. -/
theorem witness_SegmentAppliesForItsHoldCount :
    Running (enveloping 0) ∧ (enveloping 0).slotNow.envPos = some 0 ∧
    (enveloping 0).slotNow.envHoldFlag = false ∧ (enveloping 0).slotNow.envHold = 0 ∧
    decodeEnv (enveloping 0).cfg 0 = .seg 0xFF 0x00 0x02 3 ∧ 2 ≤ (0x02 : Byte).toNat ∧
    (started []).slotNow.envPos = none ∧
    ((enveloping 0).modSlot fun S => { S with envHoldFlag := true }).slotNow.envHoldFlag = true ∧
    (envSteps 2 (enveloping 0)).slotNow.volume = 29 := by decide +kernel

theorem witness_OnlyNoteAndTerminateEndTheFetch :
    Running (fetching [0x21]) ∧ (fetching [0x21]).proc = .events ∧
    Running (runEvent (.note 2 1) (fetching [0x21])) ∧ Running (runEvent (.envHoldOn 0xF3) (fetching [0xF3])) := by
  decide +kernel

theorem witness_StreamLoopsEnd :
    (fetching [0xD0, 0xD0]).cfg.wf = true ∧ (fetching [0xD0, 0xD0]).proc = .events ∧
    (enveloping 0).cfg.wf = true ∧ (enveloping 0).proc = .envelope := by decide +kernel

/-- The pitch sums 0 and 31, the ends of the table, and -1 and 32 outside it. -/
theorem witness_PitchStepResolvesOrFaults :
    pitchSum t0 Slot.powerOn = 0 ∧ pitchSum t0 { Slot.powerOn with transpose := 31 } = 31 ∧
    t0.pitchLut.length = 32 ∧ pitchSum t0 { Slot.powerOn with transpose := 0xFF } = -1 ∧
    pitchSum t0 { Slot.powerOn with transpose := 32 } = 32 := by decide +kernel

/-- Q1 without the transpose: the cue's first tick reads the note 0x21. -/
theorem witness_SlotStepPlaysTheNextNote :
    Running (started [0x21]) ∧ ((started [0x21]).slot[slotIndex 0]).active = true ∧
    (wrap16 (((started [0x21]).slot[slotIndex 0]).countdown.toInt - 1)).toInt ≤ 0 ∧
    ((started [0x21]).slot[slotIndex 0]).envHoldFlag = false ∧
    ((started [0x21]).slot[slotIndex 0]).cursor = some 0 ∧
    decodeEvent (started [0x21]).cfg ((started [0x21]).cfg.eventData.drop 0) = .ok (.note 2 1) ∧
    (started [0x21]).cfg.ctrlSeqOffset[((started [0x21]).slot[slotIndex 0]).envSel]? = some 0 ∧
    decodeEnv (started [0x21]).cfg 0 = .seg 0xFF 0x00 0x02 3 ∧
    pitchLookup (started [0x21]).cfg (pitchSum (started [0x21]).cfg
      (Slot.applySegment { (started [0x21]).slot[slotIndex 0] with
        countdown := (started [0x21]).cfg.duration 1 1, basePitch := 2, envPos := some (0 + 3), envHold := 0x02
        envDv := 0xFF, envDp := 0x00, volume := 31, pitchBend := 0, cursor := some (0 + 1) })) = some 0x780 := by
  decide +kernel

/-- Q14: slots 1 to 5 of a cue that uses slot 0 only. -/
theorem witness_NullCursorTerminatesTheSlot :
    Running (started []) ∧ (started []).cfg.wf = true ∧ ((started []).slot[slotIndex 1]).active = true ∧
    ((started []).slot[slotIndex 1]).cursor = none ∧
    (wrap16 (((started []).slot[slotIndex 1]).countdown.toInt - 1)).toInt ≤ 0 := by decide +kernel

theorem witness_PushWritesEverySlot : ∀ k : AudioSlot,
    ((started []).slot[slotIndex k]).active = true → ((started []).slot[slotIndex k]).uploadPending = true →
    ((started []).slot[slotIndex k]).waveBank < (started []).cfg.nWaves := fun k _ _ => started_banks [] k

theorem witness_PushWriteCount : ∀ k : AudioSlot,
    ((started []).slot[slotIndex k]).active = true → ((started []).slot[slotIndex k]).uploadPending = true →
    ((started []).slot[slotIndex k]).waveBank < (started []).cfg.nWaves := fun k _ _ => started_banks [] k

/-- A block whose slot 0 holds a note: countdown 2, inside a segment, its pitch in the table, upload pending. -/
def holding : State :=
  (idle []).modSlot fun S => { S with
    active := true, countdown := 2, volume := 31, envPos := some 3, envHold := 1, envDv := 0xFF
    uploadPending := true, cursor := some 0 }

theorem witness_TickAdvancesHeldNotes :
    Ready holding ∧ (holding.slot[slotIndex 0]).active = true ∧
    ∀ k : AudioSlot, Holds holding.cfg holding.slot[slotIndex k] := by decide +kernel

/-- Q1: a cue's first tick, in which slot 0 reads a note and a segment and the other slots terminate, and a
tick that one slot's steps stop. -/
theorem witness_TickAdvancesHeldNotes_fetching :
    Running (started [0x21, 0xFF]) ∧ (started [0x21, 0xFF]).lock = .free ∧
    (∀ k : AudioSlot, Running (slotStep k (started [0x21, 0xFF]))) ∧
    (∀ k : AudioSlot, ((started [0x21, 0xFF]).slot[slotIndex k]).waveBank < (started [0x21, 0xFF]).cfg.nWaves) ∧
    (∃ t, exec .tick (started [0x21, 0xFF]) = .next t ∧ (!t.stopped && t.psg.ch[0].ctrl == 0x9E) = true) ∧
    ¬ Running (slotStep 0 (started [0xFE])) :=
  ⟨by decide +kernel, rfl, by decide +kernel, started_banks [0x21, 0xFF], of_nextIs (by decide +kernel),
    by decide +kernel⟩

/-- Q6: a tick that is refused. -/
theorem witness_StoppedTickKeepsThePsg :
    ∃ t, exec .tick (started [0xFE]) = .next t ∧ t.stopped = true := of_nextIs (by decide +kernel)

/-- Q1: a tick that moves the cursor of slot 0 and leaves slot 1's NULL. -/
theorem witness_CursorsOnlyMoveForward :
    ∃ t, exec .tick (started [0x21, 0xFF]) = .next t ∧
      (t.slot[0].cursor == some 1 && t.slot[1].cursor == none) = true := of_nextIs (by decide +kernel)

/-- The same tick inside a `FILL`. -/
theorem witness_CursorsOnlyMoveForward_fill :
    ∃ t, exec (.fill 1) (started [0x21, 0xFF]) = .next t ∧
      (t.slot[0].cursor == some 1 && t.slot[1].cursor == none) = true := of_nextIs (by decide +kernel)

/-- A cue with an entry and one without. -/
theorem witness_StartBeginsACue :
    Ready (idle []) ∧ (idle []).cfg.cueOffsets 0 = some #v[some 0, none, none, none, none, none] ∧
    (idle []).cfg.cueOffsets 1 = none := by decide +kernel

theorem blockInv_started (ev : List Byte) (h : (tcfg ev cb0).wf = true) : BlockInv (started ev) where
  cfg := h
  stg := Nat.zero_le _
  audio k := by
    refine ⟨started_banks ev k, ?_, ?_⟩
    · have h0 : ((started []).slot[slotIndex k]).cursor.getD 0 = 0 := by
        revert k
        decide +kernel
      exact Nat.le_trans (Nat.le_of_eq h0) (Nat.zero_le _)
    · show ((started []).slot[slotIndex k]).envSel = 0
      revert k
      decide +kernel
  shadow k hk := by
    show (started []).slot[k] = Slot.powerOn
    revert hk
    revert k
    decide +kernel
  marks := .inl rfl

theorem witness_ResetThenStartIsPowerOnStart :
    Ready (started []) ∧ BlockInv (started []) ∧ ((started []).cfg.cueOffsets 0).isSome = true :=
  ⟨by decide +kernel, blockInv_started [] (by decide +kernel), by decide +kernel⟩

/-- A request that takes all that is staged. -/
theorem witness_FillServesFromStaging :
    Ready { idle [] with stg := [Frame.silent, Frame.silent] } ∧
    (2 : BitVec 20).toNat ≤ ({ idle [] with stg := [Frame.silent, Frame.silent] }).stg.length := by decide +kernel

/-- P4, command 2: two periods, neither of which stops. -/
theorem witness_FillReturnsTheFrameStream :
    Ready (started [0xF0, 0x02, 0x21, 0xFF]) ∧ 1 ≤ (started [0xF0, 0x02, 0x21, 0xFF]).cfg.spp ∧
    fillTicks (started [0xF0, 0x02, 0x21, 0xFF]).cfg.spp (started [0xF0, 0x02, 0x21, 0xFF]).stg.length 6 = 2 ∧
    Running (afterPeriods 2 (started [0xF0, 0x02, 0x21, 0xFF])) := by decide +kernel

/-- P4: `FILL 8` split into 6 and 2. -/
theorem witness_FillSplitsFreely :
    (6 : BitVec 20).toNat + (2 : BitVec 20).toNat < 2 ^ 20 ∧ (started [0xF0, 0x02, 0x21, 0xFF]).cfg.wf = true ∧
    ∃ t, exec (.fill (6 + 2)) (started [0xF0, 0x02, 0x21, 0xFF]) = .next t ∧ (!t.stopped) = true :=
  ⟨by decide, by decide +kernel, of_nextIs (by decide +kernel)⟩

/-- Power-on: no cue, nothing staged. -/
theorem witness_FillIsSilentWithoutACue :
    Ready (idle []) ∧ 1 ≤ (idle []).cfg.spp ∧ (∀ k : AudioSlot, ((idle []).slot[slotIndex k]).active = false) ∧
    ∀ f ∈ (idle []).stg, f = { l := 0, r := 0 } := by decide +kernel

/-- A `FILL` that completes, and X13, one that faults in its second tick. -/
theorem witness_FillNeverUnderproduces :
    (∃ t, exec (.fill 2) (started [0x21, 0xFF]) = .next t ∧ (!t.stopped) = true) ∧
    (∃ t, exec (.fill 6) (started [0x21]) = .next t ∧ t.stopped = true) :=
  ⟨of_nextIs (by decide +kernel), of_nextIs (by decide +kernel)⟩

/-- An instruction and a step with a next state, for the statements about all of them. -/
theorem witness_ConfigurationIsNeverWritten :
    (∃ t, exec .tick (started [0x21, 0xFF]) = .next t ∧ (t.slot[0].cursor == some 1) = true) ∧
    (∃ t, step { idle [] with cmds := [0x400000] } = .next t ∧ (t.lastCue == some 0) = true) :=
  ⟨of_nextIs (by decide +kernel), of_nextIs (by decide +kernel)⟩

theorem witness_ShadowSlotsAreInert :
    (6 : Nat) ≤ (6 : Fin 12).val ∧ ∃ t, exec (.start 0) (idle []) = .next t ∧ (t.slot[5].active) = true :=
  ⟨by decide, of_nextIs (by decide +kernel)⟩

theorem witness_OnlyRenderingMovesCounters :
    ∃ t, exec (.wrCtrl 0x80) (withChannel { ramp with counter := 5 }) = .next t ∧
      (t.psg.ch[0].ctrl == 0x80) = true := of_nextIs (by decide +kernel)

theorem witness_OnlyStartActivatesASlot :
    ∃ t, exec (.terminate 0xFF) (fetching [0xFF]) = .next t ∧ (!t.slot[0].active) = true :=
  of_nextIs (by decide +kernel)

theorem witness_LockIsFreeBetweenSteps :
    ({ idle [] with cmds := [0x300000] }).lock = .free ∧
    ∃ t, step { idle [] with cmds := [0x300000] } = .next t ∧ (t.cmds == []) = true :=
  ⟨rfl, of_nextIs (by decide +kernel)⟩

/-- The invariant holds of a started cue, and its tick has a next state. -/
theorem witness_EveryStepKeepsTheInvariant :
    BlockInv { started [0x21, 0xFF] with cmds := [0x300000] } ∧
    ∃ t, step { started [0x21, 0xFF] with cmds := [0x300000] } = .next t ∧ (t.slot[0].cursor == some 1) = true := by
  have h := blockInv_started [0x21, 0xFF] (by decide +kernel)
  exact ⟨⟨h.cfg, h.stg, h.audio, h.shadow, h.marks⟩, of_nextIs (by decide +kernel)⟩

/-- A configuration that is well formed and one that is not: `RATE = 50` gives `SPP = 0`. -/
theorem witness_ConstructionRefusesBadConfigurations :
    t0.wf = true ∧ ({ t0 with rate := 50 }).wf = false := by decide +kernel

end Sys2Proof.Tests
end

section
/-! SUPPORT. The well-formedness of a configuration (00_scope.md R10): each check of `Config.checks` holds exactly
when the configuration meets the condition it is filed under, and construction refuses with the first check that
fails (60_exceptions.md R258). -/

namespace Sys2Proof.Machine

/-! ### The entries of one table, cue or envelope -/

/-- A check of every entry of a table, in the indices that `Meets` ranges over. -/
theorem vector_all_iff_forall_fin {α : Type} {n : Nat} {v : Vector α n} {p : α → Bool} :
    v.toList.all p = true ↔ ∀ i : Fin n, p v[i] = true := by
  rw [Vector.all_toList, Vector.all_eq_true, Fin.forall_iff]
  rfl

theorem offsetsOk_iff {len : Nat} {offs : Vector (Option Nat) 6} :
    Config.offsetsOk len offs = true ↔ ∀ (k : Fin 6) (i : Nat), offs[k] = some i → i < len ∨ i = len := by
  unfold Config.offsetsOk
  rw [vector_all_iff_forall_fin]
  refine forall_congr' fun k => ?_
  cases offs[k] with
  | none => simp
  | some i => simp [Nat.le_iff_lt_or_eq]

theorem all_itemLengthOk_iff {items : List EnvItem} :
    items.all Config.itemLengthOk = true ↔ ∀ dv dp hold len, EnvItem.seg dv dp hold len ∈ items → 1 ≤ len := by
  rw [List.all_eq_true]
  constructor
  · intro h dv dp hold len hmem
    simpa [Config.itemLengthOk] using h _ hmem
  · intro h item hmem
    cases item with
    | seg dv dp hold len => simpa [Config.itemLengthOk] using h dv dp hold len hmem
    | outside i => rfl

theorem all_itemOutsideOk_iff {n : Nat} {items : List EnvItem} :
    items.all (Config.itemOutsideOk n) = true ↔ ∀ i, EnvItem.outside i ∈ items → n ≤ i := by
  rw [List.all_eq_true]
  constructor
  · intro h i hmem
    simpa [Config.itemOutsideOk] using h _ hmem
  · intro h item hmem
    cases item with
    | seg dv dp hold len => rfl
    | outside i => simpa [Config.itemOutsideOk] using h i hmem

/-! ### The checks and the conditions -/

theorem checks_map_fst (c : Config) : c.checks.map Prod.fst = conditionOrder := rfl

theorem mem_conditionOrder (cond : ConfigCond) : cond ∈ conditionOrder := by cases cond <;> decide

/-- Every check of `Config.checks` decides the condition it is filed under. -/
theorem check_iff_meets (c : Config) : ∀ p ∈ c.checks, (p.2 = true ↔ Meets c p.1) := by
  simp only [Config.checks, List.forall_mem_cons, Meets]
  refine ⟨?spp, ?noteThreshold, ?controlOps, ?waveBank, ?pitchLut, ?scaleTab, ?soundOffsets, ?ctrlSeqOffset,
    ?envLength, ?psgClock, ?nWaves, ?waveStep, ?durFn, ?envItems, ?nil⟩
  case spp => exact decide_eq_true_iff
  case noteThreshold => simp
  case controlOps => exact beq_iff_eq
  case waveBank =>
    rw [List.all_eq_true]
    simp only [vector_all_iff_forall_fin, decide_eq_true_eq]
  case pitchLut => simp
  case scaleTab => simp only [vector_all_iff_forall_fin, decide_eq_true_eq]
  case soundOffsets => simp only [List.all_eq_true, offsetsOk_iff]
  case ctrlSeqOffset => simp
  case envLength => exact all_itemLengthOk_iff
  case psgClock => exact decide_eq_true_iff
  case nWaves => exact decide_eq_true_iff
  case waveStep => cases c.waveStepTab <;> simp
  case durFn => cases c.durFn <;> simp
  case envItems => simp only [Bool.and_eq_true, beq_iff_eq, all_itemOutsideOk_iff]
  case nil => simp

/-- A configuration is well formed exactly by the conditions of 00_scope.md R10. -/
theorem wf_iff_meets (c : Config) : c.wf = true ↔ ∀ cond, Meets c cond :=
  calc c.wf = true
    _ ↔ ∀ p ∈ c.checks, p.2 = true := List.all_eq_true
    _ ↔ ∀ p ∈ c.checks, Meets c p.1 := forall₂_congr (check_iff_meets c)
    _ ↔ ∀ cond ∈ conditionOrder, Meets c cond := by rw [← checks_map_fst c, List.forall_mem_map]
    _ ↔ ∀ cond, Meets c cond := forall_congr' fun cond => by simp [mem_conditionOrder cond]

/-! ### The first condition that fails -/

theorem firstBad_eq_none_iff {c : Config} : c.firstBad = none ↔ c.wf = true := by
  simp [Config.firstBad, Config.wf]

/-- The recorded condition is broken, and those before it in the order of 00_scope.md R10 are met. -/
theorem firstBad_first {c : Config} {cond : ConfigCond} (h : c.firstBad = some cond) :
    ∃ pre post, conditionOrder = pre ++ cond :: post ∧ (∀ d ∈ pre, Meets c d) ∧ ¬ Meets c cond := by
  obtain ⟨p, hfind, rfl⟩ := Option.map_eq_some_iff.1 h
  obtain ⟨hbad, pre, post, hchecks, hpre⟩ := List.find?_eq_some_iff_append.1 hfind
  have hmem : ∀ q ∈ pre ++ p :: post, (q.2 = true ↔ Meets c q.1) := hchecks ▸ check_iff_meets c
  refine ⟨pre.map Prod.fst, post.map Prod.fst, ?order, ?before, ?broken⟩
  case order => rw [← checks_map_fst c, hchecks, List.map_append, List.map_cons]
  case before =>
    rw [List.forall_mem_map]
    intro q hq
    exact (hmem q (List.mem_append_left _ hq)).1 (by simpa using hpre q hq)
  case broken =>
    rw [← hmem p (by simp)]
    simpa using hbad

/-! ### Construction -/

theorem powerOn_of_wf {c : Config} (h : c.wf = true) : State.powerOn c = State.blank c := by
  simp [State.powerOn, firstBad_eq_none_iff.2 h, State.blank]

@[simp] theorem powerOn_fault (c : Config) : (State.powerOn c).fault = none := rfl

@[simp] theorem powerOn_refused (c : Config) :
    (State.powerOn c).refused = c.firstBad.map RefusalRecord.config := rfl

/-- A block with a refused mark is stuck (60_exceptions.md R252). -/
theorem step_of_refused {s : State} {r : RefusalRecord} (hf : s.fault = none) (hr : s.refused = some r) :
    step s = .refused (.raised r) := by
  simp [step, stuckOutcome_refused hf hr]

/-- Settles O60: the checks decide R10's conditions one by one, and construction records the first that fails. -/
theorem constructionRefusesBadConfigurations : Obligations.ConstructionRefusesBadConfigurations := by
  intro c
  refine ⟨wf_iff_meets c, powerOn_of_wf, fun hbad => ?_⟩
  obtain ⟨cond, hfirst⟩ : ∃ cond, c.firstBad = some cond :=
    Option.ne_none_iff_exists'.1 fun h => by simp [firstBad_eq_none_iff.1 h] at hbad
  obtain ⟨pre, post, horder, hpre, hcond⟩ := firstBad_first hfirst
  have hmark : (State.powerOn c).refused = some (.config cond) := by simp [hfirst]
  exact ⟨cond, pre, post, horder, hpre, hcond, hmark, step_of_refused (powerOn_fault c) hmark⟩

end Sys2Proof.Machine
end

section
/-! SUPPORT. What an instruction does, said once: every instruction is a command or an event or segment of a stream,
with one of a few bodies, and a step runs one of these bodies. -/

namespace Sys2Proof.Machine

/-! ### The bodies of the instructions -/

/-- The bodies that host commands run. -/
inductive CommandBody : Instr → (State → State) → Prop where
  | write {i : Instr} (off : BitVec 4) (v : Byte) : CommandBody i (State.modPsg (Psg.write off v))
  | refuses {i : Instr} (r : RefusalRecord) : CommandBody i (refuse r)
  | reset : CommandBody .reset (State.modPsg fun _ => Psg.powerOn)
  | update (n : BitVec 20) : CommandBody (.update n) (updateBody n.toNat)
  | tick : CommandBody .tick tickBody
  | start (id : BitVec 16) : CommandBody (.start id) (startBody id)
  | stop (id : BitVec 16) : CommandBody (.stop id) fun s => s
  | status (id : BitVec 16) : CommandBody (.status id) fun s => { s with result := .bit (cuePlaying id s) }
  | fill (n : BitVec 20) : CommandBody (.fill n) (fillBody n.toNat)

/-- The bodies that events and segments run. -/
inductive StreamBody : Instr → (State → State) → Prop where
  | event (e : Event) : StreamBody e.toInstr (runEvent e)
  | envSeg (dv dp hold : Byte) (len : Nat) : StreamBody (.envSeg dv dp hold len) (envSegBody dv dp hold len)
  | envEnd : StreamBody .envEnd envEndBody

/-- Every instruction is a command or one instruction of a stream, with one of these bodies. -/
theorem exec_eq_command_or_stream (i : Instr) :
    (∃ body, CommandBody i body ∧ exec i = command body) ∨
      ∃ body, StreamBody i body ∧ exec i = streamInstr body := by
  cases i with
  | wrSel v => exact .inl ⟨_, .write 0 v, rfl⟩
  | wrGbal v => exact .inl ⟨_, .write 1 v, rfl⟩
  | wrFreqLo v => exact .inl ⟨_, .write 2 v, rfl⟩
  | wrFreqHi v => exact .inl ⟨_, .write 3 v, rfl⟩
  | wrCtrl v => exact .inl ⟨_, .write 4 v, rfl⟩
  | wrCbal v => exact .inl ⟨_, .write 5 v, rfl⟩
  | wrWdata v => exact .inl ⟨_, .write 6 v, rfl⟩
  | wrNoise v => exact .inl ⟨_, .write 7 v, rfl⟩
  | wrLfoFreq v => exact .inl ⟨_, .write 8 v, rfl⟩
  | wrLfoCtrl v => exact .inl ⟨_, .write 9 v, rfl⟩
  | wrRefusedAB off v => exact .inl ⟨_, .refuses (.offset off v), rfl⟩
  | wrRefusedCF off v => exact .inl ⟨_, .refuses (.offset off v), rfl⟩
  | reset => exact .inl ⟨_, .reset, rfl⟩
  | update n => exact .inl ⟨_, .update n, rfl⟩
  | tick => exact .inl ⟨_, .tick, rfl⟩
  | start id => exact .inl ⟨_, .start id, rfl⟩
  | stop id => exact .inl ⟨_, .stop id, rfl⟩
  | status id => exact .inl ⟨_, .status id, rfl⟩
  | fill n => exact .inl ⟨_, .fill n, rfl⟩
  | reservedCmd w => exact .inl ⟨_, .refuses (.cmd w), rfl⟩
  | note n m => exact .inr ⟨_, .event (.note n m), rfl⟩
  | terminate op => exact .inr ⟨_, .event (.terminate op), rfl⟩
  | setTranspose op t => exact .inr ⟨_, .event (.setTranspose op t), rfl⟩
  | setDurationBase op d => exact .inr ⟨_, .event (.setDurationBase op d), rfl⟩
  | selectWaveformBank op w => exact .inr ⟨_, .event (.selectWaveformBank op w), rfl⟩
  | envHoldOn op => exact .inr ⟨_, .event (.envHoldOn op), rfl⟩
  | envHoldOff op => exact .inr ⟨_, .event (.envHoldOff op), rfl⟩
  | unrecognized op => exact .inr ⟨_, .event (.unrecognized op), rfl⟩
  | undescribed op => exact .inr ⟨_, .event (.undescribed op), rfl⟩
  | envSeg dv dp hold len => exact .inr ⟨_, .envSeg dv dp hold len, rfl⟩
  | envEnd => exact .inr ⟨_, .envEnd, rfl⟩

/-- An instruction that answers a next state has run its body on a running block. -/
theorem exec_next {i : Instr} {s t : State} (h : exec i s = .next t) :
    Running s ∧
      ((∃ body, CommandBody i body ∧ t = endCommand (body (beginCommand s))) ∨
        ∃ body, StreamBody i body ∧ t = body s) := by
  obtain ⟨body, hbody, e⟩ | ⟨body, hbody, e⟩ := exec_eq_command_or_stream i <;> rw [e] at h
  · obtain ⟨hs, _, ht⟩ := command_next h
    exact ⟨hs, .inl ⟨body, hbody, ht⟩⟩
  · obtain ⟨hs, ht⟩ := streamInstr_next h
    exact ⟨hs, .inr ⟨body, hbody, ht⟩⟩

/-- What the body of an event does to the slot being processed, over all events: the cursor moves forwards or
stays, and `active` stays except that `TERMINATE` clears it. -/
structure StreamMove (i : Instr) (S S' : Slot) : Prop where
  cursor : ∃ n, S'.cursor = S.cursor.map (· + n)
  active : S'.active = S.active ∨ (∃ op, i = .terminate op) ∧ S'.active = false

theorem StreamMove.of_stays {i : Instr} {S S' : Slot} (hc : S'.cursor = S.cursor) (ha : S'.active = S.active) :
    StreamMove i S S' :=
  ⟨⟨0, by simp [hc]⟩, .inl ha⟩

theorem StreamMove.of_advances {i : Instr} {S S' : Slot} (n : Nat) (hc : S'.cursor = S.cursor.map (· + n))
    (ha : S'.active = S.active) : StreamMove i S S' :=
  ⟨⟨n, hc⟩, .inl ha⟩

/-- The body of an event or a segment is made of changes of the slot being processed, marks and leaving the loop:
what these keep, it keeps. -/
theorem streamBody_keeps {P : State → Prop} {i : Instr} {body : State → State} (h : StreamBody i body)
    (hmod : ∀ (f : Slot → Slot) (s : State), (∀ S, StreamMove i S (f S)) → P s → P (s.modSlot f))
    (hraise : ∀ f s, P s → P (raise f s)) (hrefuse : ∀ r s, P s → P (refuse r s))
    (hleave : ∀ s, P s → P (leaveLoop s)) {s : State} (hs : P s) : P (body s) := by
  cases h with
  | event e =>
    cases e with
    | note n m =>
      have hfirst := hmod (fun S => { S with countdown := s.cfg.duration m S.durBase, basePitch := n }) s
        (fun _ => .of_stays rfl rfl) hs
      simp only [runEvent, noteBody]
      split
      · exact hraise _ _ hfirst
      · exact hleave _ (hmod _ _ (fun _ => .of_advances 1 rfl rfl) hfirst)
    | terminate op => exact hleave _ (hmod _ _ (fun S => ⟨⟨0, by simp⟩, .inr ⟨⟨op, rfl⟩, rfl⟩⟩) hs)
    | setTranspose op t =>
      simp only [runEvent, setTransposeBody]
      exact hmod _ _ (fun _ => .of_advances 2 rfl rfl) hs
    | setDurationBase op d =>
      simp only [runEvent, setDurationBaseBody]
      exact hmod _ _ (fun _ => .of_advances 2 rfl rfl) hs
    | selectWaveformBank op w =>
      simp only [runEvent, selectWaveformBankBody]
      split
      · exact hraise _ _ hs
      · exact hmod _ _ (fun _ => .of_advances 2 rfl rfl) hs
    | envHoldOn op =>
      simp only [runEvent, envHoldOnBody]
      exact hmod _ _ (fun _ => .of_advances 1 rfl rfl) hs
    | envHoldOff op =>
      simp only [runEvent, envHoldOffBody]
      exact hmod _ _ (fun _ => .of_advances 1 rfl rfl) hs
    | unrecognized op => exact hmod _ _ (fun _ => .of_advances 1 rfl rfl) hs
    | undescribed op => exact hrefuse _ _ hs
  | envSeg dv dp hold len =>
    have hload := hmod (Slot.loadSegment dv dp hold len) s (fun _ => .of_stays rfl rfl) hs
    simp only [envSegBody]
    split
    · exact hload
    · exact hleave _ (hmod _ _ (fun _ => .of_stays rfl rfl) hload)
  | envEnd => exact hleave _ (hmod _ _ (fun _ => .of_stays rfl rfl) hs)

/-- What handing over frames, a period and the mark of a refused configuration keep, `FILL`'s loop keeps. -/
theorem fillLoop_keeps {P : State → Prop} (hrefuse : ∀ s, Running s → P s → P (refuse (.config .spp) s))
    (hdrop : ∀ (k : Nat) s, P s → P { s with stg := s.stg.drop k })
    (hresult : ∀ r s, P s → P { s with result := r }) (hperiod : ∀ s, Running s → P s → P (period s))
    (fuel need : Nat) (out : List Frame) {s : State} (hr : Running s) (hs : P s) :
    P (fillLoop fuel need out s) := by
  induction fuel generalizing need out s with
  | zero => exact hrefuse s hr hs
  | succ fuel ih =>
    simp only [fillLoop]
    split
    · exact hresult _ _ (hdrop _ s hs)
    · exact andThen_keeps (hperiod _ hr (hdrop _ s hs)) fun hr' => ih _ _ hr'

/-! ### The step -/

/-- The command a word of the queue runs: a word that is no command is refused as a reserved one is. -/
def commandWord (w : CmdWord) : Instr :=
  match decodeCommand w with
  | .ok i => i
  | _ => .reservedCmd w

/-- A word of the queue runs as a command. -/
theorem commandWord_body (w : CmdWord) :
    ∃ body, CommandBody (commandWord w) body ∧ exec (commandWord w) = command body := by
  obtain ⟨x, hx⟩ : ∃ x, encode (commandWord w) = some (.word x) := by
    unfold commandWord
    split
    · next i hi => exact decodeCommand_word hi
    · exact ⟨w, rfl⟩
  obtain hcmd | ⟨body, hbody, _⟩ := exec_eq_command_or_stream (commandWord w)
  · exact hcmd
  · generalize commandWord w = i at hx hbody
    cases hbody with
    | event e => cases e <;> simp [Event.toInstr, encode] at hx
    | envSeg dv dp hold len => simp [encode] at hx
    | envEnd => simp [encode] at hx

/-- Only a running block has a next state. -/
theorem step_next_running {s t : State} (h : step s = .next t) : Running s := by
  by_contra hs
  unfold step at h
  obtain ⟨hf, hr⟩ | ⟨hf, r, hr⟩ | ⟨f, hf⟩ :
      (s.fault = none ∧ s.refused = none) ∨ (s.fault = none ∧ ∃ r, s.refused = some r) ∨ ∃ f, s.fault = some f := by
    cases s.fault <;> cases s.refused <;> simp
  · exact hs ⟨hf, hr⟩
  · rw [stuckOutcome_refused hf hr] at h
    cases h
  · rw [stuckOutcome_fault hf] at h
    cases h

theorem step_of_idle {s : State} (hs : Running s) (hp : s.proc = .commands) (hq : s.cmds = []) :
    step s = .next s := by
  simp [step, stuckOutcome_eq_none.2 hs, hp, commandStep, hq]

theorem step_of_command {s : State} {w : CmdWord} {rest : List CmdWord} (hs : Running s) (hp : s.proc = .commands)
    (hq : s.cmds = w :: rest) : step s = exec (commandWord w) { s with cmds := rest } := by
  simp only [step, stuckOutcome_eq_none.2 hs, hp, commandStep, hq, commandWord]
  cases decodeCommand w <;> rfl

theorem step_of_events {s : State} (hs : Running s) (hp : s.proc = .events) : step s = .next (eventTurn s) := by
  simp only [step, stuckOutcome_eq_none.2 hs, hp, eventStep, eventTurn]
  cases s.fetchEvent with
  | raises f => rfl
  | event e =>
    have hexec : exec e.toInstr = streamInstr (runEvent e) := by cases e <;> rfl
    exact (congrFun hexec s).trans (streamInstr_running _ hs)

theorem step_of_envelope {s : State} (hs : Running s) (hp : s.proc = .envelope) : step s = .next (envTurn s) := by
  simp only [step, stuckOutcome_eq_none.2 hs, hp, envelopeStep, envTurn]
  cases s.slotNow.envPos with
  | none => rfl
  | some p =>
    dsimp only
    cases decodeEnv s.cfg p with
    | stop => exact streamInstr_running _ hs
    | seg dv dp hold len => exact streamInstr_running _ hs
    | oob i => rfl

theorem proc_cases (p : Proc) : p = .commands ∨ p = .events ∨ p = .envelope := by cases p <;> simp

/-- A step waits, runs a command, or is one turn of a stream, which does no more than a part of phase A does. -/
theorem step_next {s t : State} (h : step s = .next t) :
    Running s ∧
      (t = s ∨
        (∃ w rest body, CommandBody (commandWord w) body ∧ s.cmds = w :: rest ∧
          t = endCommand (body (beginCommand { s with cmds := rest }))) ∨
        SeqStep s t) := by
  have hs := step_next_running h
  refine ⟨hs, ?_⟩
  obtain hp | hp | hp := proc_cases s.proc
  · cases hq : s.cmds with
    | nil =>
      rw [step_of_idle hs hp hq] at h
      cases h
      exact .inl rfl
    | cons w rest =>
      obtain ⟨body, hbody, e⟩ := commandWord_body w
      rw [step_of_command hs hp hq, e] at h
      exact .inr (.inl ⟨w, rest, body, hbody, rfl, (command_next h).2.2⟩)
  · rw [step_of_events hs hp] at h
    cases h
    exact .inr (.inr (seqStep_eventTurn hs))
  · rw [step_of_envelope hs hp] at h
    cases h
    exact .inr (.inr (seqStep_envTurn hs))

end Sys2Proof.Machine
end

section
/-! SUPPORT. The slots of the block: what a command does to them apart from `START`, what `START` gives them, and
from this the invariant of the block and the statements about cursors, `active` and the shadow slots. -/

namespace Sys2Proof.Machine

/-! ### Slots that evolve -/

/-- No rule but `START` rewrites a slot: the configuration stays, every slot evolves forwards and the shadow slots
stay (10_state.md R40, R43). -/
structure SlotsEvolve (s t : State) : Prop where
  cfg : t.cfg = s.cfg
  slots : ∀ k : Fin 12, Evolves s.cfg s.slot[k] t.slot[k]
  shadow : ∀ k : Fin 12, 6 ≤ k.val → t.slot[k] = s.slot[k]

theorem SlotsEvolve.of_slot_eq {s t : State} (hc : t.cfg = s.cfg) (hs : t.slot = s.slot) : SlotsEvolve s t :=
  ⟨hc, fun _ => hs ▸ Evolves.rfl, fun _ _ => by rw [hs]⟩

theorem SlotsEvolve.trans {s t u : State} (h : SlotsEvolve s t) (h' : SlotsEvolve t u) : SlotsEvolve s u where
  cfg := h'.cfg.trans h.cfg
  slots k := (h.slots k).trans (h.cfg ▸ h'.slots k)
  shadow k hk := (h'.shadow k hk).trans (h.shadow k hk)

theorem SeqStep.slotsEvolve {s t : State} (h : SeqStep s t) : SlotsEvolve s t := ⟨h.cfg, h.slots, h.shadow⟩

theorem evolves_uploaded (c : Config) (S : Slot) : Evolves c S S.uploaded := by
  unfold Slot.uploaded
  split
  · exact .of_keeps id rfl rfl rfl rfl
  · exact .rfl

theorem slotsEvolve_push (s : State) : SlotsEvolve s (push s) where
  cfg := rfl
  slots k := by
    rw [push_slot]
    obtain ⟨j, rfl⟩ | hk := slot_index_cases k
    · rw [uploadedSlots_get]
      exact evolves_uploaded _ _
    · rw [uploadedSlots_shadow _ _ hk]
      exact .rfl
  shadow k hk := uploadedSlots_shadow s.slot k hk

theorem slotsEvolve_tickBody (s : State) : SlotsEvolve s (tickBody s) :=
  andThen_keeps (seqStep_phaseA s).slotsEvolve fun _ h => h.trans (slotsEvolve_push _)

theorem slotsEvolve_period (s : State) : SlotsEvolve s (period s) := by
  obtain ⟨_, e⟩ | ⟨_, e⟩ := period_cases s <;> rw [e]
  · exact (slotsEvolve_tickBody s).trans (.of_slot_eq (refill_cfg _) (refill_slot _))
  · exact slotsEvolve_tickBody s

theorem slotsEvolve_fillLoop (fuel need : Nat) (out : List Frame) {s : State} (hs : Running s) :
    SlotsEvolve s (fillLoop fuel need out s) :=
  fillLoop_keeps (fun _ _ h => h.trans (.of_slot_eq rfl rfl)) (fun _ _ h => h.trans (.of_slot_eq rfl rfl))
    (fun _ _ h => h.trans (.of_slot_eq rfl rfl)) (fun u _ h => h.trans (slotsEvolve_period u))
    fuel need out hs (.of_slot_eq rfl rfl)

/-- A command that is no `START`, no `TICK` and no `FILL` changes no slot. -/
theorem commandBody_slot {i : Instr} {body : State → State} (h : CommandBody i body) (hstart : ∀ id, i ≠ .start id)
    (htick : i ≠ .tick) (hfill : ∀ n, i ≠ .fill n) (s : State) : (body s).slot = s.slot := by
  cases h with
  | write off v => rfl
  | refuses r => rfl
  | reset => rfl
  | update n => rfl
  | tick => exact absurd rfl htick
  | start id => exact absurd rfl (hstart id)
  | stop id => rfl
  | status id => rfl
  | fill n => exact absurd rfl (hfill n)

/-- A command is `START`, or its body does no more to a slot than let it evolve. -/
theorem commandBody_start_or_evolves {i : Instr} {body : State → State} (h : CommandBody i body) {s : State}
    (hs : Running s) : (∃ id, i = .start id ∧ body = startBody id) ∨ SlotsEvolve s (body s) := by
  cases h with
  | start id => exact .inl ⟨id, rfl, rfl⟩
  | write off v => exact .inr (.of_slot_eq rfl rfl)
  | refuses r => exact .inr (.of_slot_eq rfl rfl)
  | reset => exact .inr (.of_slot_eq rfl rfl)
  | update n => exact .inr (.of_slot_eq rfl rfl)
  | tick => exact .inr (slotsEvolve_tickBody s)
  | stop id => exact .inr (.of_slot_eq rfl rfl)
  | status id => exact .inr (.of_slot_eq rfl rfl)
  | fill n => exact .inr (slotsEvolve_fillLoop _ _ _ hs)

/-! ### `START` -/

/-- `START` sets the fault mark alone, or gives every audio slot its record and leaves the shadow slots. -/
theorem startBody_cases (id : BitVec 16) (s : State) :
    startBody id s = raise (.cueId id) s ∨
      ∃ offs, s.cfg.cueOffsets id = some offs ∧
        startBody id s = { s with slot := startedSlots s.cfg offs s.slot, lastCue := some id } := by
  unfold startBody
  cases s.cfg.cueOffsets id with
  | none => exact .inl rfl
  | some offs => exact .inr ⟨offs, rfl, rfl⟩

theorem startBody_shadow (id : BitVec 16) (s : State) {k : Fin 12} (hk : 6 ≤ k.val) :
    (startBody id s).slot[k] = s.slot[k] := by
  obtain e | ⟨offs, _, e⟩ := startBody_cases id s <;> rw [e]
  · rfl
  · exact startedSlots_shadow s.cfg offs s.slot k hk

/-- The offsets of a cue of a well-formed configuration are inside the stream or at its end (00_scope.md R10). -/
theorem cueOffsets_le {c : Config} (hc : c.wf = true) {id : BitVec 16} {offs : Vector (Option Nat) 6}
    (h : c.cueOffsets id = some offs) (k : AudioSlot) : offs[k].getD 0 ≤ c.eventData.length := by
  have hoffsets := (wf_iff_meets c).1 hc .soundOffsets
  obtain ⟨pre, post, hentry, _⟩ := List.lookup_eq_some_iff.1 h
  have hmem : (id, offs) ∈ c.soundOffsets := by simp [hentry]
  cases hk : offs[k] with
  | none => simp
  | some i => exact (hoffsets _ hmem k i hk).elim Nat.le_of_lt Nat.le_of_eq

/-- The record `START` gives a slot is one the invariant allows. -/
theorem slotOk_startSlot {c : Config} (hc : c.wf = true) {id : BitVec 16} {offs : Vector (Option Nat) 6}
    (h : c.cueOffsets id = some offs) (k : AudioSlot) : SlotOk c (startSlot c offs[k]) :=
  ⟨(wf_iff_meets c).1 hc .nWaves, cueOffsets_le hc h k, rfl⟩

/-! ### The staging buffer and the marks of a command -/

/-- A period drops what was staged and stages one period's frames, or leaves the staging buffer. -/
theorem period_stg_length {s : State} (h : s.stg.length ≤ s.cfg.spp) : (period s).stg.length ≤ s.cfg.spp := by
  obtain ⟨_, e⟩ | ⟨_, e⟩ := period_cases s <;> rw [e]
  · simp
  · simpa using h

/-- `FILL` never stages more than one period (43_stream_adapter.md R232). -/
theorem fillLoop_stg_length (fuel need : Nat) (out : List Frame) {s : State} (hs : Running s)
    (h : s.stg.length ≤ s.cfg.spp) :
    (fillLoop fuel need out s).cfg = s.cfg ∧ (fillLoop fuel need out s).stg.length ≤ s.cfg.spp := by
  refine fillLoop_keeps (P := fun t => t.cfg = s.cfg ∧ t.stg.length ≤ s.cfg.spp) (fun _ _ h => h) ?drop
    (fun _ _ h => h) ?period fuel need out hs ⟨rfl, h⟩
  case drop =>
    rintro k t ⟨hc, hl⟩
    exact ⟨hc, by simp; omega⟩
  case period =>
    rintro t _ ⟨hc, hl⟩
    exact ⟨(period_cfg t).trans hc, hc ▸ period_stg_length (hc ▸ hl)⟩

theorem commandBody_stg_length {i : Instr} {body : State → State} (h : CommandBody i body) {s : State}
    (hs : Running s) (hl : s.stg.length ≤ s.cfg.spp) : (body s).stg.length ≤ s.cfg.spp := by
  cases h with
  | write off v => exact hl
  | refuses r => exact hl
  | reset => exact hl
  | update n => exact hl
  | tick => simpa using hl
  | start id => obtain e | ⟨offs, _, e⟩ := startBody_cases id s <;> rw [e] <;> exact hl
  | stop id => exact hl
  | status id => exact hl
  | fill n => exact (fillLoop_stg_length _ _ _ hs hl).2

theorem tickBody_marks {s : State} (hs : Running s) : (tickBody s).fault = none ∨ (tickBody s).refused = none := by
  obtain ⟨hr, e⟩ | ⟨_, e⟩ := tickBody_cases s <;> rw [e]
  · exact .inl ((push_fault _).trans hr.1)
  · exact (seqStep_phaseA s).marks hs

theorem period_marks {s : State} (hs : Running s) : (period s).fault = none ∨ (period s).refused = none := by
  obtain ⟨hr, e⟩ | ⟨_, e⟩ := period_cases s <;> rw [e]
  · exact .inl ((refill_fault _).trans hr.1)
  · exact tickBody_marks hs

/-- A command sets one mark at most (60_exceptions.md R262). -/
theorem commandBody_marks {i : Instr} {body : State → State} (h : CommandBody i body) {s : State}
    (hs : Running s) : (body s).fault = none ∨ (body s).refused = none := by
  cases h with
  | write off v => exact .inl hs.1
  | refuses r => exact .inl hs.1
  | reset => exact .inl hs.1
  | update n => exact .inl hs.1
  | tick => exact tickBody_marks hs
  | start id =>
    obtain e | ⟨offs, _, e⟩ := startBody_cases id s <;> rw [e]
    · exact .inr hs.2
    · exact .inl hs.1
  | stop id => exact .inl hs.1
  | status id => exact .inl hs.1
  | fill n =>
    exact fillLoop_keeps (P := fun t => t.fault = none ∨ t.refused = none) (fun _ hr _ => .inl hr.1)
      (fun _ _ h => h) (fun _ _ h => h) (fun _ hr _ => period_marks hr) _ _ _ hs (.inl hs.1)

/-! ### The invariant of the block -/

theorem SlotOk.evolves {c : Config} {S S' : Slot} (h : SlotOk c S) (e : Evolves c S S') : SlotOk c S' := by
  obtain ⟨hbank, hcursor, hsel⟩ := h
  exact ⟨e.bank hbank, e.inside hcursor, e.envSel.trans hsel⟩

/-- Slots that evolve keep the part of the invariant that speaks of slots. -/
theorem BlockInv.of_slotsEvolve {s t : State} (h : BlockInv s) (e : SlotsEvolve s t)
    (hstg : t.stg.length ≤ s.cfg.spp) (hmarks : t.fault = none ∨ t.refused = none) : BlockInv t where
  cfg := e.cfg ▸ h.cfg
  stg := e.cfg ▸ hstg
  audio k := by
    rw [e.cfg]
    exact (h.audio k).evolves (e.slots (slotIndex k))
  shadow k hk := (e.shadow k hk).trans (h.shadow k hk)
  marks := hmarks

/-- The invariant does not speak of the lock, the queue, the result or the stream a step reads. -/
theorem BlockInv.of_agree {s t : State} (h : BlockInv s) (hc : t.cfg = s.cfg) (hs : t.slot = s.slot)
    (hg : t.stg = s.stg) (hf : t.fault = s.fault) (hr : t.refused = s.refused) : BlockInv t :=
  h.of_slotsEvolve (.of_slot_eq hc hs) (hg ▸ h.stg) (by rw [hf, hr]; exact h.marks)

theorem BlockInv.seqStep {s t : State} (h : BlockInv s) (hs : Running s) (e : SeqStep s t) : BlockInv t :=
  h.of_slotsEvolve e.slotsEvolve (e.stg ▸ h.stg) (e.marks hs)

theorem BlockInv.startBody {s : State} (h : BlockInv s) (hs : Running s) (id : BitVec 16) :
    BlockInv (startBody id s) := by
  obtain e | ⟨offs, hoffs, e⟩ := startBody_cases id s <;> rw [e]
  · exact h.of_slotsEvolve (.of_slot_eq rfl rfl) h.stg (.inr hs.2)
  · exact
      { cfg := h.cfg
        stg := h.stg
        audio := fun k => by
          rw [startedSlots_get]
          exact slotOk_startSlot h.cfg hoffs k
        shadow := fun k hk => (startedSlots_shadow s.cfg offs s.slot k hk).trans (h.shadow k hk)
        marks := h.marks }

theorem BlockInv.commandBody {i : Instr} {body : State → State} {s : State} (h : BlockInv s) (hs : Running s)
    (hbody : CommandBody i body) : BlockInv (body s) := by
  obtain ⟨id, _, rfl⟩ | hevolve := commandBody_start_or_evolves hbody hs
  · exact h.startBody hs id
  · exact h.of_slotsEvolve hevolve (commandBody_stg_length hbody hs h.stg) (commandBody_marks hbody hs)

/-- Settles O58: a step waits, runs a command's body, or is one turn of a stream, and each keeps the invariant. -/
theorem everyStepKeepsTheInvariant : Obligations.EveryStepKeepsTheInvariant := by
  intro s t h hstep
  obtain ⟨hs, rfl | ⟨w, rest, body, hbody, _, rfl⟩ | hseq⟩ := step_next hstep
  · exact h
  · have hbegin : BlockInv (beginCommand { s with cmds := rest }) := h.of_agree rfl rfl rfl rfl rfl
    exact (hbegin.commandBody hs hbody).of_agree rfl rfl rfl rfl rfl
  · exact h.seqStep hs hseq

/-! ### Slots that only move forwards -/

/-- A slot is not activated, its cursor does not move backwards, and NULL stays NULL (10_state.md R36, R40). -/
structure Forward (S S' : Slot) : Prop where
  active : S'.active = true → S.active = true
  moves : ∀ c, S.cursor = some c → ∃ c', S'.cursor = some c' ∧ c ≤ c'
  null : S.cursor = none → S'.cursor = none

theorem Evolves.forward {c : Config} {S S' : Slot} (h : Evolves c S S') : Forward S S' :=
  ⟨h.active, h.moves, h.null⟩

theorem Forward.rfl {S : Slot} : Forward S S := ⟨id, fun c hc => ⟨c, hc, le_refl c⟩, id⟩

theorem Forward.trans {S S' S'' : Slot} (h : Forward S S') (h' : Forward S' S'') : Forward S S'' where
  active := h.active ∘ h'.active
  moves c hc := by
    obtain ⟨c', hc', hle⟩ := h.moves c hc
    obtain ⟨c'', hc'', hle'⟩ := h'.moves c' hc'
    exact ⟨c'', hc'', hle.trans hle'⟩
  null := h'.null ∘ h.null

theorem StreamMove.forward {i : Instr} {S S' : Slot} (h : StreamMove i S S') : Forward S S' := by
  obtain ⟨⟨n, hn⟩, ha⟩ := h
  refine ⟨fun hS' => ?_, fun c hc => ⟨c + n, by simp [hn, hc], Nat.le_add_right c n⟩, fun hc => by simp [hn, hc]⟩
  obtain ha | ⟨_, ha⟩ := ha
  · rw [← ha, hS']
  · simp [ha] at hS'

/-- What `f` does to every slot, a change of the slot being processed by `f` does to each slot or leaves it. -/
theorem modSlot_slot_cases (f : Slot → Slot) (s : State) (k : Fin 12) :
    (s.modSlot f).slot[k] = f s.slot[k] ∨ (s.modSlot f).slot[k] = s.slot[k] := by
  by_cases hk : k = slotIndex s.cur
  · subst hk
    exact .inl (modSlot_slotNow f s)
  · exact .inr (modSlot_slot_other f s hk)

/-- An event or a segment, run in any state, moves no slot backwards. -/
theorem streamBody_forward {i : Instr} {body : State → State} (h : StreamBody i body) (s : State) (k : Fin 12) :
    Forward s.slot[k] (body s).slot[k] := by
  refine streamBody_keeps (P := fun t => Forward s.slot[k] t.slot[k]) h ?_ (fun _ _ h => h) (fun _ _ h => h)
    (fun _ h => h) Forward.rfl
  intro f t hf ht
  obtain e | e := modSlot_slot_cases f t k <;> rw [e]
  · exact ht.trans (hf _).forward
  · exact ht

theorem streamBody_active {i : Instr} {body : State → State} (h : StreamBody i body) (hi : ∀ op, i ≠ .terminate op)
    (s : State) (k : Fin 12) : (body s).slot[k].active = s.slot[k].active := by
  refine streamBody_keeps (P := fun t => t.slot[k].active = s.slot[k].active) h ?_ (fun _ _ h => h) (fun _ _ h => h)
    (fun _ h => h) rfl
  intro f t hf ht
  obtain e | e := modSlot_slot_cases f t k <;> rw [e]
  · obtain ha | ⟨⟨op, hop⟩, _⟩ := (hf t.slot[k]).active
    · exact ha.trans ht
    · exact absurd hop (hi op)
  · exact ht

theorem streamBody_shadow {i : Instr} {body : State → State} (h : StreamBody i body) (s : State) {k : Fin 12}
    (hk : 6 ≤ k.val) : (body s).slot[k] = s.slot[k] := by
  refine streamBody_keeps (P := fun t => t.slot[k] = s.slot[k]) h ?_ (fun _ _ h => h) (fun _ _ h => h)
    (fun _ h => h) rfl
  intro f t _ ht
  have hcur : k ≠ slotIndex t.cur := fun e => by
    have := t.cur.isLt
    rw [e, slotIndex_val] at hk
    omega
  exact (modSlot_slot_other f t hcur).trans ht

/-- No instruction but `START` moves a slot backwards. -/
theorem exec_forward {i : Instr} {s t : State} (h : exec i s = .next t) (hstart : ∀ id, i ≠ .start id) (k : Fin 12) :
    Forward s.slot[k] t.slot[k] := by
  obtain ⟨hs, ⟨body, hbody, rfl⟩ | ⟨body, hbody, rfl⟩⟩ := exec_next h
  · obtain ⟨id, hi, _⟩ | hevolve := commandBody_start_or_evolves (s := beginCommand s) hbody hs
    · exact absurd hi (hstart id)
    · exact (hevolve.slots k).forward
  · exact streamBody_forward hbody s k

/-- Settles O44: the slots of a command evolve, and an event adds to a cursor or leaves it. -/
theorem cursorsOnlyMoveForward : Obligations.CursorsOnlyMoveForward := by
  intro i s t h hstart k
  have hk := exec_forward h hstart k
  exact ⟨hk.moves, hk.null⟩

theorem commandBody_shadow {i : Instr} {body : State → State} (h : CommandBody i body) {s : State} (hs : Running s)
    {k : Fin 12} (hk : 6 ≤ k.val) : (body s).slot[k] = s.slot[k] := by
  obtain ⟨id, _, rfl⟩ | hevolve := commandBody_start_or_evolves h hs
  · exact startBody_shadow id s hk
  · exact hevolve.shadow k hk

/-- Settles O54: `START` and the push write audio slots, and an event the slot being processed, which is one. -/
theorem shadowSlotsAreInert : Obligations.ShadowSlotsAreInert := by
  intro i s t h k hk
  obtain ⟨hs, ⟨body, hbody, rfl⟩ | ⟨body, hbody, rfl⟩⟩ := exec_next h
  · exact commandBody_shadow (s := beginCommand s) hbody hs hk
  · exact streamBody_shadow hbody s hk

/-- Settles O56: only `START` rewrites a slot, and of the events only `TERMINATE` writes `active`. -/
theorem onlyStartActivatesASlot : Obligations.OnlyStartActivatesASlot := by
  intro i s t h
  refine ⟨fun hstart k => (exec_forward h hstart k).active, fun hstart htick hfill hterm k => ?_⟩
  obtain ⟨_, ⟨body, hbody, rfl⟩ | ⟨body, hbody, rfl⟩⟩ := exec_next h
  · rw [endCommand_slot, commandBody_slot hbody hstart htick hfill, beginCommand_slot]
  · exact streamBody_active hbody hterm s k

end Sys2Proof.Machine
end

section
/-! SUPPORT. The lock between steps, the phase accumulators, and the state after reset. -/

namespace Sys2Proof.Machine

/-! ### The lock -/

/-- Settles O57: a command ends with the lock released, and a turn of a stream does not touch it. -/
theorem lockIsFreeBetweenSteps : Obligations.LockIsFreeBetweenSteps := by
  intro s t h hlock
  obtain ⟨_, rfl | ⟨w, rest, body, _, _, rfl⟩ | hseq⟩ := step_next h
  · exact hlock
  · exact endCommand_lock _
  · exact hseq.lock.trans hlock

/-! ### The phase accumulators -/

/-- Every phase accumulator of `q` is that of `p` (10_state.md R29). -/
def SameCounters (p q : Psg) : Prop := ∀ k : Fin 8, q.ch[k].counter = p.ch[k].counter

theorem sameCounters_modSelected {f : Channel → Channel} (hf : ∀ C, (f C).counter = C.counter) (p : Psg) :
    SameCounters p (p.modSelected f) := by
  intro k
  by_cases hk : k.val = p.sel.toNat
  · have hget : (p.modSelected f).ch[k] = f p.ch[k] := by simp [Psg.modSelected, Psg.selected, hk]
    rw [hget, hf]
  · rw [modSelected_ch_other f p hk]

theorem sameCounters_write (off : BitVec 4) (v : Byte) (p : Psg) : SameCounters p (p.write off v) := by
  by_cases h0 : off = 0
  · subst h0
    exact fun _ => rfl
  by_cases h1 : off = 1
  · subst h1
    exact fun _ => rfl
  rw [write_channel off v p h0 h1]
  exact sameCounters_modSelected (channel_write_counter off v) p

theorem sameCounters_writes (ws : List (BitVec 4 × Byte)) (p : Psg) : SameCounters p (p.writes ws) := by
  induction ws generalizing p with
  | nil => exact fun _ => rfl
  | cons w ws ih => exact fun k => (ih (p.write w.1 w.2) k).trans (sameCounters_write w.1 w.2 p k)

/-- A tick reaches the PSG only through the register writes of its push (20_memory.md R79). -/
theorem sameCounters_tickBody (s : State) : SameCounters s.psg (tickBody s).psg := by
  obtain ⟨_, e⟩ | ⟨_, e⟩ := tickBody_cases s <;> rw [e]
  · rw [push_psg, (seqStep_phaseA s).psg]
    exact sameCounters_writes _ _
  · rw [(seqStep_phaseA s).psg]
    exact fun _ => rfl

/-- Of the commands only `RESET`, `UPDATE` and `FILL` write a phase accumulator. -/
theorem commandBody_counters {i : Instr} {body : State → State} (h : CommandBody i body) (hreset : i ≠ .reset)
    (hupdate : ∀ n, i ≠ .update n) (hfill : ∀ n, i ≠ .fill n) (s : State) : SameCounters s.psg (body s).psg := by
  cases h with
  | write off v => exact sameCounters_write off v s.psg
  | refuses r => exact fun _ => rfl
  | reset => exact absurd rfl hreset
  | update n => exact absurd rfl (hupdate n)
  | tick => exact sameCounters_tickBody s
  | start id => obtain e | ⟨offs, _, e⟩ := startBody_cases id s <;> rw [e] <;> exact fun _ => rfl
  | stop id => exact fun _ => rfl
  | status id => exact fun _ => rfl
  | fill n => exact absurd rfl (hfill n)

/-- An event or a segment does not reach the PSG. -/
theorem streamBody_psg {i : Instr} {body : State → State} (h : StreamBody i body) (s : State) :
    (body s).psg = s.psg :=
  streamBody_keeps (P := fun t => t.psg = s.psg) h (fun _ _ _ ht => ht) (fun _ _ ht => ht) (fun _ _ ht => ht)
    (fun _ ht => ht) rfl

/-- Settles O55: a register write, so a push, keeps every counter, and an event does not reach the PSG. -/
theorem onlyRenderingMovesCounters : Obligations.OnlyRenderingMovesCounters := by
  intro i s t h hreset hupdate hfill c
  obtain ⟨_, ⟨body, hbody, rfl⟩ | ⟨body, hbody, rfl⟩⟩ := exec_next h
  · exact commandBody_counters hbody hreset hupdate hfill (beginCommand s) c
  · rw [streamBody_psg hbody]

/-! ### The state after reset -/

/-- Bringing the offsets of a cue into the stream leaves none outside it. -/
theorem fitOffsets_le {len : Nat} {offs : Vector (Option Nat) 6} {k : Fin 6} {i : Nat}
    (h : (Config.fitOffsets len offs)[k] = some i) : i ≤ len := by
  simp only [Config.fitOffsets, Fin.getElem_fin, Vector.getElem_map, Option.map_eq_some_iff] at h
  obtain ⟨j, _, rfl⟩ := h
  exact min_le_right j len

/-- A segment of the installed configuration has been given length at least 1. -/
theorem fitItem_seg {n : Nat} {item : EnvItem} {dv dp hold : Byte} {len : Nat}
    (h : Config.fitItem n item = .seg dv dp hold len) : 1 ≤ len := by
  cases item with
  | seg dv' dp' hold' len' =>
    injection h with _ _ _ hlen
    omega
  | outside i => cases h

/-- A read outside the control block of the installed configuration has been brought past its end. -/
theorem fitItem_outside {n : Nat} {item : EnvItem} {i : Nat} (h : Config.fitItem n item = .outside i) : n ≤ i := by
  cases item with
  | seg dv dp hold len => cases h
  | outside j =>
    injection h with hi
    omega

/-- The installed configuration meets every condition of 00_scope.md R10, whatever the OPEN parameters are. -/
theorem installed_meets (cond : ConfigCond) : Meets Config.installed cond := by
  cases cond with
  | spp => exact (Nat.le_div_iff_mul_le (by decide)).2 (by simp [Config.installed])
  | noteThreshold =>
    simp only [Meets, Config.installed]
    omega
  | controlOps => simp [Meets, Config.installed, Config.controlKind]
  | waveBank =>
    intro b hb i
    obtain ⟨w, _, rfl⟩ := List.mem_map.1 hb
    have := w[i].isLt
    simp only [Fin.getElem_fin, Vector.getElem_map] at this ⊢
    omega
  | pitchLut =>
    intro x hx
    obtain ⟨w, _, rfl⟩ := List.mem_map.1 hx
    omega
  | scaleTab =>
    simp only [Meets, Config.installed]
    decide
  | soundOffsets =>
    intro e he k i hi
    obtain ⟨cue, _, rfl⟩ := List.mem_map.1 he
    exact Nat.lt_or_eq_of_le (fitOffsets_le hi)
  | ctrlSeqOffset =>
    intro i hi
    exact of_decide_eq_true (List.mem_filter.1 hi).2
  | envLength =>
    intro dv dp hold len hmem
    obtain ⟨p, _, hp⟩ := List.mem_map.1 hmem
    exact fitItem_seg hp
  | psgClock => simp [Meets, Config.installed]
  | nWaves => simp [Meets, Config.installed]
  | waveStep => simp [Meets, Config.installed]
  | durFn => simp [Meets, Config.installed]
  | envItems =>
    refine ⟨by simp [Config.installed], fun i hmem => ?_⟩
    obtain ⟨p, _, hp⟩ := List.mem_map.1 hmem
    exact fitItem_outside hp

/-- A block constructed with a well-formed configuration meets the invariant. -/
theorem blockInv_blank {c : Config} (h : c.wf = true) : BlockInv (State.blank c) where
  cfg := h
  stg := Nat.zero_le _
  audio k := by
    have hslot : (State.blank c).slot[slotIndex k] = Slot.powerOn := by simp [State.blank]
    rw [hslot]
    exact ⟨(wf_iff_meets c).1 h .nWaves, Nat.zero_le _, rfl⟩
  shadow k _ := by simp [State.blank]
  marks := .inl rfl

/-- Settles O59: the installed configuration is well formed, so construction with it sets no mark. -/
theorem resetMeetsTheInvariant : Obligations.ResetMeetsTheInvariant := by
  have hwf : Config.installed.wf = true := (wf_iff_meets _).2 installed_meets
  exact ⟨blockInv_blank hwf, ⟨⟨rfl, rfl⟩, rfl, rfl⟩, powerOn_of_wf hwf⟩

end Sys2Proof.Machine
end

section
/-! SUPPORT. Channels 6 and 7 (10_state.md R22): what every body does to two blocks that differ there only. All but
the register writes and `RESET` carry the two channels through as they are. -/

namespace Sys2Proof.Machine

/-! ### Two PSG cores that differ in channels 6 and 7 -/

/-- The channels with 6 and 7 replaced. -/
def spareChannels (C6 C7 : Channel) (v : Vector Channel 8) : Vector Channel 8 := (v.set 6 C6).set 7 C7

/-- The PSG core with the channels 6 and 7 replaced. -/
def Psg.withSpare (C6 C7 : Channel) (p : Psg) : Psg := { p with ch := spareChannels C6 C7 p.ch }

theorem withSpare_psg (C6 C7 : Channel) (s : State) :
    s.withSpare C6 C7 = { s with psg := s.psg.withSpare C6 C7 } := rfl

theorem spareChannels_get (C6 C7 : Channel) (v : Vector Channel 8) {k : Fin 8} (hk : k.val < 6) :
    (spareChannels C6 C7 v)[k] = v[k] := by
  have h6 : 6 ≠ k.val := by omega
  have h7 : 7 ≠ k.val := by omega
  simp [spareChannels, Vector.getElem_set_ne, h6, h7]

theorem spareChannels_set (C6 C7 C : Channel) (v : Vector Channel 8) {k : Fin 8} (hk : k.val < 6) :
    (spareChannels C6 C7 v).set k C = spareChannels C6 C7 (v.set k C) := by
  have h6 : 6 ≠ k.val := by omega
  have h7 : 7 ≠ k.val := by omega
  rw [spareChannels, Vector.set_comm _ _ h7, Vector.set_comm _ _ h6, spareChannels]

/-- Rendering neither reads nor changes channels 6 and 7 (41_psg_render.md R150). -/
theorem update_withSpare (c : Config) (n : Nat) (p : Psg) (C6 C7 : Channel) :
    (p.withSpare C6 C7).update c n = ((p.update c n).1.withSpare C6 C7, (p.update c n).2) := by
  have hfold : ∀ (ks : List (Fin 8)) (p : Psg) (out : List Frame), (∀ k ∈ ks, k.val < 6) →
      ks.foldl (renderInto c) (p.withSpare C6 C7, out) =
        ((ks.foldl (renderInto c) (p, out)).1.withSpare C6 C7, (ks.foldl (renderInto c) (p, out)).2) := by
    intro ks
    induction ks with
    | nil => exact fun _ _ _ => rfl
    | cons k ks ih =>
      intro p out hks
      obtain ⟨hk, hks⟩ := List.forall_mem_cons.1 hks
      have hone : renderInto c (p.withSpare C6 C7, out) k =
          ((renderInto c (p, out) k).1.withSpare C6 C7, (renderInto c (p, out) k).2) := by
        simp only [renderInto, Psg.withSpare, spareChannels_get C6 C7 p.ch hk, spareChannels_set C6 C7 _ p.ch hk]
      rw [List.foldl_cons, hone, ih _ _ hks, List.foldl_cons]
  exact hfold renderedChannels p _ (by decide)

/-- The push of one slot neither reads nor changes channels 6 and 7. -/
theorem slotWrites_withSpare (c : Config) (k : AudioSlot) (S : Slot) (p : Psg) (C6 C7 : Channel) :
    (p.withSpare C6 C7).writes (slotWrites c k S) = (p.writes (slotWrites c k S)).withSpare C6 C7 := by
  have hk : (slotChannel k).val < 6 := k.isLt
  simp only [slot_writes_channel, Psg.withSpare, spareChannels_get C6 C7 p.ch hk, spareChannels_set C6 C7 _ p.ch hk]

/-- The push neither reads nor changes channels 6 and 7. -/
theorem pushWrites_withSpare (c : Config) (slots : Vector Slot 12) (p : Psg) (C6 C7 : Channel) :
    (p.withSpare C6 C7).writes (pushWrites c slots) = (p.writes (pushWrites c slots)).withSpare C6 C7 := by
  have hslots : ∀ (ks : List AudioSlot) (p : Psg),
      (p.withSpare C6 C7).writes (ks.flatMap fun k => slotWrites c k slots[slotIndex k]) =
        (p.writes (ks.flatMap fun k => slotWrites c k slots[slotIndex k])).withSpare C6 C7 := by
    intro ks
    induction ks with
    | nil => exact fun _ => rfl
    | cons k ks ih =>
      intro p
      rw [List.flatMap_cons, writes_append, slotWrites_withSpare, ih, writes_append]
  exact hslots audioSlots (p.writeGbal c.globalBalPush)

/-! ### Bodies that carry channels 6 and 7 through -/

/-- What `f` does, it does alike on two blocks that differ in channels 6 and 7 only, and it keeps those. -/
def SpareSilent (f : State → State) : Prop :=
  ∀ (C6 C7 : Channel) (s : State), f (s.withSpare C6 C7) = (f s).withSpare C6 C7

theorem spareSilent_andThen {f : State → State} (hf : SpareSilent f) (C6 C7 : Channel) (s : State) :
    (s.withSpare C6 C7).andThen f = (s.andThen f).withSpare C6 C7 := by
  obtain ⟨hs, e⟩ | ⟨hs, e⟩ := andThen_cases s f <;> rw [e]
  · rw [andThen_running (s := s.withSpare C6 C7) hs, hf]
  · rw [andThen_stopped (s := s.withSpare C6 C7) hs]

theorem spareSilent_updateBody (n : Nat) : SpareSilent (updateBody n) := by
  intro C6 C7 s
  simp only [withSpare_psg, updateBody, update_withSpare]

theorem spareSilent_refill : SpareSilent refill := by
  intro C6 C7 s
  simp only [withSpare_psg, refill, update_withSpare]

theorem spareSilent_push : SpareSilent push := by
  intro C6 C7 s
  simp only [withSpare_psg, push, pushWrites_withSpare]

/-- Phase A looks at no PSG register at all. -/
theorem spareSilent_phaseA : SpareSilent phaseA := by
  intro C6 C7 s
  have houtside := outside_phaseA s.lock s.result s.stg (s.psg.withSpare C6 C7) s
  have hseq := seqStep_phaseA s
  have hkeep : (phaseA s).withSpare C6 C7 = (phaseA s).outside s.lock s.result s.stg (s.psg.withSpare C6 C7) := by
    simp only [withSpare_psg, State.outside, ← hseq.lock, ← hseq.result, ← hseq.stg, ← hseq.psg]
  rw [hkeep, ← houtside]
  rfl

theorem spareSilent_tickBody : SpareSilent tickBody := by
  intro C6 C7 s
  rw [tickBody, spareSilent_phaseA, spareSilent_andThen spareSilent_push, tickBody]

theorem spareSilent_period : SpareSilent period := by
  intro C6 C7 s
  rw [period, spareSilent_tickBody, spareSilent_andThen spareSilent_refill, period]

theorem spareSilent_fillLoop (fuel need : Nat) (out : List Frame) : SpareSilent (fillLoop fuel need out) := by
  induction fuel generalizing need out with
  | zero => exact fun _ _ _ => rfl
  | succ fuel ih =>
    intro C6 C7 s
    by_cases hneed : need - min need s.stg.length = 0
    · have hneed' : need - min need (s.withSpare C6 C7).stg.length = 0 := hneed
      simp only [fillLoop, if_pos hneed, if_pos hneed']
      rfl
    · have hneed' : ¬ need - min need (s.withSpare C6 C7).stg.length = 0 := hneed
      simp only [fillLoop, if_neg hneed, if_neg hneed']
      generalize hu : { s with stg := s.stg.drop (min need s.stg.length) } = u
      have hdrop : { s.withSpare C6 C7 with stg := s.stg.drop (min need s.stg.length) } = u.withSpare C6 C7 :=
        hu ▸ rfl
      rw [withSpare_stg, hdrop, spareSilent_period, spareSilent_andThen (ih _ _)]

theorem spareSilent_startBody (id : BitVec 16) : SpareSilent (startBody id) := by
  intro C6 C7 s
  simp only [startBody, withSpare_cfg]
  cases s.cfg.cueOffsets id with
  | none => rfl
  | some offs => rfl

theorem spareSilent_runEvent (e : Event) : SpareSilent (runEvent e) := by
  intro C6 C7 s
  cases e with
  | note n m =>
    have hfirst (f : Slot → Slot) : (s.withSpare C6 C7).modSlot f = (s.modSlot f).withSpare C6 C7 := rfl
    simp only [runEvent, noteBody, withSpare_cfg, hfirst]
    generalize s.modSlot _ = s'
    have hslot : (s'.withSpare C6 C7).slotNow = s'.slotNow := rfl
    rw [hslot]
    cases s'.cfg.ctrlSeqOffset[s'.slotNow.envSel]? with
    | none => rfl
    | some pos => rfl
  | terminate op => rfl
  | setTranspose op t => rfl
  | setDurationBase op d => rfl
  | selectWaveformBank op w =>
    by_cases hbank : s.cfg.nWaves ≤ w.toNat
    · have hbank' : (s.withSpare C6 C7).cfg.nWaves ≤ w.toNat := hbank
      simp only [runEvent, selectWaveformBankBody, if_pos hbank, if_pos hbank']
      rfl
    · have hbank' : ¬ (s.withSpare C6 C7).cfg.nWaves ≤ w.toNat := hbank
      simp only [runEvent, selectWaveformBankBody, if_neg hbank, if_neg hbank']
      rfl
  | envHoldOn op => rfl
  | envHoldOff op => rfl
  | unrecognized op => rfl
  | undescribed op => rfl

theorem spareSilent_envSegBody (dv dp hold : Byte) (len : Nat) : SpareSilent (envSegBody dv dp hold len) := by
  intro C6 C7 s
  simp only [envSegBody]
  split <;> rfl

theorem spareSilent_eventTurn : SpareSilent eventTurn := by
  intro C6 C7 s
  have hfetch : (s.withSpare C6 C7).fetchEvent = s.fetchEvent := rfl
  simp only [eventTurn, hfetch]
  cases s.fetchEvent with
  | raises f => rfl
  | event e => exact spareSilent_runEvent e C6 C7 s

theorem spareSilent_envTurn : SpareSilent envTurn := by
  intro C6 C7 s
  have hslot : (s.withSpare C6 C7).slotNow = s.slotNow := rfl
  simp only [envTurn, hslot, withSpare_cfg]
  cases s.slotNow.envPos with
  | none => rfl
  | some p =>
    dsimp only
    cases decodeEnv s.cfg p with
    | stop => rfl
    | seg dv dp hold len => exact spareSilent_envSegBody dv dp hold len C6 C7 s
    | oob i => rfl

/-! ### Instructions and steps -/

/-- `RESET` replaces channels 6 and 7 with the others. -/
theorem powerOn_withSpare : Psg.powerOn.withSpare Channel.powerOn Channel.powerOn = Psg.powerOn := by
  simp only [Psg.withSpare, spareChannels, Psg.powerOn, Vector.set_replicate_self]

/-- A command on two blocks that differ in channels 6 and 7 only leaves two that differ there only. -/
theorem commandBody_withSpare {i : Instr} {body : State → State} (h : CommandBody i body) (C6 C7 : Channel)
    (s : State) : ∃ D6 D7, body (s.withSpare C6 C7) = (body s).withSpare D6 D7 := by
  cases h with
  | write off v =>
    obtain ⟨D6, D7, e⟩ := write_spare off v s.psg C6 C7
    exact ⟨D6, D7, congrArg (fun p => { s with psg := p }) e⟩
  | reset => exact ⟨Channel.powerOn, Channel.powerOn, congrArg (fun p => { s with psg := p }) powerOn_withSpare.symm⟩
  | refuses r => exact ⟨C6, C7, rfl⟩
  | update n => exact ⟨C6, C7, spareSilent_updateBody _ C6 C7 s⟩
  | tick => exact ⟨C6, C7, spareSilent_tickBody C6 C7 s⟩
  | start id => exact ⟨C6, C7, spareSilent_startBody id C6 C7 s⟩
  | stop id => exact ⟨C6, C7, rfl⟩
  | status id => exact ⟨C6, C7, rfl⟩
  | fill n => exact ⟨C6, C7, spareSilent_fillLoop _ _ _ C6 C7 s⟩

theorem spareSilent_streamBody {i : Instr} {body : State → State} (h : StreamBody i body) : SpareSilent body := by
  cases h with
  | event e => exact spareSilent_runEvent e
  | envSeg dv dp hold len => exact spareSilent_envSegBody dv dp hold len
  | envEnd => exact fun _ _ _ => rfl

/-- A command runs on the block with other channels 6 and 7 as it does on the block itself. -/
theorem command_withSpare {body : State → State} {s : State} (hs : Running s) (hlock : s.lock = .free)
    {C6 C7 D6 D7 : Channel}
    (h : body ((beginCommand s).withSpare C6 C7) = (body (beginCommand s)).withSpare D6 D7) :
    command body (s.withSpare C6 C7) = .next ((endCommand (body (beginCommand s))).withSpare D6 D7) := by
  have hrun : (s.withSpare C6 C7).stuckOutcome = none := stuckOutcome_eq_none.2 hs
  have hbegin : beginCommand (s.withSpare C6 C7) = (beginCommand s).withSpare C6 C7 := rfl
  simp only [command, hrun, withSpare_lock, hlock, hbegin, h]
  rfl

theorem command_spareSilent {body : State → State} (h : SpareSilent body) {s : State} (hs : Ready s)
    (C6 C7 : Channel) :
    ∃ t, command body s = .next t ∧ command body (s.withSpare C6 C7) = .next (t.withSpare C6 C7) :=
  ⟨_, command_ready body hs, command_withSpare hs.1 hs.2.1 (h C6 C7 (beginCommand s))⟩

/-- An instruction that has a next state has one on the block that differs in channels 6 and 7 only, and the two
differ there only. -/
theorem exec_withSpare {i : Instr} {s t : State} (h : exec i s = .next t) (C6 C7 : Channel) :
    ∃ D6 D7, exec i (s.withSpare C6 C7) = .next (t.withSpare D6 D7) := by
  obtain ⟨body, hbody, e⟩ | ⟨body, hbody, e⟩ := exec_eq_command_or_stream i <;> rw [e] at h ⊢
  · obtain ⟨hs, hlock, rfl⟩ := command_next h
    obtain ⟨D6, D7, hspare⟩ := commandBody_withSpare hbody C6 C7 (beginCommand s)
    exact ⟨D6, D7, command_withSpare hs hlock hspare⟩
  · obtain ⟨hs, rfl⟩ := streamInstr_next h
    refine ⟨C6, C7, ?_⟩
    rw [streamInstr_running body (s := s.withSpare C6 C7) hs, spareSilent_streamBody hbody]

/-- A step of the block with other channels 6 and 7 waits, runs the same command or takes the same turn. -/
theorem step_withSpare {s t : State} (h : step s = .next t) (C6 C7 : Channel) :
    ∃ D6 D7, step (s.withSpare C6 C7) = .next (t.withSpare D6 D7) := by
  have hs := step_next_running h
  have hs' : Running (s.withSpare C6 C7) := hs
  obtain hp | hp | hp := proc_cases s.proc
  · cases hq : s.cmds with
    | nil =>
      rw [step_of_idle hs hp hq] at h
      cases h
      exact ⟨C6, C7, step_of_idle hs' hp hq⟩
    | cons w rest =>
      rw [step_of_command hs hp hq] at h
      rw [step_of_command hs' hp hq]
      exact exec_withSpare h C6 C7
  · rw [step_of_events hs hp] at h
    cases h
    exact ⟨C6, C7, by rw [step_of_events hs' hp, spareSilent_eventTurn]⟩
  · rw [step_of_envelope hs hp] at h
    cases h
    exact ⟨C6, C7, by rw [step_of_envelope hs' hp, spareSilent_envTurn]⟩

/-- Settles O26: `UPDATE` and `FILL` carry channels 6 and 7 through, and every other body changes no more than
them. -/
theorem channelsSixAndSevenAreSilent : Obligations.ChannelsSixAndSevenAreSilent := by
  refine ⟨fun s n C6 C7 hs => ⟨?update, ?fill⟩, fun i s t C6 C7 h => exec_withSpare h C6 C7,
    fun s t C6 C7 h => step_withSpare h C6 C7⟩
  case update => exact command_spareSilent (spareSilent_updateBody n.toNat) hs C6 C7
  case fill => exact command_spareSilent (spareSilent_fillLoop _ _ _) hs C6 C7

end Sys2Proof.Machine
end

section
/-! SUPPORT. What 20_memory.md says of commands: a step runs the command of the first waiting word (R72), the two
frequency writes commute (R65), a tick that stops has done phase A alone (R74), and nothing writes the configuration
(R61, R77). -/

namespace Sys2Proof.Machine

/-! ### The command a word runs -/

theorem commandWord_of_ok {w : CmdWord} {i : Instr} (h : decodeCommand w = .ok i) : commandWord w = i := by
  simp only [commandWord, h]

/-- Settles O6: the word of a decoded command runs as that command. -/
theorem stepRunsTheCommand : Obligations.StepRunsTheCommand := by
  intro s w rest i hs hproc hcmds hdecode
  rw [step_of_command hs hproc hcmds, commandWord_of_ok hdecode]

/-! ### The two bytes of a frequency -/

/-- A command that only changes the PSG core returns nothing and keeps the rest of a ready block. -/
theorem command_modPsg (f : Psg → Psg) {s : State} (h : Ready s) :
    command (State.modPsg f) s = .next { s with psg := f s.psg, result := .nothing } := by
  obtain ⟨hs, hlock, hproc⟩ := h
  rw [command_ready _ ⟨hs, hlock, hproc⟩, endCommand_running (s := (beginCommand s).modPsg f) hs]
  simp only [State.modPsg, beginCommand, ← hlock, ← hproc]

/-- Two commands that only change the PSG core run one after the other on a ready block. -/
theorem execAll_pair_modPsg {i j : Instr} {f g : Psg → Psg} (hi : exec i = command (State.modPsg f))
    (hj : exec j = command (State.modPsg g)) {s : State} (h : Ready s) :
    execAll [i, j] s = .next { s with psg := g (f s.psg), result := .nothing } := by
  have hready : Ready { s with psg := f s.psg, result := .nothing } := h
  simp only [execAll, hi, hj, command_modPsg f h, command_modPsg g hready]

theorem setFreqHi_setFreqLo (old : BitVec 12) (lo hi : Byte) :
    setFreqHi (setFreqLo old lo) hi = hi.extractLsb' 0 4 ++ lo := by
  simp only [setFreqHi, setFreqLo, BitVec.extractLsb'_append_eq_right]

theorem setFreqLo_setFreqHi (old : BitVec 12) (lo hi : Byte) :
    setFreqLo (setFreqHi old hi) lo = hi.extractLsb' 0 4 ++ lo := by
  simp only [setFreqHi, setFreqLo, BitVec.extractLsb'_append_eq_left]

/-- The low byte and then the high byte spell the frequency of the selected channel. -/
theorem writeFreqHi_writeFreqLo (lo hi : Byte) (p : Psg) :
    (p.writeFreqLo lo).writeFreqHi hi = p.modSelected fun C => { C with freq := hi.extractLsb' 0 4 ++ lo } := by
  simp only [Psg.writeFreqLo, Psg.writeFreqHi, modSelected_modSelected, Function.comp_def, setFreqHi_setFreqLo]

/-- The high byte and then the low byte spell the same frequency. -/
theorem writeFreqLo_writeFreqHi (lo hi : Byte) (p : Psg) :
    (p.writeFreqHi hi).writeFreqLo lo = p.modSelected fun C => { C with freq := hi.extractLsb' 0 4 ++ lo } := by
  simp only [Psg.writeFreqLo, Psg.writeFreqHi, modSelected_modSelected, Function.comp_def, setFreqLo_setFreqHi]

/-- Settles O14: either order changes the selected channel's frequency to the one the two bytes spell. -/
theorem frequencyWritesCommute : Obligations.FrequencyWritesCommute := by
  intro s lo hi h
  have hlohi := execAll_pair_modPsg (i := .wrFreqLo lo) (j := .wrFreqHi hi) rfl rfl h
  have hhilo := execAll_pair_modPsg (i := .wrFreqHi hi) (j := .wrFreqLo lo) rfl rfl h
  rw [writeFreqHi_writeFreqLo] at hlohi
  rw [writeFreqLo_writeFreqHi] at hhilo
  refine ⟨hlohi.trans hhilo.symm, _, hlohi, ?_⟩
  exact congrArg Channel.freq (modSelected_selected _ s.psg)

/-! ### A tick that stops -/

theorem endCommand_stopped_iff (s : State) : (endCommand s).stopped = true ↔ ¬ Running s := stopped_eq_true

/-- The push sets no mark, so a tick that has stopped has stopped in phase A. -/
theorem tickBody_of_stopped {s : State} (h : ¬ Running (tickBody s)) : tickBody s = phaseA s := by
  obtain ⟨hphase, e⟩ | ⟨_, e⟩ := tickBody_cases s
  · rw [e] at h
    exact absurd hphase h
  · exact e

/-- Settles O43: a tick that stops has done phase A alone, which does not reach the PSG or the staging buffer. -/
theorem stoppedTickKeepsThePsg : Obligations.StoppedTickKeepsThePsg := by
  intro s t h hstopped
  obtain ⟨_, _, rfl⟩ := command_next (body := tickBody) h
  have hmark := (endCommand_stopped_iff _).1 hstopped
  refine ⟨?psg, ?stg, ?result⟩
  case psg => rw [endCommand_psg, tickBody_of_stopped hmark, (seqStep_phaseA _).psg, beginCommand_psg]
  case stg => rw [endCommand_stg, tickBody_stg, beginCommand_stg]
  case result => rw [endCommand_stopped hmark]

/-! ### The configuration -/

theorem startBody_cfg (id : BitVec 16) (s : State) : (startBody id s).cfg = s.cfg := by
  obtain e | ⟨offs, _, e⟩ := startBody_cases id s <;> rw [e]
  exact raise_cfg _ s

theorem commandBody_cfg {i : Instr} {body : State → State} (h : CommandBody i body) {s : State} (hs : Running s) :
    (body s).cfg = s.cfg := by
  obtain ⟨id, _, rfl⟩ | hevolve := commandBody_start_or_evolves h hs
  · exact startBody_cfg id s
  · exact hevolve.cfg

theorem streamBody_cfg {i : Instr} {body : State → State} (h : StreamBody i body) (s : State) :
    (body s).cfg = s.cfg :=
  streamBody_keeps (P := fun t => t.cfg = s.cfg) h (fun _ _ _ ht => ht) (fun _ _ ht => ht) (fun _ _ ht => ht)
    (fun _ ht => ht) rfl

theorem exec_cfg {i : Instr} {s t : State} (h : exec i s = .next t) : t.cfg = s.cfg := by
  obtain ⟨hs, ⟨body, hbody, rfl⟩ | ⟨body, hbody, rfl⟩⟩ := exec_next h
  · exact commandBody_cfg (s := beginCommand s) hbody hs
  · exact streamBody_cfg hbody s

theorem step_cfg {s t : State} (h : step s = .next t) : t.cfg = s.cfg := by
  obtain ⟨hs, rfl | ⟨w, rest, body, hbody, _, rfl⟩ | hseq⟩ := step_next h
  · rfl
  · exact commandBody_cfg (s := beginCommand { s with cmds := rest }) hbody hs
  · exact hseq.cfg

/-- Settles O53: no body of a command or of a stream instruction writes the configuration, and a step runs one of
these bodies or waits. -/
theorem configurationIsNeverWritten : Obligations.ConfigurationIsNeverWritten :=
  ⟨fun _ _ _ => exec_cfg, fun _ _ => step_cfg⟩

end Sys2Proof.Machine
end

section
/-! SUPPORT. The encodings of 30_encoding.md: a command word and its fields, the eight defined commands and the reserved
ones, and the events of a stream. Decoding and encoding are inverse to each other on both, and a word that is no
encoding has reserved bits that are not zero (R99). -/

namespace Sys2Proof

/-! ### The fields of a command word -/

/-- A word is its `CMD` and its payload (30_encoding.md R90). -/
theorem payloadWord_eq {w : CmdWord} {cmd : BitVec 4} {p : BitVec 20} (hcmd : cmdField w = cmd)
    (hp : payloadField w = p) : payloadWord cmd p = w := by
  rw [← hcmd, ← hp]
  exact BitVec.extractLsb'_append_extractLsb' (w := 4) (len := 20) (x := w)

@[simp] theorem cmdField_payloadWord (cmd : BitVec 4) (p : BitVec 20) : cmdField (payloadWord cmd p) = cmd :=
  BitVec.extractLsb'_append_eq_left

@[simp] theorem payloadField_payloadWord (cmd : BitVec 4) (p : BitVec 20) : payloadField (payloadWord cmd p) = p :=
  BitVec.extractLsb'_append_eq_right

/-- The word of a cue id is a payload with four zero bits above the id. -/
theorem idWord_eq_payloadWord (cmd : BitVec 4) (id : BitVec 16) :
    idWord cmd id = payloadWord cmd ((0 : BitVec 4) ++ id) :=
  BitVec.append_assoc

@[simp] theorem cmdField_idWord (cmd : BitVec 4) (id : BitVec 16) : cmdField (idWord cmd id) = cmd := by
  rw [idWord_eq_payloadWord, cmdField_payloadWord]

@[simp] theorem reservedBits_idWord (cmd : BitVec 4) (id : BitVec 16) : (idWord cmd id).extractLsb' 16 4 = 0 := by
  rw [idWord, BitVec.extractLsb'_append_eq_of_le (by decide)]
  exact BitVec.extractLsb'_append_eq_right

@[simp] theorem idField_idWord (cmd : BitVec 4) (id : BitVec 16) : idField (idWord cmd id) = id :=
  BitVec.extractLsb'_append_eq_right

/-- A word whose bits 19:16 are zero is its `CMD` and its cue id. -/
theorem idWord_eq {w : CmdWord} {cmd : BitVec 4} (hcmd : cmdField w = cmd) (hzero : w.extractLsb' 16 4 = 0) :
    idWord cmd (idField w) = w := by
  have hpayload : payloadField w = (0 : BitVec 4) ++ idField w := by
    rw [← hzero]
    exact (BitVec.extractLsb'_append_extractLsb'_eq_extractLsb' (start₁ := 0) (len₁ := 16) (x := w) rfl).symm
  rw [idWord_eq_payloadWord, payloadWord_eq hcmd hpayload]

@[simp] theorem cmdField_psgWord (off : BitVec 4) (v : Byte) : cmdField (psgWord off v) = 0 := by
  rw [cmdField, psgWord, BitVec.extractLsb'_append_eq_of_le (by decide),
    BitVec.extractLsb'_append_eq_of_le (by decide)]
  exact BitVec.extractLsb'_zero

@[simp] theorem reservedBits_psgWord (off : BitVec 4) (v : Byte) : (psgWord off v).extractLsb' 12 8 = 0 := by
  rw [psgWord, BitVec.extractLsb'_append_eq_of_le (by decide), BitVec.extractLsb'_append_eq_of_le (by decide)]
  exact BitVec.extractLsb'_zero

@[simp] theorem offField_psgWord (off : BitVec 4) (v : Byte) : offField (psgWord off v) = off := by
  rw [offField, psgWord, BitVec.extractLsb'_append_eq_of_le (by decide)]
  exact BitVec.extractLsb'_append_eq_right

@[simp] theorem valField_psgWord (off : BitVec 4) (v : Byte) : valField (psgWord off v) = v :=
  BitVec.extractLsb'_append_eq_right

/-- A word whose `CMD` and bits 19:12 are zero is its offset and its value (30_encoding.md R92). -/
theorem psgWord_eq {w : CmdWord} (hcmd : cmdField w = 0) (hzero : w.extractLsb' 12 8 = 0) :
    psgWord (offField w) (valField w) = w := by
  have hhigh : w.extractLsb' 12 12 = cmdField w ++ w.extractLsb' 12 8 :=
    (BitVec.extractLsb'_append_extractLsb'_eq_extractLsb' (start₁ := 12) (len₁ := 8) (x := w) rfl).symm
  have hmiddle : w.extractLsb' 8 16 = w.extractLsb' 12 12 ++ offField w :=
    (BitVec.extractLsb'_append_extractLsb'_eq_extractLsb' (start₁ := 8) (len₁ := 4) (x := w) rfl).symm
  calc psgWord (offField w) (valField w)
    _ = cmdField w ++ w.extractLsb' 12 8 ++ offField w ++ valField w := by rw [hcmd, hzero]; rfl
    _ = w.extractLsb' 8 16 ++ valField w := by rw [hmiddle, hhigh]
    _ = w := BitVec.extractLsb'_append_extractLsb' (w := 16) (len := 8) (x := w)

/-! ### The command a word is -/

/-- The top bit of a word is the top bit of its `CMD`. -/
theorem msb_cmdField (w : CmdWord) : (cmdField w).msb = w.msb := by
  simp [cmdField, BitVec.msb]

/-- `CMD` is one of the eight defined ones, or the word is reserved (30_encoding.md R90, R99). -/
theorem cmdField_cases (w : CmdWord) :
    cmdField w = 0 ∨ cmdField w = 1 ∨ cmdField w = 2 ∨ cmdField w = 3 ∨ cmdField w = 4 ∨ cmdField w = 5 ∨
      cmdField w = 6 ∨ cmdField w = 7 ∨ w.msb = true := by
  rw [← msb_cmdField]
  generalize cmdField w = cmd
  revert cmd
  decide

section Commands

variable {w : CmdWord}

theorem decodeCommand_of_psgWrite (h : cmdField w = 0) : decodeCommand w =
    reservedZero w (w.extractLsb' 12 8 == 0) (decodePsgWrite (offField w) (valField w)) := by
  simp [decodeCommand, h]

theorem decodeCommand_of_reset (h : cmdField w = 1) :
    decodeCommand w = reservedZero w (payloadField w == 0) .reset := by
  simp [decodeCommand, h]

theorem decodeCommand_of_update (h : cmdField w = 2) : decodeCommand w = .ok (.update (payloadField w)) := by
  simp [decodeCommand, h]

theorem decodeCommand_of_tick (h : cmdField w = 3) :
    decodeCommand w = reservedZero w (payloadField w == 0) .tick := by
  simp [decodeCommand, h]

theorem decodeCommand_of_start (h : cmdField w = 4) :
    decodeCommand w = reservedZero w (w.extractLsb' 16 4 == 0) (.start (idField w)) := by
  simp [decodeCommand, h]

theorem decodeCommand_of_stop (h : cmdField w = 5) :
    decodeCommand w = reservedZero w (w.extractLsb' 16 4 == 0) (.stop (idField w)) := by
  simp [decodeCommand, h]

theorem decodeCommand_of_status (h : cmdField w = 6) :
    decodeCommand w = reservedZero w (w.extractLsb' 16 4 == 0) (.status (idField w)) := by
  simp [decodeCommand, h]

theorem decodeCommand_of_fill (h : cmdField w = 7) : decodeCommand w = .ok (.fill (payloadField w)) := by
  simp [decodeCommand, h]

theorem decodeCommand_of_msb (h : w.msb = true) : decodeCommand w = .ok (.reservedCmd w) := by
  have hne : ∀ cmd : BitVec 4, cmd.msb = false → cmdField w ≠ cmd := by
    rintro _ hmsb rfl
    simp [msb_cmdField, h] at hmsb
  simp only [decodeCommand, hne 0 rfl, hne 1 rfl, hne 2 rfl, hne 3 rfl, hne 4 rfl, hne 5 rfl, hne 6 rfl, hne 7 rfl,
    if_false]

end Commands

theorem reservedZero_of_zero {w : CmdWord} {n : Nat} {bits : BitVec n} (h : bits = 0) (i : Instr) :
    reservedZero w (bits == 0) i = .ok i :=
  if_pos (beq_iff_eq.2 h)

theorem reservedZero_of_nonzero {w : CmdWord} {n : Nat} {bits : BitVec n} (h : bits ≠ 0) (i : Instr) :
    reservedZero w (bits == 0) i = .reservedPayload w :=
  if_neg (mt beq_iff_eq.1 h)

/-! ### From a command to its word and back -/

theorem decodeCommand_psgWord (off : BitVec 4) (v : Byte) :
    decodeCommand (psgWord off v) = .ok (decodePsgWrite off v) := by
  rw [decodeCommand_of_psgWrite (cmdField_psgWord off v), reservedZero_of_zero (reservedBits_psgWord off v),
    offField_psgWord, valField_psgWord]

/-- Settles O2: the fields of the word a command is encoded to are the command's `CMD` and operands, and the reserved
bits of that word are zero. -/
theorem commandWordsRoundTrip : Obligations.CommandWordsRoundTrip := by
  intro c i w hwf hencode
  cases i <;> simp only [encode, Option.some.injEq, Encoded.word.injEq, reduceCtorEq] at hencode <;> subst hencode
  case wrSel v => exact decodeCommand_psgWord 0 v
  case wrGbal v => exact decodeCommand_psgWord 1 v
  case wrFreqLo v => exact decodeCommand_psgWord 2 v
  case wrFreqHi v => exact decodeCommand_psgWord 3 v
  case wrCtrl v => exact decodeCommand_psgWord 4 v
  case wrCbal v => exact decodeCommand_psgWord 5 v
  case wrWdata v => exact decodeCommand_psgWord 6 v
  case wrNoise v => exact decodeCommand_psgWord 7 v
  case wrLfoFreq v => exact decodeCommand_psgWord 8 v
  case wrLfoCtrl v => exact decodeCommand_psgWord 9 v
  case wrRefusedAB off v =>
    simp only [Instr.wf, Bool.or_eq_true, beq_iff_eq] at hwf
    obtain rfl | rfl := hwf <;> exact decodeCommand_psgWord _ v
  case wrRefusedCF off v =>
    simp only [Instr.wf, Bool.or_eq_true, beq_iff_eq, or_assoc] at hwf
    obtain rfl | rfl | rfl | rfl := hwf <;> exact decodeCommand_psgWord _ v
  case reset =>
    rw [decodeCommand_of_reset (cmdField_payloadWord 1 0), reservedZero_of_zero (payloadField_payloadWord 1 0)]
  case update n => rw [decodeCommand_of_update (cmdField_payloadWord 2 n), payloadField_payloadWord]
  case tick =>
    rw [decodeCommand_of_tick (cmdField_payloadWord 3 0), reservedZero_of_zero (payloadField_payloadWord 3 0)]
  case start id =>
    rw [decodeCommand_of_start (cmdField_idWord 4 id), reservedZero_of_zero (reservedBits_idWord 4 id), idField_idWord]
  case stop id =>
    rw [decodeCommand_of_stop (cmdField_idWord 5 id), reservedZero_of_zero (reservedBits_idWord 5 id), idField_idWord]
  case status id =>
    rw [decodeCommand_of_status (cmdField_idWord 6 id), reservedZero_of_zero (reservedBits_idWord 6 id), idField_idWord]
  case fill n => rw [decodeCommand_of_fill (cmdField_payloadWord 7 n), payloadField_payloadWord]
  case reservedCmd => exact decodeCommand_of_msb hwf

/-! ### From a word to its command and back -/

theorem decodePsgWrite_wf (c : Config) (off : BitVec 4) (v : Byte) : (decodePsgWrite off v).wf c = true := by
  unfold decodePsgWrite
  iterate 10 (split; · rfl)
  split
  · simpa [Instr.wf] using ‹_›
  · simp only [Instr.wf, Bool.or_eq_true, beq_iff_eq]
    revert off
    decide

/-- The word decodes to a well-formed command that encodes to it. -/
def IsCommandWord (c : Config) (w : CmdWord) : Prop :=
  ∃ i, decodeCommand w = .ok i ∧ i.wf c = true ∧ encode i = some (.word w)

/-- A word with a command that fits it when its reserved bits are zero is that command's word, or is refused with
reserved bits that are not zero (30_encoding.md R99). -/
theorem isCommandWord_or_refused {c : Config} {w : CmdWord} {n : Nat} {bits : BitVec n} {i : Instr} {P : Prop}
    (hdecode : decodeCommand w = reservedZero w (bits == 0) i)
    (hzero : bits = 0 → i.wf c = true ∧ encode i = some (.word w)) (hnonzero : bits ≠ 0 → P) :
    IsCommandWord c w ∨ decodeCommand w = .reservedPayload w ∧ P := by
  by_cases h : bits = 0
  · exact .inl ⟨i, hdecode.trans (reservedZero_of_zero h i), hzero h⟩
  · exact .inr ⟨hdecode.trans (reservedZero_of_nonzero h i), hnonzero h⟩

/-- Settles O4: each of the eight defined commands has its word rebuilt from the fields once the reserved bits are
zero, and a word with another `CMD` is its own operand. -/
theorem everyWordDecodesOrIsRefused : Obligations.EveryWordDecodesOrIsRefused := by
  intro c w
  rcases cmdField_cases w with h | h | h | h | h | h | h | h | h
  · exact isCommandWord_or_refused (decodeCommand_of_psgWrite h)
      (fun hzero => ⟨decodePsgWrite_wf c _ _, by rw [encode_decodePsgWrite, psgWord_eq h hzero]⟩)
      fun hne => .inl ⟨h, hne⟩
  · exact isCommandWord_or_refused (decodeCommand_of_reset h)
      (fun hzero => ⟨rfl, by rw [encode, payloadWord_eq h hzero]⟩) fun hne => .inr (.inl ⟨.inl h, hne⟩)
  · exact .inl ⟨_, decodeCommand_of_update h, rfl, by rw [encode, payloadWord_eq h rfl]⟩
  · exact isCommandWord_or_refused (decodeCommand_of_tick h)
      (fun hzero => ⟨rfl, by rw [encode, payloadWord_eq h hzero]⟩) fun hne => .inr (.inl ⟨.inr h, hne⟩)
  · exact isCommandWord_or_refused (decodeCommand_of_start h)
      (fun hzero => ⟨rfl, by rw [encode, idWord_eq h hzero]⟩) fun hne => .inr (.inr ⟨.inl h, hne⟩)
  · exact isCommandWord_or_refused (decodeCommand_of_stop h)
      (fun hzero => ⟨rfl, by rw [encode, idWord_eq h hzero]⟩) fun hne => .inr (.inr ⟨.inr (.inl h), hne⟩)
  · exact isCommandWord_or_refused (decodeCommand_of_status h)
      (fun hzero => ⟨rfl, by rw [encode, idWord_eq h hzero]⟩) fun hne => .inr (.inr ⟨.inr (.inr h), hne⟩)
  · exact .inl ⟨_, decodeCommand_of_fill h, rfl, by rw [encode, payloadWord_eq h rfl]⟩
  · exact .inl ⟨_, decodeCommand_of_msb h, h, rfl⟩

/-- Settles O1: the words are the encodings of these commands, and the last one has reserved bits that are not zero. -/
theorem specWordsDecode : Obligations.SpecWordsDecode := by
  have hword {i : Instr} {w : CmdWord} (hwf : i.wf Config.installed = true) (hencode : encode i = some (.word w)) :
      decodeCommand w = .ok i :=
    commandWordsRoundTrip Config.installed i w hwf hencode
  refine ⟨hword rfl rfl, hword rfl rfl, hword rfl rfl, hword rfl rfl, hword rfl rfl, hword rfl rfl, hword rfl rfl,
    hword rfl rfl, ?_⟩
  exact (decodeCommand_of_psgWrite rfl).trans (reservedZero_of_nonzero (by decide) _)

/-! ### The bytes of an event -/

theorem noteByte_nibbles (b : Byte) : noteByte (b.extractLsb' 4 4) (b.extractLsb' 0 4) = b :=
  BitVec.extractLsb'_append_extractLsb' (w := 4) (len := 4) (x := b)

theorem isNote_iff {c : Config} {n m : BitVec 4} :
    c.isNote n m = true ↔ noteByte n m ≠ 0xFF ∧ (noteByte n m).toNat < c.noteThreshold := by
  simp [Config.isNote]

/-- A control byte is a byte that is no note, of its kind. -/
theorem isControl_iff {c : Config} {op : Byte} {k : ControlKind} :
    c.isControl op k = true ↔ ¬ (op ≠ 0xFF ∧ op.toNat < c.noteThreshold) ∧ c.controlKind op = k := by
  simp [Config.isControl, or_iff_not_imp_left]

/-- The event of a control byte of kind `k` with the bytes `rest` after it (30_encoding.md R103). -/
def decodeControl (k : ControlKind) (op : Byte) (rest : List Byte) : Decoded Event :=
  match k with
  | .terminate => .ok (.terminate op)
  | .setTranspose => withOperand rest (.setTranspose op)
  | .setDurationBase => withOperand rest (.setDurationBase op)
  | .selectWaveformBank => withOperand rest (.selectWaveformBank op)
  | .envHoldOn => .ok (.envHoldOn op)
  | .envHoldOff => .ok (.envHoldOff op)
  | .unrecognized => .ok (.unrecognized op)
  | .undescribed => .ok (.undescribed op)

theorem decodeEvent_of_isNote {c : Config} {n m : BitVec 4} (h : c.isNote n m = true) (rest : List Byte) :
    decodeEvent c (noteByte n m :: rest) = .ok (.note n m) := by
  have hhigh : (noteByte n m).extractLsb' 4 4 = n := BitVec.extractLsb'_append_eq_left
  have hlow : (noteByte n m).extractLsb' 0 4 = m := BitVec.extractLsb'_append_eq_right
  rw [decodeEvent, if_pos (isNote_iff.1 h), hhigh, hlow]

theorem decodeEvent_of_isControl {c : Config} {op : Byte} {k : ControlKind} (h : c.isControl op k = true)
    (rest : List Byte) : decodeEvent c (op :: rest) = decodeControl k op rest := by
  obtain ⟨hnote, hkind⟩ := isControl_iff.1 h
  rw [decodeEvent, if_neg hnote, hkind]
  cases k <;> rfl

/-- A decoded event is a note, or the event of a control byte. -/
theorem decodeEvent_ok {c : Config} {bs : List Byte} {e : Event} (h : decodeEvent c bs = .ok e) :
    (∃ n m rest, bs = noteByte n m :: rest ∧ c.isNote n m = true ∧ e = .note n m) ∨
      ∃ op rest, bs = op :: rest ∧ c.isControl op (c.controlKind op) = true ∧
        decodeControl (c.controlKind op) op rest = .ok e := by
  cases bs with
  | nil => cases h
  | cons b rest =>
    by_cases hnote : b ≠ 0xFF ∧ b.toNat < c.noteThreshold
    · have hisNote : c.isNote (b.extractLsb' 4 4) (b.extractLsb' 0 4) = true :=
        isNote_iff.2 (by rwa [noteByte_nibbles])
      rw [← noteByte_nibbles b, decodeEvent_of_isNote hisNote] at h
      injection h with h
      exact .inl ⟨_, _, rest, by rw [noteByte_nibbles], hisNote, h.symm⟩
    · have hisControl : c.isControl b (c.controlKind b) = true := isControl_iff.2 ⟨hnote, rfl⟩
      exact .inr ⟨b, rest, rfl, hisControl, (decodeEvent_of_isControl hisControl rest).symm.trans h⟩

/-! ### From an event to its bytes and back -/

theorem wf_toInstr (c : Config) (e : Event) : e.toInstr.wf c = e.wf c := by cases e <;> rfl

theorem encode_toInstr (e : Event) : encode e.toInstr = some (.bytes (encodeEvent e)) := by cases e <;> rfl

theorem decodeEvent_encodeEvent {c : Config} {e : Event} (h : e.wf c = true) (rest : List Byte) :
    decodeEvent c (encodeEvent e ++ rest) = .ok e := by
  cases e with
  | note n m => exact decodeEvent_of_isNote h rest
  | terminate op => exact decodeEvent_of_isControl h rest
  | setTranspose op t => exact decodeEvent_of_isControl h (t :: rest)
  | setDurationBase op d => exact decodeEvent_of_isControl h (d :: rest)
  | selectWaveformBank op w => exact decodeEvent_of_isControl h (w :: rest)
  | envHoldOn op => exact decodeEvent_of_isControl h rest
  | envHoldOff op => exact decodeEvent_of_isControl h rest
  | unrecognized op => exact decodeEvent_of_isControl h rest
  | undescribed op => exact decodeEvent_of_isControl h rest

/-- Settles O3: the first byte of an event is a note or a control byte of the event's kind, and decoding reads no
more than the event's own bytes. -/
theorem eventBytesRoundTrip : Obligations.EventBytesRoundTrip := fun c e rest hwf =>
  ⟨decodeEvent_encodeEvent hwf rest, (wf_toInstr c e).trans hwf, encode_toInstr e⟩

/-! ### From a stream to its event and back -/

/-- The event is well formed and its bytes stand at the front of the stream. -/
def StandsAtFront (c : Config) (e : Event) (bs : List Byte) : Prop :=
  e.wf c = true ∧ ∃ rest, bs = encodeEvent e ++ rest

theorem standsAtFront_of_ok {c : Config} {e f : Event} {op : Byte} (h : Decoded.ok f = .ok e) (hwf : f.wf c = true)
    (hbytes : encodeEvent f = [op]) (rest : List Byte) : StandsAtFront c e (op :: rest) := by
  injection h with h
  subst h
  exact ⟨hwf, rest, by rw [hbytes]; rfl⟩

theorem standsAtFront_of_withOperand {c : Config} {e : Event} {f : Byte → Event} {op : Byte} {rest : List Byte}
    (h : withOperand rest f = .ok e) (hwf : ∀ t, (f t).wf c = true) (hbytes : ∀ t, encodeEvent (f t) = [op, t]) :
    StandsAtFront c e (op :: rest) := by
  obtain ⟨t, more, rfl, rfl⟩ := withOperand_ok h
  exact ⟨hwf t, more, by rw [hbytes]; rfl⟩

theorem standsAtFront_of_decodeControl {c : Config} {k : ControlKind} {op : Byte} {rest : List Byte} {e : Event}
    (hcontrol : c.isControl op k = true) (h : decodeControl k op rest = .ok e) : StandsAtFront c e (op :: rest) := by
  cases k with
  | terminate => exact standsAtFront_of_ok h hcontrol rfl rest
  | setTranspose => exact standsAtFront_of_withOperand h (fun _ => hcontrol) fun _ => rfl
  | setDurationBase => exact standsAtFront_of_withOperand h (fun _ => hcontrol) fun _ => rfl
  | selectWaveformBank => exact standsAtFront_of_withOperand h (fun _ => hcontrol) fun _ => rfl
  | envHoldOn => exact standsAtFront_of_ok h hcontrol rfl rest
  | envHoldOff => exact standsAtFront_of_ok h hcontrol rfl rest
  | unrecognized => exact standsAtFront_of_ok h hcontrol rfl rest
  | undescribed => exact standsAtFront_of_ok h hcontrol rfl rest

theorem standsAtFront_of_decodeEvent {c : Config} {bs : List Byte} {e : Event} (h : decodeEvent c bs = .ok e) :
    StandsAtFront c e bs := by
  obtain ⟨n, m, rest, rfl, hnote, rfl⟩ | ⟨op, rest, rfl, hcontrol, hdecode⟩ := decodeEvent_ok h
  · exact ⟨hnote, rest, rfl⟩
  · exact standsAtFront_of_decodeControl hcontrol hdecode

theorem encodeEvent_length_eq_two_iff (e : Event) : (encodeEvent e).length = 2 ↔
    (∃ op t, e = .setTranspose op t) ∨ (∃ op d, e = .setDurationBase op d) ∨
      ∃ op w, e = .selectWaveformBank op w := by
  cases e <;> simp [encodeEvent]

theorem encodeEvent_length_cases (e : Event) : (encodeEvent e).length = 1 ∨ (encodeEvent e).length = 2 := by
  cases e <;> simp [encodeEvent]

/-- Settles O5: a decoded event is a note or comes from a control byte of its kind with the operand the kind has. -/
theorem decodedEventStandsInStream : Obligations.DecodedEventStandsInStream := by
  intro c bs e h
  obtain ⟨hwf, hfront⟩ := standsAtFront_of_decodeEvent h
  exact ⟨hwf, hfront, encodeEvent_length_eq_two_iff e, encodeEvent_length_cases e⟩

end Sys2Proof
end

section
/-! SUPPORT. What the block does with two encodings that stand for no command and no stored event: a command word
with reserved bits that are not zero (30_encoding.md R99), and the NULL cursor, which reads as the byte 0xFF (R104). -/

namespace Sys2Proof.Machine

/-! ### A refused word -/

theorem commandWord_of_reservedPayload {w : CmdWord} (h : decodeCommand w = .reservedPayload w) :
    commandWord w = .reservedCmd w := by
  simp only [commandWord, h]

/-- A command that only refuses sets the mark, returns nothing and keeps the rest of a ready block. -/
theorem command_refuse (r : RefusalRecord) {s : State} (h : Ready s) :
    command (refuse r) s = .next { s with refused := some r, result := .nothing } := by
  obtain ⟨hs, hlock, hproc⟩ := h
  have hmark : ¬ Running (refuse r (beginCommand s)) := fun hr => by simpa using hr.2
  rw [command_ready _ ⟨hs, hlock, hproc⟩, endCommand_stopped hmark]
  simp only [refuse, beginCommand, ← hlock, ← hproc]

/-- Settles O7: a word with reserved bits runs as a reserved command does, which only refuses. -/
theorem stepRefusesReservedPayload : Obligations.StepRefusesReservedPayload := by
  intro s w rest hready hcmds hdecode
  have hrest : Ready { s with cmds := rest } := hready
  rw [step_of_command hready.1 hready.2.2 hcmds, commandWord_of_reservedPayload hdecode]
  exact command_refuse (.cmd w) hrest

/-! ### The NULL cursor -/

/-- The byte 0xFF is a control byte that terminates, in every well-formed configuration (00_scope.md R10). -/
theorem isControl_terminate {c : Config} (h : c.wf = true) : c.isControl 0xFF .terminate = true :=
  isControl_iff.2 ⟨fun hnote => hnote.1 rfl, (wf_iff_meets c).1 h .controlOps⟩

/-- At a NULL cursor the event is `TERMINATE` (30_encoding.md R104). -/
theorem eventTurn_of_null {s : State} (hcfg : s.cfg.wf = true) (hnull : s.slotNow.cursor = none) :
    eventTurn s = terminateBody s := by
  have hdecode : decodeEvent s.cfg [0xFF] = .ok (.terminate 0xFF) :=
    decodeEvent_of_isControl (isControl_terminate hcfg) []
  have hfetch : s.fetchEvent = .event (.terminate 0xFF) := by simp only [State.fetchEvent, hnull, hdecode]
  simp only [eventTurn, hfetch, runEvent]

/-- A turn that leaves the FetchLoop is its last (42_sequencer.md R173). -/
theorem fetchLoop_of_leaves {s : State} (h : (eventTurn s).proc = .commands) (n : Nat) :
    fetchLoop (n + 1) s = eventTurn s := by
  simp [fetchLoop, h]

/-- The slot with its countdown one less (42_sequencer.md R172). -/
def Slot.countDown (S : Slot) : Slot := { S with countdown := wrap16 (S.countdown.toInt - 1) }

/-- A note step whose countdown runs out enters the FetchLoop (42_sequencer.md R172). -/
theorem noteStep_of_runsOut {s : State} (h : s.slotNow.countDown.countdown.toInt ≤ 0) :
    noteStep s =
      fetchLoop (s.cfg.eventData.length + 1) { s.modSlot Slot.countDown with proc := .events } := by
  have hslot : ¬ 0 < (s.modSlot Slot.countDown).slotNow.countdown.toInt := by
    rw [modSlot_slotNow]
    exact Int.not_lt.2 h
  exact if_neg hslot

/-- Ending the slot leaves the loop, whatever loop it was (42_sequencer.md R184). -/
theorem terminateBody_modSlot (f : Slot → Slot) (p : Proc) (s : State) :
    terminateBody { s.modSlot f with proc := p } = leaveLoop (s.modSlot fun S => { f S with active := false }) := by
  show leaveLoop ((s.modSlot f).modSlot fun S => { S with active := false }) = _
  rw [modSlot_modSlot]
  rfl

/-- A note step whose countdown runs out at a NULL cursor ends the slot (42_sequencer.md R172, R184). -/
theorem noteStep_of_null {s : State} (hcfg : s.cfg.wf = true) (hnull : s.slotNow.cursor = none)
    (hout : s.slotNow.countDown.countdown.toInt ≤ 0) :
    noteStep s = leaveLoop (s.modSlot fun S => { S.countDown with active := false }) := by
  have hcursor : (s.modSlot Slot.countDown).slotNow.cursor = none := by
    rw [modSlot_slotNow]
    exact hnull
  have hturn := eventTurn_of_null (s := { s.modSlot Slot.countDown with proc := .events }) hcfg hcursor
  rw [noteStep_of_runsOut hout, fetchLoop_of_leaves (by rw [hturn]; rfl), hturn, terminateBody_modSlot]

/-- A slot that its note step ends skips its envelope and pitch steps (42_sequencer.md R170). -/
theorem slotStep_of_ended {s : State} {k : AudioSlot} (hactive : (s.slot[slotIndex k]).active = true)
    (hrun : Running (noteStep { s with cur := k }))
    (hended : (noteStep { s with cur := k }).slotNow.active = false) :
    slotStep k s = noteStep { s with cur := k } := by
  refine (if_pos hactive).trans ?_
  rw [andThen_running hrun, if_neg (by simp [hended])]

/-- Settles O39: the note step ends the slot at the NULL cursor, so the slot's other steps are skipped. -/
theorem nullCursorTerminatesTheSlot : Obligations.NullCursorTerminatesTheSlot := by
  intro s k hs hcfg S hactive hnull hout
  have hnote := noteStep_of_null (s := { s with cur := k }) hcfg hnull hout
  have hended : (noteStep { s with cur := k }).slotNow.active = false := by
    rw [hnote]
    exact congrArg Slot.active (modSlot_slotNow (fun S => { S.countDown with active := false }) { s with cur := k })
  rw [slotStep_of_ended hactive (hnote ▸ hs) hended, hnote]
  rfl

end Sys2Proof.Machine
end

section
/-! SUPPORT. What 40_psg_write.md says of the register writes and of `RESET`: each is one change of the PSG core, of the
selected channel or of neither, and a run of waveform writes moves the write index around its 32 entries (R128). -/

namespace Sys2Proof.Machine

/-! ### Writes to the registers outside the channels -/

/-- Settles O11: `WR 0` only changes the PSG core, and there only `sel`. -/
theorem wrSelSelectsChannel : Obligations.WrSelSelectsChannel := fun _ v h =>
  ⟨decodeCommand_psgWord 0 v, command_modPsg (Psg.writeSel v) h⟩

/-- Settles O12: `WR 1` only changes the PSG core, and there only `gbal`. -/
theorem wrGbalSetsGlobalBalance : Obligations.WrGbalSetsGlobalBalance := fun _ v h =>
  ⟨decodeCommand_psgWord 1 v, command_modPsg (Psg.writeGbal v) h⟩

/-- Settles O19: the three commands are one ignored write of the PSG core. -/
theorem noiseAndLfoWritesDoNothing : Obligations.NoiseAndLfoWritesDoNothing := by
  intro s v h
  have hignored : command (State.modPsg (Psg.writeIgnored v)) s = .next { s with result := .nothing } :=
    command_modPsg (Psg.writeIgnored v) h
  exact ⟨decodeCommand_psgWord 7 v, decodeCommand_psgWord 8 v, decodeCommand_psgWord 9 v, hignored, hignored,
    hignored⟩

/-! ### Writes to the selected channel -/

/-- A command that only changes the selected channel (40_psg_write.md R132). -/
theorem command_modSelected (f : Channel → Channel) {s : State} (h : Ready s) :
    command (State.modPsg (Psg.modSelected f)) s = .next { s with
      psg := { s.psg with ch := s.psg.ch.set s.psg.sel.toNat (f s.psg.ch[s.psg.sel.toNat]) }, result := .nothing } :=
  command_modPsg (Psg.modSelected f) h

/-- Settles O13: `WR 2` and `WR 3` change the frequency of the selected channel, each its own bits. -/
theorem wrFreqSetsItsByte : Obligations.WrFreqSetsItsByte := fun _ v h =>
  ⟨decodeCommand_psgWord 2 v, decodeCommand_psgWord 3 v,
    command_modSelected (fun C => { C with freq := setFreqLo C.freq v }) h,
    command_modSelected (fun C => { C with freq := setFreqHi C.freq v }) h⟩

/-- Settles O16: `WR 5` changes the balance of the selected channel. -/
theorem wrCbalSetsChannelBalance : Obligations.WrCbalSetsChannelBalance := fun _ v h =>
  ⟨decodeCommand_psgWord 5 v, command_modSelected (fun C => { C with bal := v }) h⟩

theorem ddaFalls_iff {old v : Byte} : ddaFalls old v = true ↔ old.getLsbD 6 = true ∧ v.getLsbD 6 = false := by
  simp [ddaFalls, ctrlDda]

/-- A control write by the bits 6 of the old byte and the new one (40_psg_write.md R125). -/
theorem writeCtrl_eq (v : Byte) (C : Channel) : C.writeCtrl v = { C with
    ctrl := v, index := if C.ctrl.getLsbD 6 = true ∧ v.getLsbD 6 = false then 0 else C.index } := by
  simp only [Channel.writeCtrl, ddaFalls_iff]

/-- Settles O15: `WR 4` is a control write on the selected channel. -/
theorem wrCtrlClearsIndexOnlyOnDdaFall : Obligations.WrCtrlClearsIndexOnlyOnDdaFall := by
  intro s v h C C'
  have hchannel : C.writeCtrl v = C' := writeCtrl_eq v C
  rw [← hchannel]
  exact ⟨decodeCommand_psgWord 4 v, command_modSelected (Channel.writeCtrl v) h⟩

/-! ### Waveform and DDA writes -/

/-- With `EN` and `DDA` set a data write sets the DDA sample (mode 11). -/
theorem writeData_of_dda_enabled {C : Channel} (hdda : ctrlDda C.ctrl = true) (hen : ctrlEn C.ctrl = true) (v : Byte) :
    C.writeData v = { C with dda := sampleBits v } := by
  simp only [Channel.writeData, ctrlMode, hdda, hen]

/-- With `DDA` alone set a data write does nothing (mode 01). -/
theorem writeData_of_held {C : Channel} (hdda : ctrlDda C.ctrl = true) (hen : ctrlEn C.ctrl = false) (v : Byte) :
    C.writeData v = C := by
  simp only [Channel.writeData, ctrlMode, hdda, hen]

/-- A `u5` index one further is the next of the 32 entries, the first after the last. -/
theorem index_succ (i : BitVec 5) : i + 1 = BitVec.ofNat 5 ((i.toNat + 1) % 32) :=
  BitVec.eq_of_toNat_eq (by simp)

/-- A data write by the bits 6 and 7 of the control byte (40_psg_write.md R128). -/
theorem writeData_eq (v : Byte) (C : Channel) : C.writeData v =
    if C.ctrl.getLsbD 6 = false then
      { C with
        wave := C.wave.set C.index.toNat (v.extractLsb' 0 5)
        index := BitVec.ofNat 5 ((C.index.toNat + 1) % 32) }
    else if C.ctrl.getLsbD 7 = true then { C with dda := v.extractLsb' 0 5 } else C := by
  split_ifs with hdda hen
  · rw [writeData_of_dda_clear hdda, index_succ, sampleBits]
  · exact writeData_of_dda_enabled (Bool.eq_true_of_not_eq_false hdda) hen v
  · exact writeData_of_held (Bool.eq_true_of_not_eq_false hdda) (Bool.eq_false_of_not_eq_true hen) v

/-- Settles O17: `WR 6` is a data write on the selected channel. -/
theorem wrWdataFollowsMode : Obligations.WrWdataFollowsMode := by
  intro s v h C C'
  have hchannel : C.writeData v = C' := writeData_eq v C
  rw [← hchannel]
  exact ⟨decodeCommand_psgWord 6 v, command_modSelected (Channel.writeData v) h⟩

/-- A run of `WR 6` commands leaves the PSG core that the register writes leave. -/
theorem execAll_wrWdata (vs : List Byte) {s : State} (h : Ready s) :
    ∃ t, execAll (vs.map .wrWdata) s = .next t ∧ t.psg = s.psg.writes (vs.map fun v => (6, v)) := by
  induction vs generalizing s with
  | nil => exact ⟨s, rfl, rfl⟩
  | cons v vs ih =>
    have hexec : exec (.wrWdata v) s = .next { s with psg := s.psg.writeWdata v, result := .nothing } :=
      command_modPsg (Psg.writeWdata v) h
    have hready : Ready { s with psg := s.psg.writeWdata v, result := .nothing } := h
    obtain ⟨t, ht, hpsg⟩ := ih hready
    exact ⟨t, by simpa only [List.map_cons, execAll, hexec] using ht, hpsg⟩

/-- Data writes to the register change the selected channel alone. -/
theorem writes_data_selected (vs : List Byte) (p : Psg) :
    (p.writes (vs.map fun v => (6, v))).ch[p.sel.toNat] = p.selected.writes (vs.map fun v => (6, v)) := by
  have hchannel : p.writes (vs.map fun v => (6, v)) = p.modSelected (Channel.writes (vs.map fun v => (6, v))) :=
    writes_channel _ p fun w hw => by
      obtain ⟨v, _, rfl⟩ := List.mem_map.1 hw
      simp
  rw [hchannel]
  exact modSelected_selected _ p

/-- Settles O18: the run is a run of data writes on the selected channel, whose index counts them. -/
theorem waveformWritesWrapIndex : Obligations.WaveformWritesWrapIndex := by
  intro s vs h hdda
  obtain ⟨t, ht, hpsg⟩ := execAll_wrWdata vs h
  have hchannel : t.psg.ch[s.psg.sel.toNat] = s.psg.selected.writes (vs.map fun v => (6, v)) := by
    rw [hpsg, writes_data_selected]
  obtain ⟨hwrites, hwave⟩ := data_writes (C := s.psg.selected) hdda vs
  refine ⟨t, ht, ?_, fun hlength j hj m hm => ?_⟩
  · calc t.psg.ch[s.psg.sel.toNat].index
      _ = BitVec.ofNat 5 (s.psg.selected.index.toNat + vs.length) := by rw [hchannel, hwrites]
      _ = BitVec.ofNat 5 ((s.psg.selected.index.toNat + vs.length) % 32) := BitVec.eq_of_toNat_eq (by simp)
  · rw [hchannel]
    exact hwave hlength.le j hj m hm

/-! ### Refused writes and reserved commands -/

theorem decodePsgWrite_ten_or_eleven {off : BitVec 4} (h : off = 10 ∨ off = 11) (v : Byte) :
    decodePsgWrite off v = .wrRefusedAB off v := by
  obtain rfl | rfl := h <;> rfl

theorem decodePsgWrite_ge_twelve {off : BitVec 4} (h : 12 ≤ off.toNat) (v : Byte) :
    decodePsgWrite off v = .wrRefusedCF off v := by
  have hne : ∀ n : BitVec 4, n.toNat < 12 → off ≠ n := by
    rintro _ hn rfl
    omega
  simp [decodePsgWrite, hne]

/-- Settles O20: the offsets and the words are told apart in decoding, and each of the three commands only refuses. -/
theorem reservedFormsAreRefused : Obligations.ReservedFormsAreRefused := by
  intro s off v w h
  refine ⟨fun hoff => ?_, fun hoff => ?_, fun hcmd => ?_, command_refuse (.offset off v) h,
    command_refuse (.offset off v) h, command_refuse (.cmd w) h⟩
  · rw [decodeCommand_psgWord, decodePsgWrite_ten_or_eleven hoff]
  · rw [decodeCommand_psgWord, decodePsgWrite_ge_twelve hoff]
  · have hmsb : (cmdField w).msb = true := BitVec.msb_eq_true_iff_two_mul_ge.2 (Nat.mul_le_mul_left 2 hcmd)
    exact decodeCommand_of_msb (msb_cmdField w ▸ hmsb)

/-! ### `RESET` -/

/-- `RESET` leaves the power-on PSG core and the rest of a ready block (40_psg_write.md R120). -/
theorem exec_reset {s : State} (h : Ready s) :
    exec .reset s = .next { s with psg := Psg.powerOn, result := .nothing } :=
  command_modPsg (fun _ => Psg.powerOn) h

theorem Psg.powerOn_ch (c : Fin 8) : Psg.powerOn.ch[c] = Channel.powerOn := Vector.getElem_replicate c.isLt

theorem Channel.powerOn_wave (k : Fin 32) : Channel.powerOn.wave[k] = 0 := Vector.getElem_replicate k.isLt

/-- Settles O21: `RESET` writes the power-on PSG core, whose fields are zero, whatever the PSG core was. -/
theorem resetZeroesThePsgOnly : Obligations.ResetZeroesThePsgOnly := by
  refine ⟨commandWordsRoundTrip Config.installed .reset _ rfl rfl, fun s h => ?_⟩
  have hready : Ready { s with psg := Psg.powerOn, result := .nothing } := h
  refine ⟨_, exec_reset h, rfl, rfl, rfl, fun c => ?_, exec_reset hready⟩
  rw [Psg.powerOn_ch]
  exact ⟨rfl, rfl, rfl, Channel.powerOn_wave, rfl, rfl, rfl⟩

end Sys2Proof.Machine
end

section
/-! SUPPORT. What 41_psg_render.md says of `UPDATE`: the frames and the PSG core after a render in closed form (R148 to
R152), and what follows from that form alone: a render splits into two, and reads nothing but the PSG (R156). -/

namespace Sys2Proof.Machine

/-! ### A render in closed form -/

/-- The PSG core after a render of `n` frames (41_psg_render.md R150, R152). -/
def Psg.rendered (c : Config) (n : Nat) (p : Psg) : Psg :=
  { p with ch := Vector.ofFn fun k : Fin 8 => if k.val < 6 then renderedChannel c n p.ch[k] else p.ch[k] }

/-- Frame `i` of a render: on each side the wrapped sum over the enabled channels (41_psg_render.md R148 to R150). -/
def frameAt (c : Config) (p : Psg) (i : Nat) : Frame :=
  { l := wrap16 (sideSum c p (gainL c p.gbal) i), r := wrap16 (sideSum c p (gainR c p.gbal) i) }

/-- The `n` frames of a render. -/
def renderedFrames (c : Config) (n : Nat) (p : Psg) : List Frame := (List.range n).map (frameAt c p)

@[simp] theorem rendered_gbal (c : Config) (n : Nat) (p : Psg) : (p.rendered c n).gbal = p.gbal := rfl

theorem rendered_ch (c : Config) (n : Nat) (p : Psg) (k : Fin 8) :
    (p.rendered c n).ch[k] = if k.val < 6 then renderedChannel c n p.ch[k] else p.ch[k] :=
  Vector.getElem_ofFn k.isLt

@[simp] theorem renderedFrames_length (c : Config) (n : Nat) (p : Psg) : (renderedFrames c n p).length = n := by
  simp [renderedFrames]

@[simp] theorem renderedFrames_get (c : Config) (n : Nat) (p : Psg) {i : Nat} (h : i < (renderedFrames c n p).length) :
    (renderedFrames c n p)[i] = frameAt c p i := by
  simp [renderedFrames]

theorem mem_renderedChannels (k : Fin 8) : k ∈ renderedChannels ↔ k.val < 6 := by
  revert k
  decide

/-- Rendering from silent frames gives the closed form. -/
theorem update_closed (c : Config) (n : Nat) (p : Psg) : p.update c n = (p.rendered c n, renderedFrames c n p) := by
  have hsilent : ∀ (i : Nat) (hi : i < (List.replicate n Frame.silent).length),
      ((List.replicate n Frame.silent)[i]).l = wrap16 0 ∧ ((List.replicate n Frame.silent)[i]).r = wrap16 0 := by
    simp [Frame.silent, wrap16_zero]
  obtain ⟨hsel, hgbal, hch, hlength, hframes⟩ :=
    renderInto_foldl c renderedChannels (by decide) p (List.replicate n Frame.silent) (fun _ => 0) (fun _ => 0) hsilent
  have hpsg : (p.update c n).1 = p.rendered c n := by
    have hchannels : (p.update c n).1.ch = (p.rendered c n).ch := Vector.ext fun k hk => by
      have hget := hch ⟨k, hk⟩
      simp only [mem_renderedChannels, List.length_replicate] at hget
      exact hget.trans (rendered_ch c n p ⟨k, hk⟩).symm
    calc (p.update c n).1
      _ = ⟨(p.update c n).1.sel, (p.update c n).1.gbal, (p.update c n).1.ch⟩ := rfl
      _ = ⟨p.sel, p.gbal, (p.rendered c n).ch⟩ := by rw [hchannels]; exact congrArg₂ (Psg.mk · · _) hsel hgbal
  refine Prod.ext hpsg (List.ext_getElem (by simp) fun i hi _ => ?_)
  obtain ⟨hl, hr⟩ := hframes i hi
  rw [Int.zero_add] at hl hr
  rw [renderedFrames_get]
  calc (p.update c n).2[i]
    _ = ⟨((p.update c n).2[i]).l, ((p.update c n).2[i]).r⟩ := rfl
    _ = frameAt c p i := congrArg₂ Frame.mk hl hr

/-! ### `UPDATE` -/

/-- The command around a render that starts on a running block. -/
theorem endCommand_updateBody (n : Nat) {s : State} (h : Running s) :
    endCommand (updateBody n (beginCommand s)) = { s with
      psg := s.psg.rendered s.cfg n, result := .frames (renderedFrames s.cfg n s.psg)
      lock := .free, proc := .commands } :=
  (endCommand_running (s := updateBody n (beginCommand s)) h).trans
    (by simp only [updateBody, beginCommand, update_closed])

/-- `UPDATE n` on a ready block changes the PSG core and returns the frames. -/
theorem exec_update (n : BitVec 20) {s : State} (h : Ready s) : exec (.update n) s = .next { s with
    psg := s.psg.rendered s.cfg n.toNat, result := .frames (renderedFrames s.cfg n.toNat s.psg) } := by
  obtain ⟨hs, hlock, hproc⟩ := h
  calc exec (.update n) s
    _ = .next (endCommand (updateBody n.toNat (beginCommand s))) := command_ready _ ⟨hs, hlock, hproc⟩
    _ = _ := by simp only [endCommand_updateBody n.toNat hs, ← hlock, ← hproc]

/-- Wherever `UPDATE n` runs, it leaves the rendered PSG core and returns the frames. -/
theorem exec_update_next {n : BitVec 20} {s t : State} (h : exec (.update n) s = .next t) :
    t.psg = s.psg.rendered s.cfg n.toNat ∧ t.result = .frames (renderedFrames s.cfg n.toNat s.psg) := by
  obtain ⟨hs, _, rfl⟩ := command_next (body := updateBody n.toNat) h
  simp only [endCommand_updateBody n.toNat hs, and_self]

/-- Settles O22: the closed form of a render, read off channel by channel and frame by frame. -/
theorem updateMixesEnabledChannels : Obligations.UpdateMixesEnabledChannels := by
  intro s n h
  refine ⟨_, renderedFrames s.cfg n.toNat s.psg, exec_update n h, rfl, rfl, renderedFrames_length .., fun i hi => ?_,
    fun k => ?_, rendered_ch _ _ _ 6, rendered_ch _ _ _ 7⟩
  · rw [renderedFrames_get]
    exact ⟨rfl, rfl⟩
  · exact (rendered_ch s.cfg n.toNat s.psg (slotChannel k)).trans (if_pos k.isLt)

/-! ### Two renders in a row -/

theorem renderedChannel_of_still {C : Channel} (h : ¬ (ctrlEn C.ctrl = true ∧ ctrlDda C.ctrl = false)) (c : Config)
    (n : Nat) : renderedChannel c n C = C := by
  simp_all [renderedChannel]

theorem renderedChannel_of_waveform {C : Channel} (hen : ctrlEn C.ctrl = true) (hdda : ctrlDda C.ctrl = false)
    (c : Config) (n : Nat) : renderedChannel c n C =
      { C with counter := BitVec.ofNat 17 (C.counter.toNat + n * (c.waveStep C.freq).toNat) } := by
  simp [renderedChannel, hen, hdda]

/-- Counter moves add up modulo 2^17. -/
theorem renderedChannel_add (c : Config) (n₁ n₂ : Nat) (C : Channel) :
    renderedChannel c n₂ (renderedChannel c n₁ C) = renderedChannel c (n₁ + n₂) C := by
  by_cases h : ctrlEn C.ctrl = true ∧ ctrlDda C.ctrl = false
  · obtain ⟨hen, hdda⟩ := h
    have hcounter (step : Nat) : BitVec.ofNat 17 ((BitVec.ofNat 17 (C.counter.toNat + n₁ * step)).toNat + n₂ * step) =
        BitVec.ofNat 17 (C.counter.toNat + (n₁ + n₂) * step) :=
      BitVec.eq_of_toNat_eq (by simp [Nat.add_mul, Nat.add_assoc])
    rw [renderedChannel_of_waveform hen hdda, renderedChannel_of_waveform hen hdda, ← hcounter]
    exact renderedChannel_of_waveform (by exact hen) (by exact hdda) c n₂
  · simp only [renderedChannel_of_still h]

theorem rendered_add (c : Config) (n₁ n₂ : Nat) (p : Psg) :
    (p.rendered c n₁).rendered c n₂ = p.rendered c (n₁ + n₂) := by
  have hchannels : ((p.rendered c n₁).rendered c n₂).ch = (p.rendered c (n₁ + n₂)).ch := Vector.ext fun k hk => by
    have hget := rendered_ch c n₂ (p.rendered c n₁) ⟨k, hk⟩
    rw [rendered_ch c n₁ p ⟨k, hk⟩] at hget
    refine hget.trans (Eq.trans ?_ (rendered_ch c (n₁ + n₂) p ⟨k, hk⟩).symm)
    split_ifs with h6
    · exact renderedChannel_add c n₁ n₂ _
    · rfl
  exact congrArg (Psg.mk p.sel p.gbal) hchannels

/-- What a channel adds to frame `i` of a later render is what it would have added `n` frames further on, at gains
that do not look at the counter. -/
theorem sideTerm_rendered (c : Config) (n : Nat) (p : Psg) {g : Channel → Int}
    (hg : ∀ C counter, g { C with counter := counter } = g C) (i : Nat) {k : Fin 8} (hk : k ∈ renderedChannels) :
    sideTerm c (p.rendered c n) g i k = sideTerm c p g (n + i) k := by
  have hgain : g (renderedChannel c n p.ch[k]) = g p.ch[k] := by rw [renderedChannel_keeps, hg]
  have hctrl : (renderedChannel c n p.ch[k]).ctrl = p.ch[k].ctrl := by rw [renderedChannel_keeps]
  simp only [sideTerm, rendered_ch, if_pos ((mem_renderedChannels k).1 hk), hgain, hctrl]
  split_ifs with hen
  · rw [sampleAt_rendered c n _ hen]
  · rfl

theorem sideSum_rendered (c : Config) (n : Nat) (p : Psg) {g : Channel → Int}
    (hg : ∀ C counter, g { C with counter := counter } = g C) (i : Nat) :
    sideSum c (p.rendered c n) g i = sideSum c p g (n + i) :=
  congrArg List.sum (List.map_congr_left fun _ hk => sideTerm_rendered c n p hg i hk)

theorem frameAt_rendered (c : Config) (n : Nat) (p : Psg) (i : Nat) :
    frameAt c (p.rendered c n) i = frameAt c p (n + i) := by
  simp only [frameAt, rendered_gbal, sideSum_rendered c n p (g := gainL c p.gbal) (fun _ _ => rfl),
    sideSum_rendered c n p (g := gainR c p.gbal) (fun _ _ => rfl)]

theorem renderedFrames_append (c : Config) (n₁ n₂ : Nat) (p : Psg) :
    renderedFrames c n₁ p ++ renderedFrames c n₂ (p.rendered c n₁) = renderedFrames c (n₁ + n₂) p := by
  have hlater : renderedFrames c n₂ (p.rendered c n₁) = (List.range n₂).map fun i => frameAt c p (n₁ + i) :=
    List.map_congr_left fun i _ => frameAt_rendered c n₁ p i
  rw [hlater, renderedFrames, renderedFrames, List.range_add, List.map_append, List.map_map]
  rfl

/-! ### A render with no channel enabled -/

theorem sideSum_of_disabled (c : Config) {p : Psg} (h : ∀ k ∈ renderedChannels, ctrlEn p.ch[k].ctrl = false)
    (g : Channel → Int) (i : Nat) : sideSum c p g i = 0 := by
  refine List.sum_eq_zero fun x hx => ?_
  obtain ⟨k, hk, rfl⟩ := List.mem_map.1 hx
  exact if_neg (Bool.eq_false_iff.1 (h k hk))

theorem renderedFrames_of_disabled (c : Config) (n : Nat) {p : Psg}
    (h : ∀ k ∈ renderedChannels, ctrlEn p.ch[k].ctrl = false) :
    renderedFrames c n p = List.replicate n Frame.silent := by
  refine List.eq_replicate_iff.2 ⟨renderedFrames_length c n p, fun f hf => ?_⟩
  obtain ⟨i, _, rfl⟩ := List.mem_map.1 hf
  simp [frameAt, sideSum_of_disabled c h, wrap16_zero, Frame.silent]

/-- Settles O23: the closed form names the PSG core and the configuration alone, moves counters alone, and adds up. -/
theorem updateSplitsAndIsPure : Obligations.UpdateSplitsAndIsPure := by
  refine ⟨fun s s' n h h' hpsg hcfg => ?pure, fun s t n h ht => ?frame, fun s n1 n2 h hlt => ?splits,
    fun s t n hdisabled ht => ?silent⟩
  case pure =>
    refine ⟨_, _, exec_update n h, exec_update n h', ?_, ?_⟩
    · simp only [hpsg, hcfg]
    · simp only [hpsg, hcfg]
  case frame =>
    rw [exec_update n h, Host.Outcome.next.injEq] at ht
    subst ht
    refine ⟨rfl, rfl, fun k => ?_⟩
    simp only [rendered_ch]
    split_ifs with hk
    · exact ⟨renderedChannel_keeps .., fun hstill => renderedChannel_of_still (fun hw => hstill ⟨hk, hw⟩) _ _⟩
    · exact ⟨rfl, fun _ => rfl⟩
  case splits =>
    have hsum : (n1 + n2).toNat = n1.toNat + n2.toNat := BitVec.toNat_add_of_lt hlt
    have hready : Ready { s with
        psg := s.psg.rendered s.cfg n1.toNat, result := .frames (renderedFrames s.cfg n1.toNat s.psg) } := h
    refine ⟨_, _, _, _, _, exec_update n1 h, rfl, exec_update n2 hready, rfl, exec_update (n1 + n2) h, ?_, ?_⟩
    · simp only [hsum, renderedFrames_append]
    · simp only [hsum, rendered_add]
  case silent =>
    have hen : ∀ k ∈ renderedChannels, ctrlEn s.psg.ch[k].ctrl = false := fun k hk =>
      hdisabled ⟨k.val, (mem_renderedChannels k).1 hk⟩
    rw [(exec_update_next ht).2, renderedFrames_of_disabled s.cfg n.toNat hen]
    rfl

end Sys2Proof.Machine
end

section
/-! SUPPORT. The gains and the phase steps of 41_psg_render.md in the terms of its tables (R141 to R147), and the range
of the mix with the default tables, in which no 16-bit sum wraps (R155). -/

namespace Sys2Proof.Machine

/-! ### The attenuation and the gain of a side -/

theorem attenuation_lt (c : Config) (cn gn : BitVec 4) (al : BitVec 5) : attenuation c cn al gn < 32 :=
  Nat.lt_succ_of_le (Nat.min_le_left ..)

theorem gain_eq_volTable {c : Config} {cn gn : BitVec 4} {al : BitVec 5} {att : Fin 32}
    (h : attenuation c cn al gn = att.val) : gain c cn al gn = (c.volTable[att]).toInt := by
  obtain rfl : att = ⟨attenuation c cn al gn, attenuation_lt c cn gn al⟩ := Fin.ext h.symm
  rfl

/-- With every entry of `SCALE_TAB` at most 31 the attenuation is the sum of R141 in integers, with no
subtraction cut off at 0. -/
theorem attenuation_toInt {c : Config} (h : ∀ x : Fin 16, c.scaleTab[x] ≤ 31) (cn gn : BitVec 4) (al : BitVec 5) :
    (attenuation c cn al gn : Int) =
      min 31 ((31 - (c.scaleTab[cn.toNat] : Int)) + (31 - (al.toNat : Int)) + (31 - (c.scaleTab[gn.toNat] : Int))) := by
  have hcn : c.scaleTab[cn.toNat] ≤ 31 := h ⟨cn.toNat, cn.isLt⟩
  have hgn : c.scaleTab[gn.toNat] ≤ 31 := h ⟨gn.toNat, gn.isLt⟩
  have hal : al.toNat < 32 := al.isLt
  simp only [attenuation, attNibble]
  omega

/-! ### The default tables -/

theorem attNibble_default_zero {c : Config} (h : c.scaleTab = scaleTabDefault) : attNibble c 0 = 31 := by
  simp only [attNibble, h]
  rfl

theorem attNibble_default_fifteen {c : Config} (h : c.scaleTab = scaleTabDefault) : attNibble c 15 = 0 := by
  simp only [attNibble, h]
  rfl

theorem attenuation_default_of_silent {c : Config} (h : c.scaleTab = scaleTabDefault) {cn gn : BitVec 4} {al : BitVec 5}
    (hzero : cn = 0 ∨ gn = 0 ∨ al = 0) : attenuation c cn al gn = 31 := by
  rw [attenuation, min_eq_left]
  obtain rfl | rfl | rfl := hzero
  · rw [attNibble_default_zero h]
    omega
  · rw [attNibble_default_zero h]
    omega
  · have hlevel : (0 : BitVec 5).toNat = 0 := rfl
    omega

theorem attenuation_default_of_loudest {c : Config} (h : c.scaleTab = scaleTabDefault) :
    attenuation c 15 31 15 = 0 := by
  rw [attenuation, attNibble_default_fifteen h]
  decide

theorem volTableDefault_bounds (att : Fin 32) :
    0 ≤ (volTableDefault[att]).toInt ∧ (volTableDefault[att]).toInt ≤ 341 := by
  revert att
  decide

theorem gain_default_bounds {c : Config} (h : c.volTable = volTableDefault) (cn gn : BitVec 4) (al : BitVec 5) :
    0 ≤ gain c cn al gn ∧ gain c cn al gn ≤ 341 := by
  rw [gain_eq_volTable (att := ⟨_, attenuation_lt c cn gn al⟩) rfl, h]
  exact volTableDefault_bounds _

/-! ### The phase step -/

theorem waveStep_table {c : Config} {t : List (BitVec 32)} (h : c.waveStepTab = .table t) {f : BitVec 12}
    (hf : f.toNat < t.length) : c.waveStep f = t[f.toNat] := by
  simp [Config.waveStep, h, hf]

theorem waveStep_formula {c : Config} (h : c.waveStepTab = .formula) (f : BitVec 12) :
    c.waveStep f = BitVec.ofNat 32 (c.psgClock * 4096 / (c.rate * if f = 0 then 4096 else f.toNat)) := by
  simp only [Config.waveStep, h]

/-- The frequency a step divides by is never 0 (41_psg_render.md R146). -/
theorem waveStep_divisor_pos (f : BitVec 12) : 0 < if f = 0 then 4096 else f.toNat := by
  split_ifs with hf
  · decide
  · exact Nat.pos_of_ne_zero fun h => hf (BitVec.eq_of_toNat_eq h)

/-- A quotient below 2^32 is the floor: reducing it modulo 2^32 leaves it between the two multiples. -/
theorem div_mod_floor {a b m : Nat} (hb : 0 < b) (h : a < m * b) :
    a / b % m * b ≤ a ∧ a < (a / b % m + 1) * b := by
  rw [Nat.mod_eq_of_lt ((Nat.div_lt_iff_lt_mul hb).2 h)]
  exact ⟨Nat.div_mul_le_self a b, Nat.lt_mul_of_div_lt (Nat.lt_succ_self _) hb⟩

/-- Settles O25: the gain of a side is one table lookup, and a phase step one lookup or one floor. -/
theorem zeroLevelsSilenceASide : Obligations.ZeroLevelsSilenceASide := by
  refine ⟨fun c cn gn al att hscale hatt => ?sum, fun _ _ _ => ⟨rfl, rfl⟩, fun c cn gn al hscale hvol => ?defaults,
    fun _ _ _ hf h => waveStep_table h hf, fun c f hformula hrate => ?floor, fun c hformula hclock hrate => ?values⟩
  case sum => exact gain_eq_volTable (Int.ofNat_inj.1 ((attenuation_toInt hscale cn gn al).trans hatt.symm))
  case defaults =>
    refine ⟨fun hzero => ?_, fun ⟨hcn, hgn, hal⟩ => ?_⟩
    · rw [gain_eq_volTable (att := 31) (attenuation_default_of_silent hscale hzero), hvol]
      rfl
    · subst hcn hgn hal
      rw [gain_eq_volTable (att := 0) (attenuation_default_of_loudest hscale), hvol]
      rfl
  case floor =>
    intro g
    have hpos : 0 < c.rate * g := Nat.mul_pos hrate (waveStep_divisor_pos f)
    have hstep : (c.waveStep f).toNat = c.psgClock * 4096 / (c.rate * g) % 2 ^ 32 := by
      rw [waveStep_formula hformula, BitVec.toNat_ofNat]
    refine ⟨hstep, fun hfits => ?_⟩
    rw [hstep]
    exact div_mod_floor hpos hfits
  case values =>
    simp only [waveStep_formula hformula, hclock, hrate]
    decide

/-! ### The range of the mix -/

/-- A gain of 0 to 341 times a centred sample, -16 to 15 (41_psg_render.md R155). -/
theorem gain_mul_sample_bounds {g : Int} (h : 0 ≤ g ∧ g ≤ 341) (x : Sample) :
    -5456 ≤ g * ((x.toNat : Int) - 16) ∧ g * ((x.toNat : Int) - 16) ≤ 5115 := by
  have hx : x.toNat < 32 := x.isLt
  have hlow : g * -16 ≤ g * ((x.toNat : Int) - 16) := Int.mul_le_mul_of_nonneg_left (by omega) h.1
  have hhigh : g * ((x.toNat : Int) - 16) ≤ g * 15 := Int.mul_le_mul_of_nonneg_left (by omega) h.1
  omega

theorem contribution_toInt {g : Int} (h : 0 ≤ g ∧ g ≤ 341) (x : Sample) :
    (contribution g x).toInt = g * ((x.toNat : Int) - 16) := by
  have hbounds := gain_mul_sample_bounds h x
  exact wrap16_toInt (by omega) (by omega)

theorem sideTerm_bounds {g : Channel → Int} (h : ∀ C, 0 ≤ g C ∧ g C ≤ 341) (c : Config) (p : Psg) (i : Nat)
    (k : Fin 8) : -5456 ≤ sideTerm c p g i k ∧ sideTerm c p g i k ≤ 5115 := by
  unfold sideTerm
  split_ifs
  · exact gain_mul_sample_bounds (h _) _
  · decide

/-- Six contributions, each in its range. -/
theorem sideSum_bounds {g : Channel → Int} (h : ∀ C, 0 ≤ g C ∧ g C ≤ 341) (c : Config) (p : Psg) (i : Nat) :
    -32736 ≤ sideSum c p g i ∧ sideSum c p g i ≤ 30690 := by
  have hterm : ∀ x ∈ renderedChannels.map (sideTerm c p g i), -5456 ≤ x ∧ x ≤ 5115 := fun x hx => by
    obtain ⟨k, _, rfl⟩ := List.mem_map.1 hx
    exact sideTerm_bounds h c p i k
  constructor
  · calc (-32736 : Int)
      _ = (renderedChannels.map (sideTerm c p g i)).length • (-5456) := by simp [renderedChannels]
      _ ≤ sideSum c p g i := List.card_nsmul_le_sum _ _ fun x hx => (hterm x hx).1
  · calc sideSum c p g i
      _ ≤ (renderedChannels.map (sideTerm c p g i)).length • 5115 :=
        List.sum_le_card_nsmul _ _ fun x hx => (hterm x hx).2
      _ = 30690 := by simp [renderedChannels]

theorem wrap16_sideSum {g : Channel → Int} (h : ∀ C, 0 ≤ g C ∧ g C ≤ 341) (c : Config) (p : Psg) (i : Nat) :
    (wrap16 (sideSum c p g i)).toInt = sideSum c p g i := by
  obtain ⟨hlow, hhigh⟩ := sideSum_bounds h c p i
  exact wrap16_toInt (by omega) (by omega)

/-- Settles O24: the default gains keep every contribution and every sum in the range of s16. -/
theorem defaultTablesNeverWrap : Obligations.DefaultTablesNeverWrap := by
  intro s t n fs _ hvol ht hfs
  refine ⟨fun cn gn al x => ?contributions, fun i hi => ?frames⟩
  case contributions =>
    have hgain := gain_default_bounds hvol cn gn al
    exact ⟨hgain.1, hgain.2, contribution_toInt hgain x, gain_mul_sample_bounds hgain x⟩
  case frames =>
    have hresult : CmdResult.frames (renderedFrames s.cfg n.toNat s.psg) = .frames fs :=
      (exec_update_next ht).2.symm.trans hfs
    obtain rfl := CmdResult.frames.inj hresult
    have hL : ∀ C, 0 ≤ gainL s.cfg s.psg.gbal C ∧ gainL s.cfg s.psg.gbal C ≤ 341 := fun _ =>
      gain_default_bounds hvol _ _ _
    have hR : ∀ C, 0 ≤ gainR s.cfg s.psg.gbal C ∧ gainR s.cfg s.psg.gbal C ≤ 341 := fun _ =>
      gain_default_bounds hvol _ _ _
    simp only [renderedFrames_get, frameAt, wrap16_sideSum hL, wrap16_sideSum hR, true_and]
    obtain ⟨hlowL, hhighL⟩ := sideSum_bounds hL s.cfg s.psg i
    exact ⟨hlowL, hhighL, sideSum_bounds hR s.cfg s.psg i⟩

end Sys2Proof.Machine
end

section
/-! SUPPORT. The instructions of a slot's streams (42_sequencer.md R173 to R195): what a step inside a loop runs, and
what each event and each segment does to the slot being processed. -/

namespace Sys2Proof.Machine

/-! ### The step inside a loop -/

theorem step_eq_eventStep {s : State} (hs : Running s) (hproc : s.proc = .events) : step s = eventStep s := by
  simp only [step, stuckOutcome_eq_none.2 hs, hproc]

theorem step_eq_envelopeStep {s : State} (hs : Running s) (hproc : s.proc = .envelope) : step s = envelopeStep s := by
  simp only [step, stuckOutcome_eq_none.2 hs, hproc]

/-- A NULL cursor reads as the byte 0xFF (42_sequencer.md R174). -/
theorem fetchEvent_of_null {s : State} {e : Event} (hcursor : s.slotNow.cursor = none)
    (hdecode : decodeEvent s.cfg [0xFF] = .ok e) : s.fetchEvent = .event e := by
  simp only [State.fetchEvent, hcursor, hdecode]

theorem fetchEvent_of_ok {s : State} {c : Nat} {e : Event} (hcursor : s.slotNow.cursor = some c)
    (hdecode : decodeEvent s.cfg (s.cfg.eventData.drop c) = .ok e) : s.fetchEvent = .event e := by
  simp only [State.fetchEvent, hcursor, hdecode]

theorem fetchEvent_of_missingByte {s : State} {c off : Nat} (hcursor : s.slotNow.cursor = some c)
    (hdecode : decodeEvent s.cfg (s.cfg.eventData.drop c) = .missingByte off) :
    s.fetchEvent = .raises (.streamOob s.cur (c + off)) := by
  simp only [State.fetchEvent, hcursor, hdecode, Option.getD_some]

theorem eventStep_of_event {s : State} {e : Event} (h : s.fetchEvent = .event e) : eventStep s = exec e.toInstr s := by
  simp only [eventStep, h]

/-- Settles O8: a step inside a loop is the turn of that loop, decided by what the stream holds at the slot's
position. -/
theorem stepRunsTheStreamInstruction : Obligations.StepRunsTheStreamInstruction := by
  intro s hs
  refine ⟨fun hproc => ?events, fun hproc p hpos => ?envelope⟩
  case events =>
    rw [step_eq_eventStep hs hproc]
    refine ⟨fun e hcursor hdecode => eventStep_of_event (fetchEvent_of_null hcursor hdecode),
      fun c e hcursor hdecode => eventStep_of_event (fetchEvent_of_ok hcursor hdecode), fun c off hcursor hdecode => ?_⟩
    simp only [eventStep, fetchEvent_of_missingByte hcursor hdecode, raise]
  case envelope =>
    rw [step_eq_envelopeStep hs hproc]
    refine ⟨fun dv dp hold len hdecode => ?_, fun hdecode => ?_, fun i hdecode => ?_⟩
    all_goals simp only [envelopeStep, hpos, hdecode, raise]

/-! ### Events -/

/-- The slot a note leaves when it restarts the envelope at `pos` (42_sequencer.md R176). -/
def Slot.startNote (c : Config) (n m : BitVec 4) (pos : Nat) (S : Slot) : Slot :=
  { S with
    countdown := c.duration m S.durBase, basePitch := n, envPos := some pos, envHold := 0, volume := c.volInit
    pitchBend := 0, cursor := S.cursor.map (· + 1) }

theorem noteBody_of_restart {s : State} {pos : Nat} (h : s.cfg.ctrlSeqOffset[s.slotNow.envSel]? = some pos)
    (n m : BitVec 4) : noteBody n m s = leaveLoop (s.modSlot (Slot.startNote s.cfg n m pos)) := by
  have hpos (f : Slot → Slot) (hf : (f s.slotNow).envSel = s.slotNow.envSel) :
      (s.modSlot f).cfg.ctrlSeqOffset[(s.modSlot f).slotNow.envSel]? = some pos := by
    rw [modSlot_slotNow, hf]
    exact h
  simp only [noteBody, hpos (fun S => { S with countdown := s.cfg.duration m S.durBase, basePitch := n }) rfl,
    modSlot_modSlot]
  rfl

theorem noteBody_of_no_restart {s : State} (h : s.cfg.ctrlSeqOffset[s.slotNow.envSel]? = none) (n m : BitVec 4) :
    noteBody n m s = raise (.envOob s.cur s.slotNow.envSel)
      (s.modSlot fun S => { S with countdown := s.cfg.duration m S.durBase, basePitch := n }) := by
  simp only [noteBody, modSlot_slotNow, State.modSlot_cfg, State.modSlot_cur, h]

/-- The default duration is the product, which fits s16 (42_sequencer.md R177). -/
theorem duration_product {c : Config} (h : c.durFn = .product) (m : BitVec 4) (base : Byte) :
    (c.duration m base).toInt = (m.toNat : Int) * base.toNat := by
  have hprod : m.toNat * base.toNat ≤ 15 * 255 :=
    Nat.mul_le_mul (Nat.le_of_lt_succ m.isLt) (Nat.le_of_lt_succ base.isLt)
  simp only [Config.duration, h]
  rw [BitVec.toInt_eq_toNat_of_lt] <;> rw [BitVec.toNat_ofNat, Nat.mod_eq_of_lt (by omega)]
  · exact Int.natCast_mul _ _
  · omega

/-- Settles O27: the note's two writes of the slot are one, and the read of `CTRL_SEQ_OFFSET` between them decides
whether the second is made. -/
theorem noteStartsANote : Obligations.NoteStartsANote := by
  intro s n m hs S S1
  refine ⟨fun pos hpos => ?_, fun hnone => ?_, fun hprod => duration_product hprod m _⟩
  · exact (streamInstr_running _ hs).trans (congrArg Host.Outcome.next (noteBody_of_restart hpos n m))
  · exact (streamInstr_running _ hs).trans (congrArg Host.Outcome.next (noteBody_of_no_restart hnone n m))

/-- Settles O28: `TERMINATE` changes `active` alone and leaves the loop. -/
theorem terminateEndsTheSlot : Obligations.TerminateEndsTheSlot := fun _ _ hs =>
  streamInstr_running terminateBody hs

/-- Settles O29: each of the two events is one change of the slot. -/
theorem transposeAndDurationBaseAreSet : Obligations.TransposeAndDurationBaseAreSet := fun _ _ v hs =>
  ⟨streamInstr_running (setTransposeBody v) hs, streamInstr_running (setDurationBaseBody v) hs⟩

/-- Settles O30: the bank is compared with `N_WAVES` before anything changes. -/
theorem selectBankSchedulesUploadOrFaults : Obligations.SelectBankSchedulesUploadOrFaults := by
  intro s op w hs
  have hexec : exec (.selectWaveformBank op w) s = .next (selectWaveformBankBody w s) := streamInstr_running _ hs
  exact ⟨fun hbank => hexec.trans (congrArg Host.Outcome.next (if_neg (Nat.not_le.2 hbank))),
    fun hbank => hexec.trans (congrArg Host.Outcome.next (if_pos hbank))⟩

/-- Settles O31: each of the three events is one change of the slot. -/
theorem oneByteControlsAdvanceByOne : Obligations.OneByteControlsAdvanceByOne := fun _ _ hs =>
  ⟨streamInstr_running envHoldOnBody hs, streamInstr_running envHoldOffBody hs,
    streamInstr_running unrecognizedBody hs⟩

/-- Settles O32: `UNDESCRIBED` only refuses. -/
theorem undescribedIsRefused : Obligations.UndescribedIsRefused := fun _ op hs =>
  streamInstr_running (undescribedBody op) hs

/-- An event that leaves the loop is a note or a terminate; where the loop is kept, the event is neither, or is a note
that faults (42_sequencer.md R173). -/
theorem runEvent_proc (e : Event) (s : State) :
    (runEvent e s).proc = .commands ∧ ((∃ n m, e = .note n m) ∨ ∃ op, e = .terminate op) ∨
      (runEvent e s).proc = s.proc ∧ (Running (runEvent e s) → (∀ n m, e ≠ .note n m) ∧ ∀ op, e ≠ .terminate op) := by
  cases e with
  | note n m =>
    cases hpos : s.cfg.ctrlSeqOffset[s.slotNow.envSel]? with
    | some pos => exact .inl ⟨by rw [runEvent, noteBody_of_restart hpos, leaveLoop_proc], .inl ⟨n, m, rfl⟩⟩
    | none =>
      rw [runEvent, noteBody_of_no_restart hpos]
      exact .inr ⟨rfl, fun hr => by simpa using hr.1⟩
  | terminate op => exact .inl ⟨rfl, .inr ⟨op, rfl⟩⟩
  | selectWaveformBank op w =>
    have hproc : (selectWaveformBankBody w s).proc = s.proc := by
      unfold selectWaveformBankBody
      split <;> rfl
    exact .inr ⟨hproc, fun _ => by simp⟩
  | setTranspose op t => exact .inr ⟨rfl, fun _ => by simp⟩
  | setDurationBase op d => exact .inr ⟨rfl, fun _ => by simp⟩
  | envHoldOn op => exact .inr ⟨rfl, fun _ => by simp⟩
  | envHoldOff op => exact .inr ⟨rfl, fun _ => by simp⟩
  | unrecognized op => exact .inr ⟨rfl, fun _ => by simp⟩
  | undescribed op => exact .inr ⟨rfl, fun _ => by simp⟩

/-- Settles O35: an event that sets no mark leaves the loop when it is a note or a terminate, and else keeps it. -/
theorem onlyNoteAndTerminateEndTheFetch : Obligations.OnlyNoteAndTerminateEndTheFetch := by
  intro s e _ hproc hrun
  obtain ⟨hleaves, hkind⟩ | ⟨hkeeps, hkind⟩ := runEvent_proc e s
  · exact ⟨iff_of_true hleaves hkind, .inl hleaves⟩
  · obtain ⟨hnote, hterminate⟩ := hkind hrun
    rw [hkeeps, hproc]
    refine ⟨iff_of_false nofun ?_, .inr rfl⟩
    rintro (⟨n, m, he⟩ | ⟨op, he⟩)
    · exact hnote n m he
    · exact hterminate op he

/-! ### Segments -/

theorem clamp_volume_toNat (v : Int) : ((BitVec.ofInt 5 (clamp v 0 31)).toNat : Int) = min 31 (max 0 v) := by
  rw [BitVec.toNat_ofInt, clamp]
  omega

theorem applySegment_volume_toNat (S : Slot) :
    (S.applySegment.volume.toNat : Int) = min 31 (max 0 ((S.volume.toNat : Int) + S.envDv.toInt)) := by
  rw [Slot.applySegment_volume, clamp_volume_toNat, sext8]

/-- A segment that is not empty is loaded and applied once, and the loop returns (42_sequencer.md R195). -/
theorem envSegBody_of_nonempty {hold : Byte} (h : hold ≠ 0) (dv dp : Byte) (len : Nat) (s : State) :
    envSegBody dv dp hold len s = leaveLoop (s.modSlot fun S => (S.loadSegment dv dp hold len).applySegment) := by
  rw [envSegBody, if_neg h, modSlot_modSlot]
  rfl

/-- Settles O33: a segment is one change of the slot, or two made one; `END` is one. -/
theorem segmentsLoadAndApply : Obligations.SegmentsLoadAndApply := by
  intro s dv dp hold len hs S S1
  have hexec : exec (.envSeg dv dp hold len) s = .next (envSegBody dv dp hold len s) := streamInstr_running _ hs
  refine ⟨fun hempty => ?_, fun hhold => ⟨S1.applySegment.volume, applySegment_volume_toNat S1, ?_⟩,
    streamInstr_running envEndBody hs⟩
  · rw [hexec, envSegBody, if_pos hempty]
    rfl
  · rw [hexec, envSegBody_of_nonempty hhold]
    rfl

/-! ### The pitch -/

theorem pitchStep_of_some {s : State} {f : Nat} (h : pitchLookup s.cfg (pitchSum s.cfg s.slotNow) = some f) :
    pitchStep s = s.modSlot fun S => { S with freq := BitVec.ofNat 12 f } := by
  simp only [pitchStep, h]

theorem pitchStep_of_none {s : State} (h : pitchLookup s.cfg (pitchSum s.cfg s.slotNow) = none) :
    pitchStep s = raise (.pitchRange s.cur (pitchSum s.cfg s.slotNow)) s := by
  simp only [pitchStep, h]

theorem pitchLookup_natCast {c : Config} {q : Nat} (h : q < c.pitchLut.length) :
    pitchLookup c q = some c.pitchLut[q] := by
  simp [pitchLookup, h]

theorem pitchLookup_eq_none {c : Config} {p : Int} (h : p < 0 ∨ c.pitchLut.length ≤ p) : pitchLookup c p = none := by
  simp only [pitchLookup, ite_eq_left_iff, List.getElem?_eq_none_iff]
  omega

/-- Settles O37: the sum is inside the table or outside it, and `pitchLookup` tells which. -/
theorem pitchStepResolvesOrFaults : Obligations.PitchStepResolvesOrFaults := by
  intro s S p
  refine ⟨fun q hq hp => ?_, fun hp => pitchStep_of_none (pitchLookup_eq_none hp)⟩
  have hsum : pitchSum s.cfg s.slotNow = q := hp
  exact pitchStep_of_some (by rw [hsum, pitchLookup_natCast hq])

end Sys2Proof.Machine
end

section
/-! SUPPORT. The two loops and the envelope: each loop ends because every turn that stays in it moves forward in its
stream (42_sequencer.md R175, R195), and a segment is applied once on each of its envelope steps (R195). -/

namespace Sys2Proof.Machine

/-! ### The loops end -/

/-- A loop has ended: with a mark, or by returning (42_sequencer.md R173). -/
def Ended (s : State) : Prop := s.stopped = true ∨ s.proc = .commands

/-- The block is inside the loop `p`, with a well-formed configuration. -/
def InLoop (p : Proc) (s : State) : Prop := s.cfg.wf = true ∧ s.proc = p

/-- A loop of which every turn ends it or leaves less to do ends when its fuel is more than what is to do. -/
theorem ended_of_loop {p : Proc} {turn : State → State} {loop : Nat → State → State} {todo : State → Nat}
    (hp : p ≠ .commands)
    (hloop : ∀ n s, loop (n + 1) s = if (turn s).stopped || (turn s).proc != p then turn s else loop n (turn s))
    (hturn : ∀ s, InLoop p s → Ended (turn s) ∨ InLoop p (turn s) ∧ todo (turn s) < todo s)
    (n : Nat) {s : State} (hs : InLoop p s) (hn : todo s < n) : Ended (loop n s) := by
  induction n generalizing s with
  | zero => exact absurd hn (Nat.not_lt_zero _)
  | succ n ih =>
    rw [hloop]
    split
    · next hexit =>
      obtain hended | ⟨⟨_, hproc⟩, _⟩ := hturn s hs
      · exact hended
      · exact .inl (by simpa [hproc] using hexit)
    · next hstay =>
      obtain ⟨hrun, hproc⟩ : (turn s).stopped = false ∧ (turn s).proc = p := by simpa using hstay
      obtain (hstop | hleft) | ⟨hin, hless⟩ := hturn s hs
      · simp [hrun] at hstop
      · exact absurd (hproc.symm.trans hleft) hp
      · exact ih hin (by omega)

/-- An event that sets no mark and stays in the loop moves the cursor past its bytes. -/
theorem runEvent_cursor {e : Event} {s : State} (hrun : Running (runEvent e s)) (hnote : ∀ n m, e ≠ .note n m)
    (hterminate : ∀ op, e ≠ .terminate op) :
    (runEvent e s).slotNow.cursor = s.slotNow.cursor.map (· + (encodeEvent e).length) := by
  cases e with
  | note n m => exact absurd rfl (hnote n m)
  | terminate op => exact absurd rfl (hterminate op)
  | selectWaveformBank op w =>
    rw [runEvent, selectWaveformBankBody] at hrun ⊢
    split at hrun
    · simpa using hrun.1
    · next hbank =>
      rw [if_neg hbank, modSlot_slotNow]
      rfl
  | setTranspose op t => exact congrArg Slot.cursor (modSlot_slotNow _ s)
  | setDurationBase op d => exact congrArg Slot.cursor (modSlot_slotNow _ s)
  | envHoldOn op => exact congrArg Slot.cursor (modSlot_slotNow _ s)
  | envHoldOff op => exact congrArg Slot.cursor (modSlot_slotNow _ s)
  | unrecognized op => exact congrArg Slot.cursor (modSlot_slotNow _ s)
  | undescribed op => simpa [runEvent, undescribedBody] using hrun.2

theorem encodeEvent_length_pos (e : Event) : 0 < (encodeEvent e).length := by
  obtain h | h := encodeEvent_length_cases e <;> omega

/-- The bytes of `EVENT_DATA` from the cursor on. -/
def bytesLeft (s : State) : Nat := s.cfg.eventData.length - s.slotNow.cursor.getD 0

/-- A turn of the FetchLoop ends it, or moves the cursor further into the stream (42_sequencer.md R175). -/
theorem eventTurn_ends_or_moves {s : State} (hs : InLoop .events s) :
    Ended (eventTurn s) ∨ InLoop .events (eventTurn s) ∧ bytesLeft (eventTurn s) < bytesLeft s := by
  obtain ⟨hcfg, hproc⟩ := hs
  cases hcursor : s.slotNow.cursor with
  | none => exact .inl (.inr (by rw [eventTurn_of_null hcfg hcursor]; rfl))
  | some i =>
    cases hfetch : s.fetchEvent with
    | raises f => exact .inl (.inl (by simp [eventTurn, hfetch, State.stopped]))
    | event e =>
      have hturn : eventTurn s = runEvent e s := by simp only [eventTurn, hfetch]
      have hcfg' : (runEvent e s).cfg = s.cfg := streamBody_cfg (.event e) s
      rw [hturn]
      obtain ⟨hleaves, _⟩ | ⟨hkeeps, hkind⟩ := runEvent_proc e s
      · exact .inl (.inr hleaves)
      by_cases hrun : Running (runEvent e s)
      · obtain ⟨hnote, hterminate⟩ := hkind hrun
        have hmoves : (runEvent e s).slotNow.cursor = some (i + (encodeEvent e).length) := by
          rw [runEvent_cursor hrun hnote hterminate, hcursor, Option.map_some]
        have hinside : (encodeEvent e).length ≤ s.cfg.eventData.length - i := by
          simp only [State.fetchEvent, hcursor] at hfetch
          split at hfetch
          · next e' hdecode =>
            cases hfetch
            exact (decodeEvent_length hdecode).trans_eq List.length_drop
          all_goals cases hfetch
        have hpos := encodeEvent_length_pos e
        refine .inr ⟨⟨hcfg' ▸ hcfg, hkeeps.trans hproc⟩, ?_⟩
        simp only [bytesLeft, hcfg', hmoves, hcursor, Option.getD_some]
        omega
      · exact .inl (.inl (stopped_eq_true.2 hrun))

/-- A decoded segment stands inside `CTRL_BLOCK`, at an index `ENV_DECODE` gives it for. -/
theorem decodeEnv_seg {c : Config} {p len : Nat} {dv dp hold : Byte} (h : decodeEnv c p = .seg dv dp hold len) :
    p < c.ctrlBlock.length ∧ EnvItem.seg dv dp hold len ∈ c.envItems := by
  unfold decodeEnv at h
  split at h
  · cases h
  · next b hb =>
    refine ⟨(List.getElem?_eq_some_iff.1 hb).1, ?_⟩
    split at h
    · cases h
    · split at h
      · next hitem =>
        cases h
        exact List.mem_of_getElem? hitem
      all_goals cases h

/-- The bytes of `CTRL_BLOCK` from the envelope's position on. -/
def envelopeLeft (s : State) : Nat := s.cfg.ctrlBlock.length - s.slotNow.envPos.getD 0

/-- A turn of the segment loop ends it, or moves past an empty segment, whose length is at least 1 (00_scope.md R10). -/
theorem envTurn_ends_or_moves {s : State} (hs : InLoop .envelope s) :
    Ended (envTurn s) ∨ InLoop .envelope (envTurn s) ∧ envelopeLeft (envTurn s) < envelopeLeft s := by
  obtain ⟨hcfg, hproc⟩ := hs
  cases hpos : s.slotNow.envPos with
  | none => exact .inl (.inr (by simp [envTurn, hpos]))
  | some p =>
    cases hdecode : decodeEnv s.cfg p with
    | stop => exact .inl (.inr (by simp [envTurn, hpos, hdecode, envEndBody]))
    | oob i => exact .inl (.inl (by simp [envTurn, hpos, hdecode, State.stopped]))
    | seg dv dp hold len =>
      have hturn : envTurn s = envSegBody dv dp hold len s := by simp only [envTurn, hpos, hdecode]
      rw [hturn]
      by_cases hhold : hold = 0
      · obtain ⟨hinside, hitem⟩ := decodeEnv_seg hdecode
        have hlen : 1 ≤ len := (wf_iff_meets s.cfg).1 hcfg .envLength dv dp hold len hitem
        rw [envSegBody, if_pos hhold]
        refine .inr ⟨⟨hcfg, hproc⟩, ?_⟩
        simp only [envelopeLeft, State.modSlot_cfg, modSlot_slotNow, Slot.loadSegment_envPos, hpos, Option.map_some,
          Option.getD_some]
        omega
      · exact .inl (.inr (by rw [envSegBody_of_nonempty hhold, leaveLoop_proc]))

/-- Settles O36: what is left of its stream bounds the turns of each loop. -/
theorem streamLoopsEnd : Obligations.StreamLoopsEnd := by
  intro s hcfg
  exact ⟨fun hproc => ended_of_loop (by decide) (fun _ _ => rfl) (fun _ => eventTurn_ends_or_moves) _ ⟨hcfg, hproc⟩
      (Nat.lt_succ_of_le (Nat.sub_le _ _)),
    fun hproc => ended_of_loop (by decide) (fun _ _ => rfl) (fun _ => envTurn_ends_or_moves) _ ⟨hcfg, hproc⟩
      (Nat.lt_succ_of_le (Nat.sub_le _ _))⟩

/-! ### The envelope step -/

theorem envStep_of_ended_or_frozen {s : State} (h : s.slotNow.envPos = none ∨ s.slotNow.envHoldFlag = true) :
    envStep s = s :=
  if_pos h

/-- Inside a segment an envelope step applies it once more. -/
theorem envStep_of_held {s : State} (hpos : s.slotNow.envPos ≠ none) (hflag : s.slotNow.envHoldFlag = false)
    (hhold : s.slotNow.envHold ≠ 0) : envStep s = s.modSlot Slot.applySegment := by
  rw [envStep, if_neg (by simp [hpos, hflag]), if_neg hhold]

/-- At a segment that is not empty an envelope step loads it and applies it once. -/
theorem envStep_of_loads {s : State} {p len : Nat} {dv dp hold : Byte} (hpos : s.slotNow.envPos = some p)
    (hflag : s.slotNow.envHoldFlag = false) (hzero : s.slotNow.envHold = 0)
    (hdecode : decodeEnv s.cfg p = .seg dv dp hold len) (hhold : hold ≠ 0) :
    envStep s = leaveLoop (s.modSlot fun S => (S.loadSegment dv dp hold len).applySegment) := by
  have hpos' : ({ s with proc := .envelope } : State).slotNow.envPos = some p := hpos
  have hturn : envTurn { s with proc := .envelope } =
      leaveLoop (s.modSlot fun S => (S.loadSegment dv dp hold len).applySegment) := by
    simp only [envTurn, hpos', hdecode, envSegBody_of_nonempty hhold]
    rfl
  have hloop : envLoop (s.cfg.ctrlBlock.length + 1) { s with proc := .envelope } =
      envTurn { s with proc := .envelope } := by
    simp [envLoop, hturn]
  rw [envStep, if_neg (by simp [hpos, hflag]), if_pos hzero, hloop, hturn]

theorem modSlot_id (s : State) : s.modSlot id = s := by
  have hset : s.slot.set (slotIndex s.cur) s.slotNow = s.slot := Vector.set_getElem_self _
  simp only [State.modSlot, id, hset]

/-- `j` envelope steps inside a segment apply it `j` times. -/
theorem envSteps_of_held (j : Nat) {s : State} (hpos : s.slotNow.envPos ≠ none) (hflag : s.slotNow.envHoldFlag = false)
    (hj : j ≤ s.slotNow.envHold.toNat) : envSteps j s = s.modSlot (Slot.applySegment^[j]) := by
  induction j generalizing s with
  | zero => exact (modSlot_id s).symm
  | succ j ih =>
    have hhold : s.slotNow.envHold ≠ 0 := by
      intro h
      simp [h] at hj
    rw [envSteps, envStep_of_held hpos hflag hhold, ih, modSlot_modSlot, ← Function.iterate_succ]
    all_goals rw [modSlot_slotNow]
    · exact hpos
    · exact hflag
    · rw [Slot.applySegment_envHold]
      bv_omega

/-! ### Repeated applications of a segment -/

/-- What one application keeps, any number of them keeps. -/
theorem iterate_applySegment_keeps {α : Type} (f : Slot → α) (hf : ∀ S : Slot, f S.applySegment = f S) (j : Nat)
    (S : Slot) : f (Slot.applySegment^[j] S) = f S := by
  induction j generalizing S with
  | zero => rfl
  | succ j ih => rw [Function.iterate_succ_apply, ih, hf]

theorem iterate_applySegment_envHold {j : Nat} {S : Slot} (hj : j ≤ S.envHold.toNat) :
    (Slot.applySegment^[j] S).envHold.toNat = S.envHold.toNat - j := by
  induction j with
  | zero => rfl
  | succ j ih =>
    have hprev := ih (Nat.le_of_succ_le hj)
    rw [Function.iterate_succ_apply', Slot.applySegment_envHold]
    bv_omega

theorem iterate_applySegment_pitchBend (j : Nat) (S : Slot) :
    (Slot.applySegment^[j] S).pitchBend = S.pitchBend + j * S.envDp.toInt := by
  induction j with
  | zero => simp
  | succ j ih =>
    rw [Function.iterate_succ_apply', Slot.applySegment_pitchBend, ih,
      iterate_applySegment_keeps Slot.envDp fun _ => rfl, sext8]
    push_cast
    ring

/-- Clamping after every one of the additions of a constant is clamping once at the end: all of them push towards the
same bound. -/
theorem clamp_add_mul_succ {v : Int} (h : 0 ≤ v ∧ v ≤ 31) (j : Nat) (d : Int) :
    min 31 (max 0 (min 31 (max 0 (v + j * d)) + d)) = min 31 (max 0 (v + (j + 1 : Nat) * d)) := by
  have hnext : v + (j + 1 : Nat) * d = v + j * d + d := by
    push_cast
    ring
  rw [hnext]
  obtain hd | hd := Int.le_total 0 d
  · have hsum : 0 ≤ (j : Int) * d := Int.mul_nonneg (Int.natCast_nonneg j) hd
    omega
  · have hsum : (j : Int) * d ≤ 0 := Int.mul_nonpos_of_nonneg_of_nonpos (Int.natCast_nonneg j) hd
    omega

theorem iterate_applySegment_volume (j : Nat) (S : Slot) :
    ((Slot.applySegment^[j] S).volume.toNat : Int) = min 31 (max 0 ((S.volume.toNat : Int) + j * S.envDv.toInt)) := by
  have hvolume : 0 ≤ (S.volume.toNat : Int) ∧ (S.volume.toNat : Int) ≤ 31 := by
    have := S.volume.isLt
    omega
  induction j with
  | zero =>
    rw [Function.iterate_zero_apply]
    omega
  | succ j ih =>
    rw [Function.iterate_succ_apply', applySegment_volume_toNat, ih,
      iterate_applySegment_keeps Slot.envDv fun _ => rfl, clamp_add_mul_succ hvolume]

/-- `j + 1` envelope steps at a segment load it and apply it `j + 1` times. -/
theorem envSteps_of_loads {j : Nat} {s : State} {p len : Nat} {dv dp hold : Byte} (hpos : s.slotNow.envPos = some p)
    (hflag : s.slotNow.envHoldFlag = false) (hzero : s.slotNow.envHold = 0)
    (hdecode : decodeEnv s.cfg p = .seg dv dp hold len) (hj : j + 1 ≤ hold.toNat) :
    envSteps (j + 1) s =
      leaveLoop (s.modSlot fun S => Slot.applySegment^[j + 1] (S.loadSegment dv dp hold len)) := by
  have hhold : hold ≠ 0 := by
    rintro rfl
    simp at hj
  have hslot : (leaveLoop (s.modSlot fun S => (S.loadSegment dv dp hold len).applySegment)).slotNow =
      (s.slotNow.loadSegment dv dp hold len).applySegment :=
    modSlot_slotNow (fun S => (S.loadSegment dv dp hold len).applySegment) s
  rw [envSteps, envStep_of_loads hpos hflag hzero hdecode hhold, envSteps_of_held]
  · show leaveLoop ((s.modSlot _).modSlot _) = _
    rw [modSlot_modSlot]
    rfl
  all_goals rw [hslot]
  · simp [hpos]
  · exact hflag
  · rw [Slot.applySegment_envHold, Slot.loadSegment_envHold]
    bv_omega

/-- Settles O34: the first step loads the segment, and each of the `j` steps applies it once. -/
theorem segmentAppliesForItsHoldCount : Obligations.SegmentAppliesForItsHoldCount := by
  refine ⟨fun s h => envStep_of_ended_or_frozen h, fun s p dv dp hold len j hs hpos hflag hzero hdecode hj hhold => ?_⟩
  obtain ⟨i, rfl⟩ := Nat.exists_eq_add_of_le' hj
  have hsteps := envSteps_of_loads hpos hflag hzero hdecode hhold
  have hslot : (envSteps (i + 1) s).slotNow = Slot.applySegment^[i + 1] (s.slotNow.loadSegment dv dp hold len) := by
    rw [hsteps]
    exact modSlot_slotNow (fun S => Slot.applySegment^[i + 1] (S.loadSegment dv dp hold len)) s
  refine ⟨hsteps ▸ hs, ?_⟩
  rw [hslot]
  refine ⟨iterate_applySegment_volume _ _, iterate_applySegment_envHold hhold, ?_, iterate_applySegment_pitchBend _ _,
    iterate_applySegment_keeps Slot.envDv (fun _ => rfl) _ _⟩
  rw [iterate_applySegment_keeps Slot.envPos fun _ => rfl, Slot.loadSegment_envPos, hpos, Option.map_some]

/-! ### A slot that plays on -/

/-- A slot that its note step leaves active takes its envelope and pitch steps (42_sequencer.md R170). -/
theorem slotStep_of_playing {s u : State} {k : AudioSlot} (hactive : (s.slot[slotIndex k]).active = true)
    (hnote : noteStep { s with cur := k } = u) (hrun : Running u) (hplays : u.slotNow.active = true)
    (henv : Running (envStep u)) : slotStep k s = pitchStep (envStep u) := by
  refine (if_pos hactive).trans ?_
  rw [hnote, andThen_running hrun, if_pos hplays, andThen_running henv]

/-- A note step whose countdown runs out on a note starts it (42_sequencer.md R172, R176). -/
theorem noteStep_of_note {s : State} {c pos : Nat} {n m : BitVec 4} (hout : s.slotNow.countDown.countdown.toInt ≤ 0)
    (hcursor : s.slotNow.cursor = some c)
    (hdecode : decodeEvent s.cfg (s.cfg.eventData.drop c) = .ok (.note n m))
    (hpos : s.cfg.ctrlSeqOffset[s.slotNow.envSel]? = some pos) :
    noteStep s = leaveLoop (s.modSlot (Slot.startNote s.cfg n m pos ∘ Slot.countDown)) := by
  generalize hu : { s.modSlot Slot.countDown with proc := .events } = u
  have hslot : u.slotNow = s.slotNow.countDown := by
    rw [← hu]
    exact modSlot_slotNow Slot.countDown s
  have hcfg : u.cfg = s.cfg := by rw [← hu]; rfl
  have hturn : eventTurn u = leaveLoop (u.modSlot (Slot.startNote u.cfg n m pos)) := by
    have hfetch : u.fetchEvent = .event (.note n m) :=
      fetchEvent_of_ok (c := c) (by rw [hslot]; exact hcursor) (by rw [hcfg]; exact hdecode)
    simp only [eventTurn, hfetch, runEvent]
    exact noteBody_of_restart (by rw [hcfg, hslot]; exact hpos) n m
  rw [noteStep_of_runsOut hout, hu, fetchLoop_of_leaves (by rw [hturn, leaveLoop_proc]), hturn, hcfg, ← hu,
    ← modSlot_modSlot]
  rfl

/-- Settles O38: the note step starts the note, the envelope step loads and applies its first segment, and the pitch
step looks up the pitch these two leave. -/
theorem slotStepPlaysTheNextNote : Obligations.SlotStepPlaysTheNextNote := by
  intro s k c p n m dv dp hold len f hs S S1 hactive hout hflag hcursor hdecode hpos hsegment hhold hpitch
  have hnote := noteStep_of_note (s := { s with cur := k }) hout hcursor hdecode hpos
  generalize hu : leaveLoop _ = u at hnote
  have hslot : u.slotNow = S.countDown.startNote s.cfg n m p := by
    rw [← hu]
    exact modSlot_slotNow (Slot.startNote s.cfg n m p ∘ Slot.countDown) { s with cur := k }
  have hrun : Running u := hu ▸ hs
  have hcfg : u.cfg = s.cfg := by rw [← hu]; rfl
  have henv : envStep u = leaveLoop (u.modSlot fun S => (S.loadSegment dv dp hold len).applySegment) :=
    envStep_of_loads (by rw [hslot]; rfl) (by rw [hslot]; exact hflag) (by rw [hslot]; rfl)
      (by rw [hcfg]; exact hsegment) hhold
  have hS1 : (S.countDown.startNote s.cfg n m p |>.loadSegment dv dp hold len).applySegment = S1 := by
    simp only [S1, Slot.startNote, Slot.loadSegment, Slot.countDown, hcursor, Option.map_some]
  have henvslot : (envStep u).slotNow = S1 := by
    rw [henv, ← hS1, ← hslot]
    exact modSlot_slotNow (fun S => (S.loadSegment dv dp hold len).applySegment) u
  have hplays : u.slotNow.active = true := hslot ▸ hactive
  rw [slotStep_of_playing hactive hnote hrun hplays (henv ▸ hrun),
    pitchStep_of_some (by rw [henvslot, henv, leaveLoop_cfg, State.modSlot_cfg, hcfg]; exact hpitch), State.modSlot,
    henvslot, henv, ← hu]
  simp [leaveLoop, State.modSlot]

end Sys2Proof.Machine
end

section
/-! SUPPORT. The push (42_sequencer.md R200 to R203): what it leaves in each channel, and how many register writes it
makes. -/

namespace Sys2Proof.Machine

/-! ### What the push leaves -/

/-- Replacing the channels of the audio slots in turn, each from its own value, replaces each of them. -/
theorem foldl_slotChannels_get (f : AudioSlot → Channel → Channel) (v : Vector Channel 8) (k : AudioSlot) :
    (audioSlots.foldl (fun v k => v.set (slotChannel k) (f k v[slotChannel k])) v)[slotChannel k] =
      f k v[slotChannel k] := by
  fin_cases k <;> simp [audioSlots, slotChannel]

/-- Replacing the channels of the audio slots keeps channels 6 and 7. -/
theorem foldl_slotChannels_spare (f : AudioSlot → Channel → Channel) (v : Vector Channel 8) (j : Fin 8)
    (hj : 6 ≤ j.val) :
    (audioSlots.foldl (fun v k => v.set (slotChannel k) (f k v[slotChannel k])) v)[j] = v[j] := by
  have h (i : Nat) (hi : i < 6) : i ≠ j.val := by omega
  simp [audioSlots, slotChannel, Vector.getElem_set_ne, h]

theorem push_sel (s : State) : (push s).psg.sel = 5 := by rw [push_psg, pushWrites_channels]

theorem push_gbal (s : State) : (push s).psg.gbal = s.cfg.globalBalPush := by rw [push_psg, pushWrites_channels]

/-- The channel of a slot that names an existing bank where it uploads one (42_sequencer.md R200, R202). -/
theorem push_ch {s : State} {k : AudioSlot}
    (hbank : (s.slot[slotIndex k]).active = true → (s.slot[slotIndex k]).uploadPending = true →
      (s.slot[slotIndex k]).waveBank < s.cfg.nWaves) :
    (push s).psg.ch[slotChannel k] = pushedChannel s.cfg s.slot[slotIndex k] s.psg.ch[slotChannel k] := by
  rw [push_psg, pushWrites_channels, ← slot_channel_writes s.cfg k _ _ hbank]
  exact foldl_slotChannels_get (fun k C => C.writes (slotWrites s.cfg k s.slot[slotIndex k]).tail) s.psg.ch k

theorem push_ch_spare (s : State) {j : Fin 8} (hj : 6 ≤ j.val) : (push s).psg.ch[j] = s.psg.ch[j] := by
  rw [push_psg, pushWrites_channels]
  exact foldl_slotChannels_spare (fun k C => C.writes (slotWrites s.cfg k s.slot[slotIndex k]).tail) s.psg.ch j hj

/-- Settles O40: the push replaces the channel of each audio slot from the channel itself. -/
theorem pushWritesEverySlot : Obligations.PushWritesEverySlot := fun s hbank =>
  ⟨push_sel s, push_gbal s, fun k => push_ch (hbank k), push_ch_spare s (j := 6) le_rfl,
    push_ch_spare s (j := 7) (by decide), uploadedSlots_get s.slot, uploadedSlots_shadow s.slot⟩

/-! ### How many writes the push makes -/

theorem uploadWrites_length {c : Config} {S : Slot} (h : S.waveBank < c.nWaves) : (uploadWrites c S).length = 34 := by
  have hbank : c.waveBank[S.waveBank]? = some c.waveBank[S.waveBank] := List.getElem?_eq_getElem h
  simp [uploadWrites, bankBytes, hbank]

/-- An inactive slot takes 2 writes, an active one 5, and its upload 34 more (42_sequencer.md R203). -/
theorem slotWrites_length {c : Config} {S : Slot}
    (hbank : S.active = true → S.uploadPending = true → S.waveBank < c.nWaves) (k : AudioSlot) :
    (slotWrites c k S).length =
      if S.active then (if S.uploadPending then 39 else 5) else 2 := by
  unfold slotWrites
  split_ifs with hactive hpending
  · simp [uploadWrites_length (hbank hactive hpending)]
  · rfl
  · rfl

/-- The writes of some of the slots, counted by what those slots are. -/
theorem flatMap_slotWrites_length {c : Config} {slots : Vector Slot 12}
    (hbank : ∀ k : AudioSlot, (slots[slotIndex k]).active = true → (slots[slotIndex k]).uploadPending = true →
      (slots[slotIndex k]).waveBank < c.nWaves) (ks : List AudioSlot) :
    (ks.flatMap fun k => slotWrites c k slots[slotIndex k]).length =
      2 * (ks.filter fun k => !(slots[slotIndex k]).active).length +
      5 * (ks.filter fun k => (slots[slotIndex k]).active).length +
      34 * (ks.filter fun k => (slots[slotIndex k]).active && (slots[slotIndex k]).uploadPending).length := by
  induction ks with
  | nil => rfl
  | cons k ks ih =>
    rw [List.flatMap_cons, List.length_append, ih, slotWrites_length (hbank k)]
    simp only [List.filter_cons]
    cases (slots[slotIndex k]).active <;> cases (slots[slotIndex k]).uploadPending <;> simp <;> omega

/-- Settles O41: the write of the global balance, and the writes of the six slots. -/
theorem pushWriteCount : Obligations.PushWriteCount := by
  intro c slots hbank
  rw [pushWrites, List.length_cons, flatMap_slotWrites_length hbank]
  omega

end Sys2Proof.Machine
end

section
/-! SUPPORT. The tick slot by slot (42_sequencer.md R170): what a tick that completes leaves, the closed form of a slot
that holds its note, and a `FILL` with no active slot (70_reset_and_hazards.md R284). -/

namespace Sys2Proof.Machine

/-! ### A tick that completes -/

/-- A command runs on a running block with a free lock, whatever loop the block is in. -/
theorem command_of_free (body : State → State) {s : State} (hs : Running s) (hlock : s.lock = .free) :
    command body s = .next (endCommand (body (beginCommand s))) := by
  simp [command, stuckOutcome_eq_none.2 hs, hlock]

/-- The push sets no mark, so a tick sets one exactly when some slot's own steps do. -/
theorem tickBody_running_iff {s : State} (hs : Running s) :
    Running (tickBody s) ↔ ∀ k : AudioSlot, Running (slotStep k s) := by
  rw [← phaseA_running hs]
  obtain ⟨_, e⟩ | ⟨_, e⟩ := tickBody_cases s <;> rw [e]
  exact Iff.rfl

/-- A tick that completes has pushed the slots of phase A. -/
theorem tickBody_of_running {s : State} (h : Running (tickBody s)) :
    Running (phaseA s) ∧ tickBody s = push (phaseA s) := by
  obtain hpushed | ⟨hstopped, e⟩ := tickBody_cases s
  · exact hpushed
  · exact absurd (e ▸ h) hstopped

/-- What a tick that completes leaves of slots and PSG core: each slot is what its own steps give, and the PSG core is
the push of those slots. -/
structure Ticked (s t : State) : Prop where
  cur : t.cur = 5
  audio : ∀ k : AudioSlot, t.slot[slotIndex k] = ((slotStep k s).slot[slotIndex k]).uploaded
  shadow : ∀ k : Fin 12, 6 ≤ k.val → t.slot[k] = s.slot[k]
  sel : t.psg.sel = 5
  gbal : t.psg.gbal = s.cfg.globalBalPush
  channel : ∀ k : AudioSlot,
    (((slotStep k s).slot[slotIndex k]).active = true → ((slotStep k s).slot[slotIndex k]).uploadPending = true →
      ((slotStep k s).slot[slotIndex k]).waveBank < s.cfg.nWaves) →
    t.psg.ch[slotChannel k] = pushedChannel s.cfg (slotStep k s).slot[slotIndex k] s.psg.ch[slotChannel k]
  spare : ∀ j : Fin 8, 6 ≤ j.val → t.psg.ch[j] = s.psg.ch[j]
  counters : SameCounters s.psg t.psg

theorem ticked_tickBody {s : State} (hs : Running s) (h : Running (tickBody s)) : Ticked s (tickBody s) := by
  have hcounters := sameCounters_tickBody s
  obtain ⟨hphase, e⟩ := tickBody_of_running h
  have hseq := seqStep_phaseA s
  have hslot := phaseA_slot hs hphase
  rw [e] at hcounters ⊢
  refine ⟨phaseA_cur hphase, fun k => ?audio, fun k hk => ?shadow, push_sel _, ?gbal, fun k hbank => ?channel,
    fun j hj => ?spare, hcounters⟩
  case audio => rw [push_slot, uploadedSlots_get, hslot]
  case shadow => rw [push_slot, uploadedSlots_shadow _ _ hk, hseq.shadow k hk]
  case gbal => rw [push_gbal, hseq.cfg]
  case channel =>
    rw [← hslot k, ← hseq.cfg] at hbank
    rw [push_ch hbank, hslot, hseq.cfg, hseq.psg]
  case spare => rw [push_ch_spare _ hj, hseq.psg]

/-- The command around a tick: it releases the lock, is in no loop and returns nothing. -/
theorem endCommand_tickBody {s : State} (hlock : s.lock = .free) :
    endCommand (tickBody (beginCommand s)) = { tickBody s with proc := .commands, result := .nothing } := by
  have hbegin : beginCommand s = s.outside .held .nothing s.stg s.psg := rfl
  rw [hbegin, outside_tickBody]
  simp only [endCommand, State.outside, ite_self, ← tickBody_stg s, ← hlock.symm.trans (tickBody_lock s).symm]

/-- `TICK` answers the tick of the block. -/
theorem exec_tick {s : State} (hs : Running s) (hlock : s.lock = .free) :
    exec .tick s = .next { tickBody s with proc := .commands, result := .nothing } :=
  (command_of_free tickBody hs hlock).trans (congrArg Host.Outcome.next (endCommand_tickBody hlock))

/-- A tick that completes changes the PSG core, the slots and `cur`, and `proc` where a loop was read. -/
theorem tickBody_frame {s : State} (hs : Running s) (h : Running (tickBody s)) :
    tickBody s =
      { s with psg := (tickBody s).psg, slot := (tickBody s).slot, proc := (tickBody s).proc, cur := 5 } := by
  have hcur := (ticked_tickBody hs h).cur
  have hcfg := tickBody_cfg s
  have hcue := tickBody_lastCue s
  have hstg := tickBody_stg s
  have hlock := tickBody_lock s
  have hcmds := tickBody_cmds s
  have hresult := tickBody_result s
  obtain ⟨hfault, hrefused⟩ := h
  rw [← hs.1] at hfault
  rw [← hs.2] at hrefused
  generalize tickBody s = t at *
  cases t
  simp_all only

/-! ### A slot that holds its note -/

theorem slotStep_of_inactive {s : State} {k : AudioSlot} (h : (s.slot[slotIndex k]).active = false) :
    slotStep k s = { s with cur := k } :=
  if_neg (Bool.eq_false_iff.1 h)

/-- A change of the slot being processed looks at that slot alone. -/
theorem modSlot_congr {s : State} {f g : Slot → Slot} (h : f s.slotNow = g s.slotNow) : s.modSlot f = s.modSlot g := by
  rw [State.modSlot, State.modSlot, h]

/-- Before its countdown runs out a note step counts down and no more (42_sequencer.md R172). -/
theorem noteStep_of_held {s : State} (h : 0 < s.slotNow.countDown.countdown.toInt) :
    noteStep s = s.modSlot Slot.countDown := by
  have hslot : 0 < (s.modSlot Slot.countDown).slotNow.countdown.toInt := by
    rw [modSlot_slotNow]
    exact h
  exact if_pos hslot

/-- An envelope step that reads no segment applies the current one, unless the envelope has ended or is frozen. -/
theorem envStep_of_no_segment {s : State}
    (h : s.slotNow.envPos = none ∨ s.slotNow.envHoldFlag = true ∨ s.slotNow.envHold ≠ 0) :
    envStep s = s.modSlot envelopedSlot := by
  by_cases hended : s.slotNow.envPos = none ∨ s.slotNow.envHoldFlag = true
  · have hid : envelopedSlot s.slotNow = id s.slotNow := if_pos hended
    rw [envStep_of_ended_or_frozen hended, modSlot_congr hid, modSlot_id]
  · have happly : envelopedSlot s.slotNow = s.slotNow.applySegment := if_neg hended
    obtain ⟨hpos, hflag⟩ := not_or.1 hended
    have hhold : s.slotNow.envHold ≠ 0 := (h.resolve_left hpos).resolve_left hflag
    rw [envStep_of_held hpos (Bool.eq_false_of_not_eq_true hflag) hhold, modSlot_congr happly]

/-- The steps of a slot that holds its note (42_sequencer.md R170 to R198). -/
theorem slotStep_of_holds {s : State} {k : AudioSlot} (hs : Running s) (hactive : (s.slot[slotIndex k]).active = true)
    (h : Holds s.cfg s.slot[slotIndex k]) :
    slotStep k s = ({ s with cur := k } : State).modSlot (heldSlot s.cfg) := by
  obtain ⟨hcount, hsegment, hpitch, _⟩ := h hactive
  obtain ⟨f, hf⟩ := Option.isSome_iff_exists.1 hpitch
  generalize hu : ({ s with cur := k } : State) = u
  have hslot : u.slotNow = s.slot[slotIndex k] := by rw [← hu]; rfl
  have hcfg : u.cfg = s.cfg := by rw [← hu]
  have hrun : Running u := hu ▸ hs
  rw [← hslot] at hcount hsegment hf
  have hnote : noteStep { s with cur := k } = u.modSlot Slot.countDown := by
    rw [hu]
    exact noteStep_of_held hcount
  have henv : envStep (u.modSlot Slot.countDown) = u.modSlot (envelopedSlot ∘ Slot.countDown) := by
    rw [envStep_of_no_segment (by rw [modSlot_slotNow]; exact hsegment), modSlot_modSlot]
  have hplays : (u.modSlot Slot.countDown).slotNow.active = true := by
    rw [modSlot_slotNow, hslot]
    exact hactive
  have hlookup : pitchLookup (u.modSlot (envelopedSlot ∘ Slot.countDown)).cfg
      (pitchSum (u.modSlot (envelopedSlot ∘ Slot.countDown)).cfg
        (u.modSlot (envelopedSlot ∘ Slot.countDown)).slotNow) = some f := by
    rw [modSlot_slotNow, State.modSlot_cfg, hcfg]
    exact hf
  rw [slotStep_of_playing hactive hnote hrun hplays (henv ▸ hrun), henv, pitchStep_of_some hlookup, modSlot_modSlot]
  refine modSlot_congr (congrArg (fun x => { envelopedSlot u.slotNow.countDown with freq := BitVec.ofNat 12 x }) ?_)
  exact (congrArg (Option.getD · 0) hf).symm

/-- Slot `k` after the steps of a tick it holds its note through. -/
def advancedSlot (c : Config) (S : Slot) : Slot := if S.active then heldSlot c S else S

theorem slotStep_holds {s : State} {k : AudioSlot} (hs : Running s) (h : Holds s.cfg s.slot[slotIndex k]) :
    Running (slotStep k s) ∧ (slotStep k s).slot[slotIndex k] = advancedSlot s.cfg s.slot[slotIndex k] := by
  cases hactive : (s.slot[slotIndex k]).active with
  | false =>
    rw [slotStep_of_inactive hactive, advancedSlot, if_neg (Bool.eq_false_iff.1 hactive)]
    exact ⟨hs, rfl⟩
  | true =>
    rw [slotStep_of_holds hs hactive h, advancedSlot, if_pos hactive]
    exact ⟨hs, modSlot_slotNow (heldSlot s.cfg) { s with cur := k }⟩

/-- A slot that holds its note keeps its bank, its pending upload and `active`. -/
theorem advancedSlot_keeps (c : Config) (S : Slot) :
    (advancedSlot c S).active = S.active ∧ (advancedSlot c S).uploadPending = S.uploadPending ∧
      (advancedSlot c S).waveBank = S.waveBank := by
  unfold advancedSlot heldSlot envelopedSlot
  split_ifs <;> exact ⟨rfl, rfl, rfl⟩

theorem advancedSlot_uploaded (c : Config) (S : Slot) :
    (advancedSlot c S).uploaded = if S.active then (heldSlot c S).uploaded else S := by
  unfold advancedSlot
  split_ifs with hactive
  · rfl
  · exact if_neg hactive

/-- The steps of a slot keep its bank an existing one (60_exceptions.md R256). -/
theorem slotStep_waveBank {s : State} (hs : Running s) {k : AudioSlot}
    (h : (s.slot[slotIndex k]).waveBank < s.cfg.nWaves) :
    ((slotStep k s).slot[slotIndex k]).waveBank < s.cfg.nWaves :=
  ((seqStep_slotStep k hs).slots (slotIndex k)).bank h

/-- Settles O42: phase A gives each slot what its own steps give, which for a held note is the closed form, and the
push writes the slots so advanced. -/
theorem tickAdvancesHeldNotes : Obligations.TickAdvancesHeldNotes := by
  refine ⟨fun s hready hholds => ?held, fun s hs hlock => ?every⟩
  case held =>
    obtain ⟨hs, hlock, hproc⟩ := hready
    have hstep := fun k => slotStep_holds hs (hholds k)
    have hrun : Running (tickBody s) := (tickBody_running_iff hs).2 fun k => (hstep k).1
    have hticked := ticked_tickBody hs hrun
    refine ⟨_, exec_tick hs hlock, ?_, fun k => ?_, hticked.shadow, hticked.sel, hticked.gbal, fun k => ?_,
      hticked.spare 6 le_rfl, hticked.spare 7 (by decide)⟩
    · rw [tickBody_frame hs hrun, ← hproc]
    · rw [hticked.audio k, (hstep k).2, advancedSlot_uploaded]
    · refine (hticked.channel k ?_).trans (by rw [(hstep k).2]; rfl)
      obtain ⟨hactive, hpending, hbank⟩ := advancedSlot_keeps s.cfg s.slot[slotIndex k]
      rw [(hstep k).2, hactive, hpending, hbank]
      exact fun ha => (hholds k ha).2.2.2
  case every =>
    refine ⟨_, exec_tick hs hlock, tickBody_running_iff hs, fun hrun => ?_⟩
    have hticked := ticked_tickBody hs hrun
    exact ⟨by rw [tickBody_frame hs hrun], hticked.audio, hticked.shadow, hticked.sel, hticked.gbal,
      fun k hbank => hticked.channel k fun _ _ => slotStep_waveBank hs hbank, hticked.spare 6 le_rfl,
      hticked.spare 7 (by decide), hticked.counters⟩

/-! ### `FILL` with no active slot -/

/-- No audio slot is active. -/
def Idle (s : State) : Prop := ∀ k : AudioSlot, (s.slot[slotIndex k]).active = false

theorem uploaded_of_inactive {S : Slot} (h : S.active = false) : S.uploaded = S :=
  if_neg (Bool.eq_false_iff.1 h)

/-- The push leaves the channel of an inactive slot disabled (42_sequencer.md R200). -/
theorem pushedChannel_of_inactive (c : Config) {S : Slot} (h : S.active = false) (C : Channel) :
    ctrlEn (pushedChannel c S C).ctrl = false := by
  simp [pushedChannel, h, ctrlEn]

/-- Slots that agree on the audio slots and on the shadow slots are equal. -/
theorem slots_ext {v w : Vector Slot 12} (haudio : ∀ k : AudioSlot, v[slotIndex k] = w[slotIndex k])
    (hshadow : ∀ k : Fin 12, 6 ≤ k.val → v[k] = w[k]) : v = w := by
  refine Vector.ext fun i hi => ?_
  obtain h | h := Nat.lt_or_ge i 6
  · exact haudio ⟨i, h⟩
  · exact hshadow ⟨i, hi⟩ h

/-- A tick with no active slot sets no mark, keeps the slots and disables the channel of every audio slot. -/
theorem tickBody_of_idle {s : State} (hs : Running s) (hidle : Idle s) :
    Running (tickBody s) ∧ (tickBody s).slot = s.slot ∧
      ∀ k : AudioSlot, ctrlEn (tickBody s).psg.ch[slotChannel k].ctrl = false := by
  have hstep (k : AudioSlot) : slotStep k s = { s with cur := k } := slotStep_of_inactive (hidle k)
  have hslot (k : AudioSlot) : (slotStep k s).slot[slotIndex k] = s.slot[slotIndex k] := by rw [hstep]
  have hrun : Running (tickBody s) := (tickBody_running_iff hs).2 fun k => (hstep k).symm ▸ hs
  have hticked := ticked_tickBody hs hrun
  refine ⟨hrun, slots_ext (fun k => ?_) hticked.shadow, fun k => ?_⟩
  · rw [hticked.audio, hslot, uploaded_of_inactive (hidle k)]
  · have hchannel := hticked.channel k
    rw [hslot] at hchannel
    rw [hchannel fun hactive => absurd hactive (Bool.eq_false_iff.1 (hidle k))]
    exact pushedChannel_of_inactive _ (hidle k) _

/-- The channels of the audio slots are the rendered ones (41_psg_render.md R150). -/
theorem renderedFrames_of_slots_disabled (c : Config) (n : Nat) {p : Psg}
    (h : ∀ k : AudioSlot, ctrlEn p.ch[slotChannel k].ctrl = false) :
    renderedFrames c n p = List.replicate n Frame.silent :=
  renderedFrames_of_disabled c n fun j hj => h ⟨j.val, (mem_renderedChannels j).1 hj⟩

/-- A period with no active slot stages silence and keeps the slots (70_reset_and_hazards.md R284). -/
theorem period_of_idle {s : State} (hs : Running s) (hidle : Idle s) :
    Running (period s) ∧ (period s).slot = s.slot ∧ (period s).stg = List.replicate s.cfg.spp Frame.silent := by
  obtain ⟨hrun, hslot, hdisabled⟩ := tickBody_of_idle hs hidle
  have hperiod : period s = refill (tickBody s) := andThen_running hrun refill
  have hcfg := tickBody_cfg s
  rw [hperiod]
  generalize tickBody s = t at hrun hslot hdisabled hcfg ⊢
  refine ⟨hrun, hslot, ?_⟩
  rw [refill_stg, update_closed, hcfg]
  exact renderedFrames_of_slots_disabled _ _ hdisabled

/-- `FILL`'s loop with no active slot and silence staged: it hands over silence, stages silence and keeps the slots.
The fuel is enough when a turn is left for the frames asked for, and one more to stage the first of them. -/
theorem fillLoop_of_idle {fuel need : Nat} {out : List Frame} {s : State} (hs : Running s) (hidle : Idle s)
    (hspp : 1 ≤ s.cfg.spp) (hsilent : ∀ f ∈ s.stg, f = Frame.silent) (hfuel : 1 ≤ fuel)
    (henough : need + 1 ≤ fuel ∨ s.stg ≠ [] ∧ need ≤ fuel) :
    let t := fillLoop fuel need out s
    Running t ∧ t.slot = s.slot ∧ (∀ f ∈ t.stg, f = Frame.silent) ∧
      t.result = .frames (out ++ List.replicate need Frame.silent) := by
  induction fuel generalizing need out s with
  | zero => omega
  | succ fuel ih =>
    generalize hk : min need s.stg.length = k
    have hstg : s.stg = List.replicate s.stg.length Frame.silent := List.eq_replicate_iff.2 ⟨rfl, hsilent⟩
    have htake : s.stg.take k = List.replicate k Frame.silent := by
      rw [hstg, List.take_replicate, min_eq_left (by omega)]
    have hdrop : ∀ f ∈ s.stg.drop k, f = Frame.silent := fun f hf => hsilent f (List.mem_of_mem_drop hf)
    simp only [fillLoop, hk, htake]
    split_ifs with hdone
    · have hneed : need = k := by omega
      exact ⟨hs, rfl, hdrop, by rw [hneed]⟩
    · obtain ⟨hrun, hslot, hstaged⟩ := period_of_idle (s := { s with stg := s.stg.drop k }) hs hidle
      generalize hu : period { s with stg := s.stg.drop k } = u at hrun hslot hstaged
      have hcfg : u.cfg = s.cfg := by rw [← hu, period_cfg]
      have hne : u.stg ≠ [] := by
        rw [hstaged]
        simpa using Nat.one_le_iff_ne_zero.1 hspp
      have hmoves : s.stg ≠ [] → 1 ≤ k := fun h => by
        have := List.length_pos_iff.2 h
        omega
      have hleft : need - k ≤ fuel := by
        obtain h | ⟨h, _⟩ := henough
        · omega
        · have := hmoves h
          omega
      rw [andThen_running hrun]
      obtain ⟨hr, hs', hf, hres⟩ := ih (need := need - k) (out := out ++ List.replicate k Frame.silent) hrun
        (fun k => by rw [hslot]; exact hidle k) (hcfg ▸ hspp)
        (fun f hf => List.eq_of_mem_replicate (hstaged ▸ hf)) (by omega) (.inr ⟨hne, hleft⟩)
      refine ⟨hr, hs'.trans hslot, hf, ?_⟩
      rw [hres, List.append_assoc, ← List.replicate_add, Nat.add_sub_cancel' (by omega)]

/-- Settles O51: every period of the request ticks idle slots, whose push disables the rendered channels, and renders
silence. -/
theorem fillIsSilentWithoutACue : Obligations.FillIsSilentWithoutACue := by
  intro s n hready hspp hidle hsilent
  obtain ⟨hrun, hslot, hstg, hresult⟩ := fillLoop_of_idle (fuel := n.toNat + 1) (need := n.toNat) (out := [])
    (s := beginCommand s) hready.1 hidle hspp hsilent (by omega) (.inl le_rfl)
  refine ⟨_, command_ready (fillBody n.toNat) hready, hrun, ?_, hstg, hslot⟩
  rw [endCommand_running (s := fillBody n.toNat (beginCommand s)) hrun]
  exact hresult

end Sys2Proof.Machine
end

section
/-! SUPPORT. Cue control (42_sequencer.md R210 to R214): what `START`, `STOP` and `STATUS` leave of a ready block. -/

namespace Sys2Proof.Machine

/-! ### The words of cue control -/

theorem decodeCommand_start (id : BitVec 16) : decodeCommand (idWord 4 id) = .ok (.start id) :=
  commandWordsRoundTrip Config.installed (.start id) _ rfl rfl

theorem decodeCommand_stop (id : BitVec 16) : decodeCommand (idWord 5 id) = .ok (.stop id) :=
  commandWordsRoundTrip Config.installed (.stop id) _ rfl rfl

theorem decodeCommand_status (id : BitVec 16) : decodeCommand (idWord 6 id) = .ok (.status id) :=
  commandWordsRoundTrip Config.installed (.status id) _ rfl rfl

/-! ### `START` -/

theorem exec_start_of_cue {s : State} {id : BitVec 16} {offs : Vector (Option Nat) 6} (h : Ready s)
    (hoffs : s.cfg.cueOffsets id = some offs) : exec (.start id) s = .next { s with
      slot := startedSlots s.cfg offs s.slot, lastCue := some id, result := .nothing } := by
  obtain ⟨hs, hlock, hproc⟩ := h
  have hbody : startBody id (beginCommand s) =
      { beginCommand s with slot := startedSlots s.cfg offs s.slot, lastCue := some id } := by
    simp only [startBody, beginCommand_cfg, beginCommand_slot, hoffs]
  refine (command_ready (startBody id) ⟨hs, hlock, hproc⟩).trans (congrArg Host.Outcome.next ?_)
  rw [hbody, endCommand_running (by exact hs)]
  simp only [beginCommand, ← hlock, ← hproc]

theorem exec_start_of_no_cue {s : State} {id : BitVec 16} (h : Ready s) (hnone : s.cfg.cueOffsets id = none) :
    exec (.start id) s = .next { s with fault := some (.cueId id), result := .nothing } := by
  obtain ⟨hs, hlock, hproc⟩ := h
  have hbody : startBody id (beginCommand s) = raise (.cueId id) (beginCommand s) := by
    simp only [startBody, beginCommand_cfg, hnone]
  have hmark : ¬ Running (raise (.cueId id) (beginCommand s)) := fun hr => by simpa using hr.1
  refine (command_ready (startBody id) ⟨hs, hlock, hproc⟩).trans (congrArg Host.Outcome.next ?_)
  rw [hbody, endCommand_stopped hmark]
  simp only [raise, beginCommand, ← hlock, ← hproc]

/-- Settles O45: the cue has an entry and every audio slot gets its record, or it has none and only the fault is
raised. -/
theorem startBeginsACue : Obligations.StartBeginsACue := fun s id h =>
  ⟨decodeCommand_start id,
    fun offs hoffs => ⟨_, exec_start_of_cue h hoffs, rfl, startedSlots_get s.cfg offs s.slot,
      startedSlots_shadow s.cfg offs s.slot⟩,
    exec_start_of_no_cue h⟩

/-! ### `STOP` and `STATUS` -/

/-- A command with no effect returns nothing and keeps the rest of a ready block. -/
theorem command_no_effect {s : State} (h : Ready s) : command (fun s => s) s = .next { s with result := .nothing } :=
  command_modPsg (fun p => p) h

/-- A command that only returns a result keeps the rest of a ready block. -/
theorem command_result (r : State → CmdResult) {s : State} (h : Ready s) :
    command (fun s => { s with result := r s }) s = .next { s with result := r (beginCommand s) } := by
  obtain ⟨hs, hlock, hproc⟩ := h
  rw [command_ready _ ⟨hs, hlock, hproc⟩, endCommand_running (by exact hs)]
  simp only [beginCommand, ← hlock, ← hproc]

theorem anyActive_iff (slots : Vector Slot 12) :
    anyActive slots = true ↔ ∃ k : AudioSlot, (slots[slotIndex k]).active = true := by
  simp only [anyActive, List.any_eq_true, audioSlots_mem, true_and]

/-- The bit of `STATUS id` (42_sequencer.md R214). -/
theorem cuePlaying_iff (id : BitVec 16) (s : State) :
    cuePlaying id s = true ↔ s.lastCue = some id ∧ ∃ k : AudioSlot, (s.slot[slotIndex k]).active = true := by
  rw [cuePlaying, Bool.and_eq_true, beq_iff_eq, anyActive_iff]

/-- Settles O46: `STOP` returns nothing and `STATUS` its bit, and neither does more. -/
theorem stopAndStatusChangeNothing : Obligations.StopAndStatusChangeNothing := fun s id h =>
  ⟨decodeCommand_stop id, decodeCommand_status id, command_no_effect h, cuePlaying id s,
    command_result (fun s => .bit (cuePlaying id s)) h, cuePlaying_iff id s⟩

end Sys2Proof.Machine
end

section
/-! SUPPORT. The stream adapter (43_stream_adapter.md): `FILL` in closed form. The loop runs the periods of R234 one
after the other and hands over the front of the stream they stage (R235); no period looks at what a command sets as it
begins and ends, so a request may be split anywhere. -/

namespace Sys2Proof.Machine

/-! ### The ticks of a request (R234) -/

/-- The ticks of R234 are the fewest whose frames, with those staged, are enough. -/
theorem fillTicks_le_iff {spp : Nat} (hspp : 1 ≤ spp) (staged n t : Nat) :
    fillTicks spp staged n ≤ t ↔ n ≤ staged + t * spp := by
  unfold fillTicks
  split_ifs with h
  · exact iff_of_true (Nat.zero_le t) (Nat.le_add_right_of_le h)
  · rw [← Nat.lt_succ_iff, Nat.div_lt_iff_lt_mul hspp, Nat.succ_mul]
    omega

theorem fillTicks_enough {spp : Nat} (hspp : 1 ≤ spp) (staged n : Nat) :
    n ≤ staged + fillTicks spp staged n * spp :=
  (fillTicks_le_iff hspp staged n _).1 le_rfl

/-- Less than one period is left of what a request that ticks has produced. -/
theorem fillTicks_rest_lt {spp : Nat} (hspp : 1 ≤ spp) {staged n : Nat} (h : 0 < fillTicks spp staged n) :
    staged + fillTicks spp staged n * spp - n < spp := by
  obtain ⟨t, ht⟩ := Nat.exists_eq_succ_of_ne_zero h.ne'
  have hfewer : ¬ n ≤ staged + t * spp := by
    rw [← fillTicks_le_iff hspp, ht]
    omega
  rw [ht, Nat.succ_mul]
  omega

theorem fillTicks_of_le {spp staged n : Nat} (h : n ≤ staged) : fillTicks spp staged n = 0 := if_pos h

/-- The first tick of a request stages one period for the rest of it. -/
theorem fillTicks_of_gt {spp : Nat} (hspp : 1 ≤ spp) {staged n : Nat} (h : staged < n) :
    fillTicks spp staged n = fillTicks spp spp (n - staged) + 1 := by
  refine eq_of_forall_ge_iff fun t => ?_
  rw [fillTicks_le_iff hspp]
  cases t with
  | zero => simpa using h
  | succ t =>
    rw [Nat.add_le_add_iff_right, fillTicks_le_iff hspp, Nat.succ_mul]
    omega

/-- A request split in two runs the ticks of both parts, the second from what the first leaves staged (R235). -/
theorem fillTicks_add {spp : Nat} (hspp : 1 ≤ spp) (staged n1 n2 : Nat) :
    fillTicks spp staged (n1 + n2) =
      fillTicks spp staged n1 + fillTicks spp (staged + fillTicks spp staged n1 * spp - n1) n2 := by
  have henough := fillTicks_enough hspp staged n1
  refine eq_of_forall_ge_iff fun t => ?_
  constructor
  · intro ht
    have hboth := (fillTicks_le_iff hspp staged (n1 + n2) t).1 ht
    obtain ⟨d, rfl⟩ := Nat.exists_eq_add_of_le ((fillTicks_le_iff hspp staged n1 t).2 (by omega))
    rw [Nat.add_mul] at hboth
    rw [Nat.add_le_add_iff_left, fillTicks_le_iff hspp]
    omega
  · intro ht
    obtain ⟨d, rfl⟩ := Nat.exists_eq_add_of_le (Nat.le_trans (Nat.le_add_right _ _) ht)
    rw [Nat.add_le_add_iff_left, fillTicks_le_iff hspp] at ht
    rw [fillTicks_le_iff hspp, Nat.add_mul]
    omega

/-- Every tick of a request hands over a frame, so there are no more ticks than frames asked for. -/
theorem fillTicks_le {spp : Nat} (hspp : 1 ≤ spp) (staged n : Nat) : fillTicks spp staged n ≤ n :=
  (fillTicks_le_iff hspp staged n n).2 (Nat.le_add_left_of_le (Nat.le_mul_of_pos_right n hspp))

/-! ### What a period looks at -/

/-- The states agree but for the staging buffer and what a command sets as it begins and ends: the lock, the loop and
the result. -/
structure SameBlock (s t : State) : Prop where
  cfg : t.cfg = s.cfg
  psg : t.psg = s.psg
  slot : t.slot = s.slot
  lastCue : t.lastCue = s.lastCue
  fault : t.fault = s.fault
  refused : t.refused = s.refused
  cmds : t.cmds = s.cmds
  cur : t.cur = s.cur

theorem SameBlock.rfl {s : State} : SameBlock s s :=
  ⟨Eq.refl _, Eq.refl _, Eq.refl _, Eq.refl _, Eq.refl _, Eq.refl _, Eq.refl _, Eq.refl _⟩

theorem sameBlock_beginCommand (s : State) : SameBlock s (beginCommand s) := { SameBlock.rfl (s := s) with }

namespace SameBlock

variable {s t : State}

theorem running (h : SameBlock s t) : Running t ↔ Running s := by simp only [Running, h.fault, h.refused]

theorem setStg (h : SameBlock s t) (g : List Frame) : SameBlock { s with stg := g } { t with stg := g } := { h with }

theorem andThen {f : State → State} (h : SameBlock s t) (hf : Running s → SameBlock (f s) (f t)) :
    SameBlock (s.andThen f) (t.andThen f) := by
  obtain ⟨hs, e⟩ | ⟨hs, e⟩ := andThen_cases s f <;> rw [e]
  · rw [andThen_running (h.running.2 hs)]
    exact hf hs
  · rw [andThen_stopped (mt h.running.1 hs)]
    exact h

/-- The steps of a slot enter each loop themselves, so the loop the block is in does not matter to them. -/
theorem slotStep (h : SameBlock s t) (k : AudioSlot) (hs : Running s) :
    SameBlock (slotStep k s) (slotStep k t) := by
  have hagree : Agree False (Machine.slotStep k s) (Machine.slotStep k t) :=
    slotStep_agree k h.cfg (by rw [h.slot]) h.fault h.refused False.elim
  have hs_only := slotStep_onlySlot k s
  have ht_only := slotStep_onlySlot k t
  have hs_seq := seqStep_slotStep k hs
  have ht_seq := seqStep_slotStep k (h.running.2 hs)
  refine ⟨hagree.cfg, ?psg, ?slot, ?lastCue, hagree.fault, hagree.refused, ?cmds, hagree.cur⟩
  case psg => rw [ht_seq.psg, h.psg, hs_seq.psg]
  case lastCue => rw [ht_seq.lastCue, h.lastCue, hs_seq.lastCue]
  case cmds => rw [ht_seq.cmds, h.cmds, hs_seq.cmds]
  case slot =>
    ext j hj : 1
    by_cases hjk : (⟨j, hj⟩ : Fin 12) = slotIndex k
    · have hnow := hagree.slot
      simp only [State.slotNow, hs_only.cur, ht_only.cur, ← hjk] at hnow
      exact hnow
    · have hother := hs_only.others ⟨j, hj⟩ hjk
      rw [← h.slot] at hother
      exact (ht_only.others ⟨j, hj⟩ hjk).trans hother.symm

theorem phaseA (h : SameBlock s t) : SameBlock (phaseA s) (phaseA t) := by
  have hfold (ks : List AudioSlot) (s t : State) (h : SameBlock s t) :
      SameBlock (ks.foldl (fun s k => s.andThen (Machine.slotStep k)) s)
        (ks.foldl (fun s k => s.andThen (Machine.slotStep k)) t) := by
    induction ks generalizing s t with
    | nil => exact h
    | cons k ks ih => exact ih _ _ (h.andThen (h.slotStep k))
  exact hfold _ s t h

theorem push (h : SameBlock s t) : SameBlock (push s) (push t) :=
  { h with
    psg := by rw [push_psg, push_psg, h.psg, h.cfg, h.slot]
    slot := by rw [push_slot, push_slot, h.slot] }

theorem tickBody (h : SameBlock s t) : SameBlock (tickBody s) (tickBody t) := h.phaseA.andThen fun _ => h.phaseA.push

theorem refill (h : SameBlock s t) : SameBlock (refill s) (refill t) :=
  { h with psg := by rw [refill_psg, refill_psg, h.psg, h.cfg] }

theorem period (h : SameBlock s t) : SameBlock (period s) (period t) := h.tickBody.andThen fun _ => h.tickBody.refill

/-- Where the same frames are staged before a period, the same are staged after it. -/
theorem period_stg (h : SameBlock s t) (hstg : t.stg = s.stg) : (Machine.period t).stg = (Machine.period s).stg := by
  have htick := h.tickBody
  obtain ⟨hs, e⟩ | ⟨hs, e⟩ := period_cases s <;> rw [e]
  · rw [Machine.period, andThen_running (htick.running.2 hs), refill_stg, refill_stg, htick.psg, htick.cfg]
  · rw [Machine.period, andThen_stopped (mt htick.running.1 hs), tickBody_stg, tickBody_stg, hstg]

theorem afterPeriods (h : SameBlock s t) (n : Nat) : SameBlock (afterPeriods n s) (afterPeriods n t) := by
  induction n generalizing s t with
  | zero => exact h
  | succ n ih => exact ih (h.setStg []).period

end SameBlock

/-! ### One period -/

/-- A period that does not stop stages `SPP` frames (R232). -/
theorem period_stg_length_of_running {s : State} (h : Running (period s)) : (period s).stg.length = s.cfg.spp := by
  rw [(period_running h).2, refill_stg, update_length, tickBody_cfg]

/-- A period that stops renders nothing. -/
theorem period_stg_of_stopped {s : State} (h : ¬ Running (period s)) : (period s).stg = s.stg := by
  obtain ⟨hr, e⟩ | ⟨_, e⟩ := period_cases s
  · rw [e] at h
    exact absurd hr (by simpa only [Running, refill_fault, refill_refused] using h)
  · rw [e, tickBody_stg]

/-! ### The periods, one after the other -/

/-- The frames `P1 ++ ... ++ Pt` that `t` periods render (R235). -/
def periodFrames : Nat → State → List Frame
  | 0, _ => []
  | t + 1, s => (period { s with stg := [] }).stg ++ periodFrames t (period { s with stg := [] })

theorem frameStream_eq (t : Nat) (s : State) : frameStream t s = s.stg ++ periodFrames t s := by
  induction t generalizing s with
  | zero => exact (List.append_nil _).symm
  | succ t ih => rw [frameStream, ih, periodFrames]

theorem periodFrames_congr {s t : State} (h : SameBlock s t) (n : Nat) : periodFrames n t = periodFrames n s := by
  induction n generalizing s t with
  | zero => rfl
  | succ n ih =>
    have hdrained := h.setStg []
    rw [periodFrames, periodFrames, hdrained.period_stg rfl, ih hdrained.period]

theorem frameStream_congr {s t : State} (h : SameBlock s t) (hstg : t.stg = s.stg) (n : Nat) :
    frameStream n t = frameStream n s := by
  rw [frameStream_eq, frameStream_eq, hstg, periodFrames_congr h]

theorem afterPeriods_cfg (t : Nat) (s : State) : (afterPeriods t s).cfg = s.cfg := by
  induction t generalizing s with
  | zero => rfl
  | succ t ih => rw [afterPeriods, ih, period_cfg]

theorem afterPeriods_lock (t : Nat) (s : State) : (afterPeriods t s).lock = s.lock := by
  induction t generalizing s with
  | zero => rfl
  | succ t ih => rw [afterPeriods, ih, period_lock]

theorem afterPeriods_add (a b : Nat) (s : State) : afterPeriods (a + b) s = afterPeriods b (afterPeriods a s) := by
  induction a generalizing s with
  | zero => rw [Nat.zero_add, afterPeriods]
  | succ a ih => rw [Nat.succ_add, afterPeriods, ih, afterPeriods]

theorem periodFrames_add (a b : Nat) (s : State) :
    periodFrames (a + b) s = periodFrames a s ++ periodFrames b (afterPeriods a s) := by
  induction a generalizing s with
  | zero => rw [Nat.zero_add, periodFrames, List.nil_append, afterPeriods]
  | succ a ih => rw [Nat.succ_add, periodFrames, ih, periodFrames, afterPeriods, List.append_assoc]

/-- More periods put their frames at the end of the stream. -/
theorem frameStream_add (a b : Nat) (s : State) :
    frameStream (a + b) s = frameStream a s ++ periodFrames b (afterPeriods a s) := by
  rw [frameStream_eq, frameStream_eq, periodFrames_add, List.append_assoc]

/-- On a stopped block with nothing staged periods do nothing. -/
theorem afterPeriods_of_stopped {s : State} (h : ¬ Running s) (hstg : s.stg = []) (t : Nat) :
    afterPeriods t s = s := by
  induction t with
  | zero => rfl
  | succ t ih =>
    have hdrained : { s with stg := [] } = s := by rw [← hstg]
    rw [afterPeriods, hdrained, period_stopped h, ih]

/-- A mark stays set, so periods that end with none began with none. -/
theorem running_of_afterPeriods {t : Nat} {s : State} (h : Running (afterPeriods t s)) : Running s := by
  induction t generalizing s with
  | zero => exact h
  | succ t ih =>
    by_contra hs
    have hperiod := ih h
    rw [period_stopped (s := { s with stg := [] }) hs] at hperiod
    exact hs hperiod

theorem periodFrames_length {t : Nat} {s : State} (h : Running (afterPeriods t s)) :
    (periodFrames t s).length = t * s.cfg.spp := by
  induction t generalizing s with
  | zero => rw [Nat.zero_mul, periodFrames, List.length_nil]
  | succ t ih =>
    rw [periodFrames, List.length_append, ih h, period_stg_length_of_running (running_of_afterPeriods h), period_cfg,
      Nat.succ_mul, Nat.add_comm]

theorem frameStream_length {t : Nat} {s : State} (h : Running (afterPeriods t s)) :
    (frameStream t s).length = s.stg.length + t * s.cfg.spp := by
  rw [frameStream_eq, List.length_append, periodFrames_length h]

/-! ### The loop of `FILL` -/

/-- The first `n` frames of `fs` are handed over after `out`, and the rest stay staged. -/
def handOver (n : Nat) (fs out : List Frame) (s : State) : State :=
  { s with stg := fs.drop n, result := .frames (out ++ fs.take n) }

/-- The turn that finds enough frames staged is the last one. -/
theorem fillLoop_of_le {need : Nat} {s : State} (h : need ≤ s.stg.length) (fuel : Nat) (out : List Frame) :
    fillLoop (fuel + 1) need out s = handOver need s.stg out s := by
  simp only [fillLoop, Nat.min_eq_left h, Nat.sub_self, if_true, handOver]

/-- A turn that finds too few hands over all of them and runs a period. -/
theorem fillLoop_of_gt {need : Nat} {s : State} (h : s.stg.length < need) (fuel : Nat) (out : List Frame) :
    fillLoop (fuel + 1) need out s =
      (period { s with stg := [] }).andThen (fillLoop fuel (need - s.stg.length) (out ++ s.stg)) := by
  simp only [fillLoop, Nat.min_eq_right h.le, if_neg (Nat.sub_ne_zero_of_lt h), List.take_length, List.drop_length]

theorem handOver_append {n : Nat} {fs : List Frame} (h : fs.length ≤ n) (fs' out : List Frame) :
    handOver n (fs ++ fs') out = handOver (n - fs.length) fs' (out ++ fs) := by
  funext s
  simp only [handOver, List.drop_append, List.take_append, List.drop_of_length_le h, List.take_of_length_le h,
    List.nil_append, List.append_assoc]

/-- `FILL`'s loop in closed form (R232 to R235): the periods of R234, and then, unless one of them stopped, the first
frames of the stream. -/
theorem fillLoop_closed {fuel need : Nat} {out : List Frame} {s : State} (hs : Running s) (hspp : 1 ≤ s.cfg.spp)
    (hfuel : fillTicks s.cfg.spp s.stg.length need < fuel) :
    let t := fillTicks s.cfg.spp s.stg.length need
    fillLoop fuel need out s = (afterPeriods t s).andThen (handOver need (frameStream t s) out) := by
  induction fuel generalizing need out s with
  | zero => exact absurd hfuel (Nat.not_lt_zero _)
  | succ fuel ih =>
    dsimp only
    obtain hle | hgt := le_or_gt need s.stg.length
    · rw [fillLoop_of_le hle, fillTicks_of_le hle]
      exact (andThen_running (s := afterPeriods 0 s) hs _).symm
    · rw [fillTicks_of_gt hspp hgt] at hfuel ⊢
      rw [fillLoop_of_gt hgt, afterPeriods, frameStream, handOver_append hgt.le]
      have hstopped := period_stg_of_stopped (s := { s with stg := [] })
      have hlength := period_stg_length_of_running (s := { s with stg := [] })
      have hcfg := period_cfg { s with stg := [] }
      generalize period { s with stg := [] } = u at hstopped hlength hcfg ⊢
      by_cases hu : Running u
      · have hticks : fillTicks u.cfg.spp u.stg.length (need - s.stg.length) =
            fillTicks s.cfg.spp s.cfg.spp (need - s.stg.length) := by rw [hlength hu, hcfg]
        rw [andThen_running hu, ← hticks]
        exact ih hu (hcfg ▸ hspp) (by omega)
      · rw [andThen_stopped hu, afterPeriods_of_stopped hu (hstopped hu), andThen_stopped hu]

/-- A loop that ends with no mark has handed over all that was asked for, whatever the configuration (R233). -/
theorem fillLoop_result {fuel need : Nat} {out : List Frame} {s : State} (h : Running (fillLoop fuel need out s)) :
    ∃ fs, (fillLoop fuel need out s).result = .frames fs ∧ fs.length = out.length + need := by
  induction fuel generalizing need out s with
  | zero => exact absurd h.2 (Option.some_ne_none _)
  | succ fuel ih =>
    obtain hle | hgt := le_or_gt need s.stg.length
    · rw [fillLoop_of_le hle]
      exact ⟨_, rfl, by rw [List.length_append, List.length_take, Nat.min_eq_left hle]⟩
    · rw [fillLoop_of_gt hgt] at h ⊢
      obtain ⟨_, e⟩ | ⟨hstopped, e⟩ := andThen_cases (period { s with stg := [] })
        (fillLoop fuel (need - s.stg.length) (out ++ s.stg)) <;> rw [e] at h ⊢
      · obtain ⟨fs, hresult, hlength⟩ := ih h
        refine ⟨fs, hresult, hlength.trans ?_⟩
        rw [List.length_append]
        omega
      · exact absurd h hstopped

/-! ### The command -/

/-- A block whose command has ended and returned `fs`, with `g` staged. -/
def State.served (g fs : List Frame) (s : State) : State :=
  { s with stg := g, result := .frames fs, lock := .free, proc := .commands }

theorem SameBlock.served {s t : State} (h : SameBlock s t) (g fs : List Frame) : t.served g fs = s.served g fs := by
  simp only [State.served, h.cfg, h.psg, h.slot, h.lastCue, h.fault, h.refused, h.cmds, h.cur]

/-- The answer of a request for `n` frames that runs `t` ticks, none of which stops: the front of the stream is
returned, and the rest stays staged. -/
def State.filled (t n : Nat) (s : State) : State :=
  (afterPeriods t s).served ((frameStream t s).drop n) ((frameStream t s).take n)

@[simp] theorem filled_stg (t n : Nat) (s : State) : (s.filled t n).stg = (frameStream t s).drop n := rfl
@[simp] theorem filled_lock (t n : Nat) (s : State) : (s.filled t n).lock = .free := rfl
@[simp] theorem filled_cfg (t n : Nat) (s : State) : (s.filled t n).cfg = s.cfg := afterPeriods_cfg t s

/-- An answer leaves the block as the periods leave it. -/
theorem sameBlock_filled (t n : Nat) (s : State) : SameBlock (afterPeriods t s) (s.filled t n) :=
  { SameBlock.rfl (s := afterPeriods t s) with }

theorem filled_beginCommand (t n : Nat) (s : State) : (beginCommand s).filled t n = s.filled t n := by
  have hbegin := sameBlock_beginCommand s
  rw [State.filled, (hbegin.afterPeriods t).served, frameStream_congr hbegin (beginCommand_stg s), State.filled]

/-- A request after another one continues its stream: but for what the second returns, the two answer as one (R235). -/
theorem filled_filled {a b n1 n2 : Nat} {s : State} (h : n1 ≤ (frameStream a s).length) :
    (s.filled a n1).filled b n2 =
      { s.filled (a + b) (n1 + n2) with result := .frames (((frameStream (a + b) s).drop n1).take n2) } := by
  have hsame := sameBlock_filled a n1 s
  have hstream : frameStream b (s.filled a n1) = (frameStream (a + b) s).drop n1 := by
    rw [frameStream_eq, periodFrames_congr hsame, filled_stg, frameStream_add, List.drop_append_of_le_length h]
  generalize s.filled a n1 = u at hsame hstream
  rw [State.filled, (hsame.afterPeriods b).served, hstream, List.drop_drop, ← afterPeriods_add]
  rfl

/-- The loop of `FILL n` runs the periods of R234, and then hands over, unless one of them stopped. -/
theorem fillBody_closed {n : Nat} {s : State} (hs : Running s) (hspp : 1 ≤ s.cfg.spp) :
    fillBody n s = (afterPeriods (fillTicks s.cfg.spp s.stg.length n) s).andThen
      (handOver n (frameStream (fillTicks s.cfg.spp s.stg.length n) s) []) :=
  fillLoop_closed hs hspp (Nat.lt_succ_of_le (fillTicks_le hspp _ _))

/-- A request whose periods do not stop runs on a free lock and hands over the front of the stream (R235). -/
theorem exec_fill {s : State} {n : BitVec 20} {t : Nat} (hlock : s.lock = .free) (hspp : 1 ≤ s.cfg.spp)
    (ht : fillTicks s.cfg.spp s.stg.length n.toNat = t) (hrun : Running (afterPeriods t s)) :
    exec (.fill n) s = .next (s.filled t n.toNat) := by
  have hs := running_of_afterPeriods hrun
  have hrun' := ((sameBlock_beginCommand s).afterPeriods t).running.2 hrun
  calc exec (.fill n) s
    _ = .next (endCommand (fillBody n.toNat (beginCommand s))) := command_of_free _ hs hlock
    _ = .next (endCommand (handOver n.toNat (frameStream t (beginCommand s)) []
          (afterPeriods t (beginCommand s)))) := by
      rw [fillBody_closed (s := beginCommand s) hs hspp, beginCommand_cfg, beginCommand_stg, ht, andThen_running hrun']
    _ = .next ((beginCommand s).filled t n.toNat) :=
      congrArg Host.Outcome.next (endCommand_running (s := handOver n.toNat _ [] _) hrun')
    _ = _ := by rw [filled_beginCommand]

/-- A request that completes ran on a free lock, and none of its periods stopped. -/
theorem exec_fill_next {s t : State} {n : BitVec 20} (h : exec (.fill n) s = .next t) (ht : Running t)
    (hspp : 1 ≤ s.cfg.spp) :
    s.lock = .free ∧ Running (afterPeriods (fillTicks s.cfg.spp s.stg.length n.toNat) s) := by
  obtain ⟨hs, hlock, rfl⟩ := command_next (body := fillBody n.toNat) h
  refine ⟨hlock, ((sameBlock_beginCommand s).afterPeriods _).running.1 ?_⟩
  have hbody : Running (fillBody n.toNat (beginCommand s)) := ht
  rw [fillBody_closed (s := beginCommand s) hs hspp] at hbody
  obtain ⟨hrun, _⟩ | ⟨hstopped, e⟩ := andThen_cases _ (handOver n.toNat _ [])
  · exact hrun
  · exact absurd (e ▸ hbody) hstopped

/-! ### The statements -/

/-- Settles O48: the first turn of the loop finds enough frames staged. -/
theorem fillServesFromStaging : Obligations.FillServesFromStaging := by
  intro s n hready hle
  obtain ⟨hs, hlock, hproc⟩ := hready
  calc exec (.fill n) s
    _ = .next (endCommand (fillBody n.toNat (beginCommand s))) := command_of_free _ hs hlock
    _ = .next (endCommand (handOver n.toNat s.stg [] (beginCommand s))) := by
      rw [fillBody, fillLoop_of_le (s := beginCommand s) hle, beginCommand_stg]
    _ = .next ((beginCommand s).filled 0 n.toNat) :=
      congrArg Host.Outcome.next (endCommand_running (s := handOver n.toNat s.stg [] (beginCommand s)) hs)
    _ = .next (s.filled 0 n.toNat) := by rw [filled_beginCommand]
    _ = _ := by simp only [State.filled, State.served, afterPeriods, frameStream, ← hlock, ← hproc]

/-- Settles O52: a loop that ends with no mark has handed over `n` frames, and a command that ends with one returns
nothing. -/
theorem fillNeverUnderproduces : Obligations.FillNeverUnderproduces := by
  intro s t n h
  obtain ⟨_, _, rfl⟩ := command_next (body := fillBody n.toNat) h
  refine ⟨fun hrun => ?_, fun hstopped => ?_⟩
  · obtain ⟨fs, hresult, hlength⟩ := fillLoop_result (s := beginCommand s) (out := []) hrun
    rw [endCommand_running (s := fillBody n.toNat (beginCommand s)) hrun]
    exact ⟨fs, hresult, by simpa using hlength⟩
  · rw [endCommand_stopped (s := fillBody n.toNat (beginCommand s)) hstopped]

/-- Settles O49: the loop's closed form, and the arithmetic of R234. -/
theorem fillReturnsTheFrameStream : Obligations.FillReturnsTheFrameStream := by
  intro s n hready hspp t hrun
  have hlock : (afterPeriods t s).lock = .free := (afterPeriods_lock t s).trans hready.2.1
  refine ⟨?_, frameStream_length hrun, fillTicks_enough hspp _ _, fillTicks_rest_lt hspp⟩
  rw [exec_fill (t := t) hready.2.1 hspp rfl hrun]
  simp only [State.filled, State.served, ← hlock]

/-- Settles O50: the second request starts in the block the first one's periods leave, with the rest of their stream
staged, so it runs the remaining periods and hands over the frames that follow. -/
theorem fillSplitsFreely : Obligations.FillSplitsFreely := by
  intro s t n1 n2 hsum hwf hfill ht
  have hspp : 1 ≤ s.cfg.spp := (wf_iff_meets s.cfg).1 hwf .spp
  have htoNat : (n1 + n2).toNat = n1.toNat + n2.toNat := BitVec.toNat_add_of_lt hsum
  obtain ⟨hlock, hrun⟩ := exec_fill_next hfill ht hspp
  rw [htoNat, fillTicks_add hspp] at hrun
  generalize ha : fillTicks s.cfg.spp s.stg.length n1.toNat = a at hrun
  generalize hb : fillTicks s.cfg.spp (s.stg.length + a * s.cfg.spp - n1.toNat) n2.toNat = b at hrun
  have hwhole := exec_fill (n := n1 + n2) hlock hspp (by rw [htoNat, fillTicks_add hspp, ha, hb]) hrun
  rw [afterPeriods_add] at hrun
  have hrun1 := running_of_afterPeriods hrun
  have hlength := frameStream_length hrun1
  have henough : n1.toNat ≤ (frameStream a s).length := by
    rw [hlength, ← ha]
    exact fillTicks_enough hspp _ _
  have hsecond : exec (.fill n2) (s.filled a n1.toNat) = .next ((s.filled a n1.toNat).filled b n2.toNat) :=
    exec_fill rfl (by rwa [filled_cfg]) (by rw [filled_cfg, filled_stg, List.length_drop, hlength, hb])
      (((sameBlock_filled a n1.toNat s).afterPeriods b).running.2 hrun)
  rw [filled_filled henough, ← htoNat] at hsecond
  obtain rfl := Host.Outcome.next.inj (hfill.symm.trans hwhole)
  have hfront : (frameStream (a + b) s).take (n1 + n2).toNat =
      (frameStream a s).take n1.toNat ++ ((frameStream (a + b) s).drop n1.toNat).take n2.toNat := by
    rw [htoNat, List.take_add, frameStream_add, List.take_append_of_le_length henough]
  exact ⟨_, _, _, exec_fill hlock hspp ha hrun1, rfl, hsecond, congrArg CmdResult.frames hfront⟩

end Sys2Proof.Machine
end

section
/-! SUPPORT. Where nothing happens (60_exceptions.md): a block with a mark answers the mark to every instruction and
every step (R251, R252), and a block with no command waiting stays as it is (R273). -/

namespace Sys2Proof.Machine

/-! ### A block with a mark -/

theorem command_of_stuck {s : State} {o : Outcome} (h : s.stuckOutcome = some o) (body : State → State) :
    command body s = o := by
  simp only [command, h]

theorem streamInstr_of_stuck {s : State} {o : Outcome} (h : s.stuckOutcome = some o) (body : State → State) :
    streamInstr body s = o := by
  simp only [streamInstr, h]

/-- Commands and the instructions of the streams both look at the marks before they run their body. -/
theorem exec_of_stuck {s : State} {o : Outcome} (h : s.stuckOutcome = some o) (i : Instr) : exec i s = o := by
  obtain ⟨body, _, hexec⟩ | ⟨body, _, hexec⟩ := exec_eq_command_or_stream i
  · rw [hexec, command_of_stuck h]
  · rw [hexec, streamInstr_of_stuck h]

theorem step_of_stuck {s : State} {o : Outcome} (h : s.stuckOutcome = some o) : step s = o := by
  simp only [step, h]

/-- Settles O10: a mark decides the answer of every instruction and every step before anything else is read. -/
theorem markedBlockIsStuck : Obligations.MarkedBlockIsStuck := by
  refine ⟨fun s f hfault => ?faulted, fun s r hfault hrefused => ?refused⟩
  case faulted =>
    have hstuck := stuckOutcome_fault hfault
    exact ⟨step_of_stuck hstuck, exec_of_stuck hstuck⟩
  case refused =>
    have hstuck := stuckOutcome_refused hfault hrefused
    exact ⟨step_of_stuck hstuck, exec_of_stuck hstuck⟩

/-! ### A block with no command waiting -/

/-- Settles O9: the step of a running block that waits for commands and finds the queue empty. -/
theorem stepWithoutCommandChangesNothing : Obligations.StepWithoutCommandChangesNothing :=
  fun _ hs hproc hcmds => step_of_idle hs hproc hcmds

end Sys2Proof.Machine
end

section
/-! SUPPORT. A cue on a block that has run and on a fresh one (70_reset_and_hazards.md R282). After `RESET` the block
differs from the fresh one in its slots and its last cue alone; `START` writes both, but for the shadow slots, which the
invariant keeps at their power-on values. -/

namespace Sys2Proof.Machine

/-- The power-on block under `s`'s configuration, with what is staged, queued and being processed in `s`. -/
def State.fresh (s : State) : State := { State.powerOn s.cfg with stg := s.stg, cmds := s.cmds, cur := s.cur }

theorem fresh_of_wf {s : State} (h : s.cfg.wf = true) :
    s.fresh = { State.blank s.cfg with stg := s.stg, cmds := s.cmds, cur := s.cur } := by
  rw [State.fresh, powerOn_of_wf h]

theorem ready_fresh {s : State} (h : s.cfg.wf = true) : Ready s.fresh := by
  rw [fresh_of_wf h]
  exact ⟨⟨rfl, rfl⟩, rfl, rfl⟩

theorem fresh_slot_shadow {s : State} (h : s.cfg.wf = true) {k : Fin 12} (hk : 6 ≤ k.val) :
    s.fresh.slot[k] = Slot.powerOn := by
  rw [fresh_of_wf h]
  exact (blockInv_blank h).shadow k hk

/-- After `RESET` a ready block is the fresh one but for its slots and its last cue. -/
theorem exec_reset_eq_fresh {s : State} (hwf : s.cfg.wf = true) (h : Ready s) :
    exec .reset s = .next { s.fresh with slot := s.slot, lastCue := s.lastCue } := by
  rw [exec_reset h, fresh_of_wf hwf]
  obtain ⟨⟨hfault, hrefused⟩, hlock, hproc⟩ := h
  simp only [State.blank, ← hfault, ← hrefused, ← hlock, ← hproc]

/-- A cue gives the slots of any block the invariant admits the records it gives those of the fresh block. -/
theorem startedSlots_eq_fresh {s : State} (h : BlockInv s) (offs : Vector (Option Nat) 6) :
    startedSlots s.cfg offs s.slot = startedSlots s.cfg offs s.fresh.slot := by
  refine slots_ext (fun k => ?audio) fun k hk => ?shadow
  case audio => rw [startedSlots_get, startedSlots_get]
  case shadow =>
    rw [startedSlots_shadow _ _ _ k hk, startedSlots_shadow _ _ _ k hk, h.shadow k hk, fresh_slot_shadow h.cfg hk]

theorem execAll_pair {i j : Instr} {s t u : State} (hi : exec i s = .next t) (hj : exec j t = .next u) :
    execAll [i, j] s = .next u := by
  simp only [execAll, hi, hj]

/-- Settles O47: `START` overwrites the last cue and the audio slots, and the shadow slots are fresh by the invariant;
the block after `RESET` differs from the fresh one nowhere else. -/
theorem resetThenStartIsPowerOnStart : Obligations.ResetThenStartIsPowerOnStart := by
  intro s id h hinv hcue
  obtain ⟨offs, hoffs⟩ := Option.isSome_iff_exists.1 hcue
  have hfresh : Ready s.fresh := ready_fresh hinv.cfg
  have hreset : Ready { s.fresh with slot := s.slot, lastCue := s.lastCue } := hfresh
  have hrun : execAll [.reset, .start id] s =
      .next { s.fresh with slot := startedSlots s.cfg offs s.slot, lastCue := some id, result := .nothing } :=
    execAll_pair (exec_reset_eq_fresh hinv.cfg h) (exec_start_of_cue hreset hoffs)
  rw [startedSlots_eq_fresh hinv offs] at hrun
  exact ⟨_, hrun, exec_start_of_cue hfresh hoffs⟩

end Sys2Proof.Machine
end
